-- ==== Sys2Proof/Word.lean ====
section
/-! DEFINITION. The word types of the block (spec/00_scope.md R10, spec/20_memory.md R62): every
width the spec gives a value has one name here. -/

namespace Sys2Proof

/-- One byte of guest memory, and the width of a subaddress or a command code (R10, R62). -/
abbrev Byte := BitVec 8

/-- A 24-bit guest address (R10). -/
abbrev Addr := BitVec 24

/-- A 16-bit byte count, or a 16-bit status halfword (R10). -/
abbrev Half := BitVec 16

/-- A 32-bit word of a descriptor, a Status Record or an XIO request (R80, R87, R95). -/
abbrev Word := BitVec 32

end Sys2Proof
end

