-- ==== Sys2Proof/Syntax.lean ====
section
/-! DEFINITION. The instructions of the block: the eight command classes an IOCD can have
(spec/30_encoding.md R80 to R86) and the sixteen function codes an XIO request can have (R95 to R97).
One constructor per row of spec/opcode_table.json. -/

namespace Sys2Proof

/-- The five flags of a descriptor and of a context (spec/30_encoding.md R83, spec/10_state.md R25). -/
structure Flags where
  /-- chain-data -/
  dc : Bool
  /-- chain-command -/
  cc : Bool
  /-- suppress-length-indicator -/
  sli : Bool
  /-- skip-transfer -/
  skip : Bool
  /-- program-controlled-interrupt -/
  pci : Bool
deriving DecidableEq, Repr, Inhabited

/-- All five flags clear. -/
def Flags.none : Flags := { dc := false, cc := false, sli := false, skip := false, pci := false }

/-- Word 2 of a descriptor: the flags, the reserved bits 26 to 16 and the byte count (R80, R83). -/
structure CommandWord where
  flags : Flags
  /-- bits 26 to 16, "reserved, must be zero"; a non-zero value is a program check (R84, R125) -/
  reserved : BitVec 11
  count : Half
deriving DecidableEq, Repr, Inhabited

/-- The command classes of R82. -/
inductive CommandClass where
  | inch | invalid | write | read | control | sense | tic | rdbwd
deriving DecidableEq, Repr

/-- One instruction. The first eight constructors are descriptors, which the Channel Program Engine
fetches from guest memory; the others are XIO requests, which arrive on the CPU port. Bits that the
spec says are ignored are kept as operands, so that no bit of an encoding is dropped. -/
inductive Instr where
  /-- initialise the channel's status buffer (R155) -/
  | inch (addr : Addr) (w2 : CommandWord)
  /-- an unassigned command code `hi || 0000`, `hi` not zero (R162) -/
  | invalid (hi : BitVec 4) (addr : Addr) (w2 : CommandWord)
  /-- output (R156) -/
  | write (modifier : BitVec 6) (addr : Addr) (w2 : CommandWord)
  /-- input (R157) -/
  | read (modifier : BitVec 6) (addr : Addr) (w2 : CommandWord)
  /-- device control (R158) -/
  | control (modifier : BitVec 6) (addr : Addr) (w2 : CommandWord)
  /-- sense bytes (R159) -/
  | sense (modifier : BitVec 4) (addr : Addr) (w2 : CommandWord)
  /-- Transfer-In-List; `hi` and `ignored` (word 2) are not examined (R161) -/
  | tic (hi : BitVec 4) (addr : Addr) (ignored : Word)
  /-- read backward (R160) -/
  | rdbwd (modifier : BitVec 4) (addr : Addr) (w2 : CommandWord)
  /-- Start (R262) -/
  | sio (lchan : BitVec 7) (sa : Byte) (listAddr : Addr)
  /-- Test (R263) -/
  | tio (lchan : BitVec 7) (sa : Byte)
  /-- Stop (R265) -/
  | stpio (lchan : BitVec 7) (sa : Byte)
  /-- Reset-Channel; `sa` is ignored (R268) -/
  | rschnl (lchan : BitVec 7) (sa : Byte)
  /-- Halt (R264) -/
  | hio (lchan : BitVec 7) (sa : Byte)
  /-- Grab (R266) -/
  | grio (lchan : BitVec 7) (sa : Byte)
  /-- Reset-Controller (R269) -/
  | rsctl (lchan : BitVec 7) (sa : Byte)
  /-- enable level (R270); bits 7 to 0 are ignored -/
  | eci (lev : BitVec 7) (ignored : Byte)
  /-- disable level (R271) -/
  | dci (lev : BitVec 7) (ignored : Byte)
  /-- activate level (R272) -/
  | aci (lev : BitVec 7) (ignored : Byte)
  /-- deactivate (release) level (R273) -/
  | daci (lev : BitVec 7) (ignored : Byte)
  /-- function code 0x0, unassigned (R96, R259) -/
  | unassigned0 (lchan : BitVec 7) (sa : Byte)
  /-- function code 0x1, unassigned -/
  | unassigned1 (lchan : BitVec 7) (sa : Byte)
  /-- function code 0x9, unassigned -/
  | unassigned9 (lchan : BitVec 7) (sa : Byte)
  /-- function code 0xA, unassigned -/
  | unassignedA (lchan : BitVec 7) (sa : Byte)
  /-- function code 0xB, unassigned -/
  | unassignedB (lchan : BitVec 7) (sa : Byte)
deriving DecidableEq, Repr

end Sys2Proof
end

