-- ==== Sys2Proof/Machine/Ports.lean ====
section
/-! DEFINITION. The values that cross the ports of the block (spec/10_state.md R44,
spec/30_encoding.md R98 to R101, spec/45_device_contract.md R300, R301) and the context a device's own
descriptor-list walker may rewrite (R305). -/

namespace Sys2Proof.Machine

/-- A unit: a real channel and a subaddress (spec/00_scope.md R13, R15). -/
structure UnitId where
  ch : Nat
  sa : Byte
deriving DecidableEq, Repr, Inhabited

/-- The place of a unit in the tables that are kept per unit. -/
def UnitId.key (u : UnitId) : Nat := u.ch * 256 + u.sa.toNat

/-- The six transfer-states (spec/10_state.md R22). -/
inductive TransferState where
  | empty | busy | awaitingNext | posted | done | channelEndPending
deriving DecidableEq, Repr, Inhabited

/-- The Channel Program Context (spec/10_state.md R20). Its eighth field there, `unit`, is the key the
context is kept under: "configuration; never written". -/
structure Context where
  state : TransferState
  listAddr : Addr
  cmd : Byte
  flags : Flags
  count : Half
  dataAddr : Addr
  status : Half
deriving DecidableEq, Repr, Inhabited

/-- The context at power-on and after a reset: Empty with every field 0 (R20, R350, R268). -/
def Context.powerOn : Context :=
  { state := .empty, listAddr := 0, cmd := 0, flags := Flags.none, count := 0, dataAddr := 0,
    status := 0 }

/-- A Status Record in its wire form (spec/10_state.md R31). -/
structure Record where
  w1 : Word
  w2 : Word
deriving DecidableEq, Repr, Inhabited

/-- The closed set of XIO outcomes (spec/30_encoding.md R98). -/
inductive XioOutcome where
  | acceptedNoStatus | acceptedQueued | statusStored | busy | busySubchannel | unsupported
  | deviceAbsent
deriving DecidableEq, Repr, Inhabited

/-- The engine's outcome (spec/30_encoding.md R100). -/
inductive EngineOutcome where
  | pending | done | error
deriving DecidableEq, Repr, Inhabited

/-- The answers of the device's pre-check (spec/30_encoding.md R99). -/
inductive PreCheck where
  | ready | busy | busyQueueable | awaitingInit
deriving DecidableEq, Repr, Inhabited

/-- The answers of the read helper (spec/30_encoding.md R100). -/
inductive ReadAnswer where
  | byte (b : Byte) | endOfData | error
deriving DecidableEq, Repr

/-- The answers of the write helper (spec/30_encoding.md R100). -/
inductive WriteAnswer where
  | ok | endOfData | error
deriving DecidableEq, Repr

/-- The answers of a push to a Status FIFO (spec/41_status_posting.md R178, R179). -/
inductive PushAnswer where
  | ok | full
deriving DecidableEq, Repr

/-- The answers of a scan (spec/30_encoding.md R101). -/
inductive ScanAnswer where
  | none | dispatch (level : Nat) (icb : Addr)
deriving DecidableEq, Repr

/-- An operation a device makes into the block (spec/45_device_contract.md R301). The unit is the
device's own and is given beside the call. -/
inductive DevCall where
  | signal (extra : Half)
  | readByte
  | writeByte (b : Byte)
  | pushFront (ch : Nat) (record : Record)
deriving DecidableEq, Repr

/-- What a device does inside one `pre_check`: its answer, and the operations it makes before, of which
R302 and R303 item 5 allow none. -/
structure PreCheckRun where
  calls : List DevCall
  answer : PreCheck
deriving DecidableEq, Repr, Inhabited

/-- What a device does inside one `start_command`: the operations it makes, in order, and the 16-bit
status it then answers (R303 item 1, R304). -/
structure StartRun where
  calls : List DevCall
  answer : Half
deriving DecidableEq, Repr, Inhabited

/-- What a device does inside one `halt` or `stop` callback: the operations it makes, in order, and
the XIO outcome it then answers (R306, R307). -/
structure CallbackRun where
  calls : List DevCall
  answer : XioOutcome
deriving DecidableEq, Repr, Inhabited

/-- One act of a device's own descriptor-list walker: it "may read and write ctx(u) and guest memory
and may call the operations of rule R301 for u" (R305). -/
inductive OverrideAct where
  | setContext (c : Context)
  | store (a : Addr) (b : Byte)
  | call (d : DevCall)
deriving DecidableEq, Repr

/-- What a device does inside one `iocl_override`: its acts, in order, and the engine outcome it then
answers (R305). -/
structure OverrideRun where
  acts : List OverrideAct
  answer : EngineOutcome
deriving DecidableEq, Repr, Inhabited

/-- A port operation (spec/10_state.md R44), or a store of the CPU to guest memory between two of them
(spec/45_device_contract.md R313). A device's operation is a completion: the calls it makes, in order,
each with the unit it is for (R301, R310); one call is a completion of that call alone. -/
inductive PortOp where
  | xio (req : Word) (listAddr : Addr)
  | scan (blocked : Bool)
  | raise (level : Nat)
  | device (calls : List (UnitId × DevCall))
  | cpuStore (a : Addr) (b : Byte)
deriving DecidableEq, Repr

/-- What leaves the block on its ports: the answer of a port operation, a callback into a device with
its arguments, and a `Cancel` (R98, R100, R101, R300, R308). -/
inductive Output where
  | xio (outcome : XioOutcome) (cc : BitVec 4)
  | scan (answer : ScanAnswer)
  | readAnswer (u : UnitId) (answer : ReadAnswer)
  | writeAnswer (u : UnitId) (answer : WriteAnswer)
  | pushAnswer (ch : Nat) (answer : PushAnswer)
  | preCheck (u : UnitId)
  | startCommand (u : UnitId) (code : Byte)
  | haltCallback (u : UnitId)
  | stopCallback (u : UnitId)
  | resetChannelCallback (u : UnitId)
  | resetControllerCallback (u : UnitId)
  | ioclOverride (u : UnitId) (context : Context)
  | cancel (u : UnitId)
  | engineOutcome (u : UnitId) (outcome : EngineOutcome)
deriving DecidableEq, Repr

end Sys2Proof.Machine
end

