-- ==== Sys2Proof/Config.lean ====
section
/-! DEFINITION. The configuration of the block, "fixed once at system configuration time"
(spec/00_scope.md R9, spec/10_state.md R42), and the free inputs of the environment
(spec/93_implementation_defined.md I1 to I5). The configuration is a value that State carries and no
step changes, so that a statement about every state holds for every configuration. -/

namespace Sys2Proof

open Sys2Proof.Machine

/-- The configuration of one unit (spec/10_state.md R42). -/
structure UnitCfg where
  present : Bool
  enabled : Bool
  hasPsq : Bool
  controller : Nat
  hasHalt : Bool
  hasStop : Bool
  hasResetChannel : Bool
  hasResetController : Bool
  hasOverride : Bool
deriving DecidableEq, Repr

/-- The configuration of a unit that the system does not have. -/
def UnitCfg.absent : UnitCfg :=
  { present := false, enabled := false, hasPsq := false, controller := 0, hasHalt := false,
    hasStop := false, hasResetChannel := false, hasResetController := false, hasOverride := false }

/-- The owner of an interrupt level: a multiplexed channel source or a simple source (R42). -/
inductive LevelOwner where
  | chan (ch : Nat)
  | simple
deriving DecidableEq, Repr

/-- The configuration of one interrupt level (R42). -/
structure LevelCfg where
  configured : Bool
  owner : LevelOwner
  icb : Addr
deriving DecidableEq, Repr

/-- The configuration of a level that the system does not use. -/
def LevelCfg.unused : LevelCfg := { configured := false, owner := .simple, icb := 0 }

/-- The parameters of spec/00_scope.md R9. A unit, level or logical channel that a table does not list
is absent, not configured, or has no route. -/
structure Config where
  memSize : Nat
  fifoCap : Nat
  psqCap : Nat
  numChan : Nat
  numLchan : Nat
  numLevels : Nat
  route : List (Nat × Nat)
  units : List (UnitId × UnitCfg)
  levels : List (Nat × LevelCfg)
deriving DecidableEq, Repr

/-- The configuration CFG of spec/95_test_vectors.md section 0.1. DESIGN CHOICE (entry 1): the spec
leaves every parameter open; State.reset carries this one. -/
def Config.testVectors : Config :=
  let plain : UnitCfg := { UnitCfg.absent with present := true, enabled := true }
  { memSize := 0x10000, fifoCap := 4, psqCap := 2, numChan := 2, numLchan := 128, numLevels := 16,
    route := [(0, 0), (1, 1)],
    units := [(⟨0, 0x01⟩, plain), (⟨0, 0x02⟩, { plain with hasPsq := true }),
      (⟨0, 0x10⟩, { plain with controller := 1 }), (⟨1, 0x01⟩, plain)],
    levels := [(3, { configured := true, owner := .chan 1, icb := 0x000F40 }),
      (5, { configured := true, owner := .chan 0, icb := 0x000F00 }),
      (7, { configured := true, owner := .simple, icb := 0x000F80 })] }

/-- The `n`-th run of a device's `pre_check` that State lists none for: a free value (I1, I7). -/
opaque Config.freePreCheck : Nat → PreCheckRun

/-- The `n`-th run of a device's `start_command` that State lists none for: a free value (I2, I5). -/
opaque Config.freeStart : Nat → StartRun

/-- The `n`-th run of a device's `halt` callback that State lists none for: a free value (I3). -/
opaque Config.freeHalt : Nat → CallbackRun

/-- The `n`-th run of a device's `stop` callback that State lists none for: a free value (I3). -/
opaque Config.freeStop : Nat → CallbackRun

/-- The `n`-th run of a device's `iocl_override` that State lists none for: a free value (I4). -/
opaque Config.freeOverride : Nat → OverrideRun

end Sys2Proof
end

