-- ==== Sys2Proof/WellFormed.lean ====
section
/-! DEFINITION. The well-formedness checks: of an instruction term (spec/30_encoding.md R82, R162) and
of a configuration (spec/00_scope.md R9, R11). -/

namespace Sys2Proof

open Sys2Proof.Machine

/-- An instruction term is well formed iff some encoding has it as its meaning. The one term shape that
can go wrong is an unassigned command code with high digit 0: code 0x00 is INCH (R82, R162). -/
def Instr.wellFormed : Instr → Bool
  | .invalid hi _ _ => hi != 0
  | .inch .. | .write .. | .read .. | .control .. | .sense .. | .tic .. | .rdbwd .. => true
  | .sio .. | .tio .. | .stpio .. | .rschnl .. | .hio .. | .grio .. | .rsctl .. => true
  | .eci .. | .dci .. | .aci .. | .daci .. => true
  | .unassigned0 .. | .unassigned1 .. | .unassigned9 .. | .unassignedA .. | .unassignedB .. => true

/-- The parameters are in the ranges of R9. -/
def Config.sizesOk (c : Config) : Bool :=
  decide (8 ≤ c.memSize) && decide (c.memSize ≤ 2 ^ 24) && decide (1 ≤ c.fifoCap)
    && decide (1 ≤ c.psqCap) && decide (1 ≤ c.numChan) && decide (c.numChan ≤ 128)
    && decide (1 ≤ c.numLchan) && decide (c.numLchan ≤ 128)
    && decide (1 ≤ c.numLevels) && decide (c.numLevels ≤ 128)

/-- Each logical channel has at most one route, and it leads to a real channel. -/
def Config.routesOk (c : Config) : Bool :=
  decide (c.route.map Prod.fst).Nodup
    && c.route.all fun r => decide (r.1 < c.numLchan) && decide (r.2 < c.numChan)

/-- Each unit is listed at most once, on a real channel. -/
def Config.unitsOk (c : Config) : Bool :=
  decide (c.units.map fun e => e.1.key).Nodup && c.units.all fun e => decide (e.1.ch < c.numChan)

/-- The listed levels that real channel `ch` owns. -/
def Config.levelsOwnedBy (c : Config) (ch : Nat) : List (Nat × LevelCfg) :=
  c.levels.filter fun e => decide (e.2.owner = .chan ch)

/-- The owner of a level is a simple source or a real channel of the block (R42). -/
def LevelOwner.inRange (numChan : Nat) : LevelOwner → Bool
  | .chan ch => decide (ch < numChan)
  | .simple => true

/-- Each level is listed at most once, its owner exists, and each channel "owns exactly one level"
(R11). -/
def Config.levelsOk (c : Config) : Bool :=
  decide (c.levels.map Prod.fst).Nodup &&
    (c.levels.all fun e => decide (e.1 < c.numLevels) && e.2.owner.inRange c.numChan)
    && (List.range c.numChan).all fun ch => decide ((c.levelsOwnedBy ch).length = 1)

/-- The configuration obeys R9 and R11. -/
def Config.wf (c : Config) : Bool := c.sizesOk && c.routesOk && c.unitsOk && c.levelsOk

end Sys2Proof
end

