-- ==== Sys2Proof/Decode.lean ====
section
/-! DEFINITION. The decoder of descriptors and XIO requests and their encoder
(spec/30_encoding.md R80 to R97, R103), and the encoding of an XIO outcome (R98). The two kinds of
instruction come in on different ports, so the same bits can be both; `Encoded` says which port. -/

namespace Sys2Proof

open Sys2Proof.Machine

/-- The bits of one instruction with the port they come in on: a descriptor's two words, or a request
word with the 24-bit start address beside it (R80, R95). -/
inductive Encoded where
  | descriptor (w1 w2 : Word)
  | request (req : Word) (listAddr : Addr)
deriving DecidableEq, Repr

/-- Why the decoder reads no instruction. -/
inductive Reject where
  /-- `req[31:20] != 0` or `req[15] = 1`: answered Unsupported (R97, R259) -/
  | reservedRequestBits
deriving DecidableEq, Repr

/-- The class table of R82, "checked top to bottom". -/
def classOf (c : Byte) : CommandClass :=
  if c = 0x00 then .inch
  else if c.extractLsb' 0 4 = 0x0 then .invalid
  else if c.extractLsb' 0 2 = 0b01 then .write
  else if c.extractLsb' 0 2 = 0b10 then .read
  else if c.extractLsb' 0 2 = 0b11 then .control
  else if c.extractLsb' 0 4 = 0x4 then .sense
  else if c.extractLsb' 0 4 = 0x8 then .tic
  else .rdbwd

/-- `transfer(c)`: the class is WRITE, READ, SENSE or RDBWD (R82). -/
def isTransfer (c : Byte) : Bool :=
  match classOf c with
  | .write | .read | .sense | .rdbwd => true
  | .inch | .invalid | .control | .tic => false

/-- The fields of word 2 (R80, R81, R83). -/
def decodeCommandWord (w2 : Word) : CommandWord :=
  { flags := { dc := w2.getLsbD 31, cc := w2.getLsbD 30, sli := w2.getLsbD 29,
               skip := w2.getLsbD 28, pci := w2.getLsbD 27 },
    reserved := w2.extractLsb' 16 11,
    count := w2.extractLsb' 0 16 }

/-- The command code of a descriptor's word 1 (R81). -/
def codeOf (w1 : Word) : Byte := w1.extractLsb' 24 8

/-- The address field of a descriptor's word 1 (R81). -/
def addrOf (w1 : Word) : Addr := w1.extractLsb' 0 24

/-- A descriptor (R80 to R86). Every pair of words is one: an unassigned code is class INVALID. -/
def decodeDescriptor (w1 w2 : Word) : Instr :=
  let code := codeOf w1
  match classOf code with
  | .inch => .inch (addrOf w1) (decodeCommandWord w2)
  | .invalid => .invalid (code.extractLsb' 4 4) (addrOf w1) (decodeCommandWord w2)
  | .write => .write (code.extractLsb' 2 6) (addrOf w1) (decodeCommandWord w2)
  | .read => .read (code.extractLsb' 2 6) (addrOf w1) (decodeCommandWord w2)
  | .control => .control (code.extractLsb' 2 6) (addrOf w1) (decodeCommandWord w2)
  | .sense => .sense (code.extractLsb' 4 4) (addrOf w1) (decodeCommandWord w2)
  | .tic => .tic (code.extractLsb' 4 4) (addrOf w1) w2
  | .rdbwd => .rdbwd (code.extractLsb' 4 4) (addrOf w1) (decodeCommandWord w2)

/-- The reserved bits of a request word are zero (R95, R97). -/
def requestReservedOk (req : Word) : Bool := req.extractLsb' 20 12 == 0 && !req.getLsbD 15

/-- An XIO request (R95, R96). -/
def decodeRequest (req : Word) (listAddr : Addr) : Except Reject Instr :=
  let lchan : BitVec 7 := req.extractLsb' 8 7
  let sa : Byte := req.extractLsb' 0 8
  if requestReservedOk req then
    .ok (match (req.extractLsb' 16 4).toNat with
      | 0x0 => .unassigned0 lchan sa
      | 0x1 => .unassigned1 lchan sa
      | 0x2 => .sio lchan sa listAddr
      | 0x3 => .tio lchan sa
      | 0x4 => .stpio lchan sa
      | 0x5 => .rschnl lchan sa
      | 0x6 => .hio lchan sa
      | 0x7 => .grio lchan sa
      | 0x8 => .rsctl lchan sa
      | 0x9 => .unassigned9 lchan sa
      | 0xA => .unassignedA lchan sa
      | 0xB => .unassignedB lchan sa
      | 0xC => .eci lchan sa
      | 0xD => .dci lchan sa
      | 0xE => .aci lchan sa
      | _ => .daci lchan sa)
  else .error .reservedRequestBits

/-- The decoder: total, rejecting by name. -/
def decode : Encoded → Except Reject Instr
  | .descriptor w1 w2 => .ok (decodeDescriptor w1 w2)
  | .request req listAddr => decodeRequest req listAddr

/-- Word 2 of a descriptor from its fields (R83, R103). -/
def encodeCommandWord (c : CommandWord) : Word :=
  (BitVec.ofBool c.flags.dc ++ BitVec.ofBool c.flags.cc ++ BitVec.ofBool c.flags.sli
    ++ BitVec.ofBool c.flags.skip ++ BitVec.ofBool c.flags.pci ++ c.reserved ++ c.count :
      BitVec (1 + 1 + 1 + 1 + 1 + 11 + 16))

/-- A descriptor from its command code, its address and its word 2 (R103). -/
def encodeDescriptor (code : Byte) (addr : Addr) (w2 : Word) : Encoded :=
  .descriptor (code ++ addr : BitVec (8 + 24)) w2

/-- A request word from its function code, bits 14 to 8 and bits 7 to 0 (R95). -/
def encodeRequest (fn : BitVec 4) (lchan : BitVec 7) (sa : Byte) (listAddr : Addr) : Encoded :=
  .request ((0#12 ++ fn ++ 0#1 ++ lchan ++ sa : BitVec (12 + 4 + 1 + 7 + 8))) listAddr

/-- The encoder, written from R82, R83, R95 and R96. A request other than Start carries a start address
of zero, which R97 says is ignored. -/
def encode : Instr → Encoded
  | .inch addr w2 => encodeDescriptor 0x00 addr (encodeCommandWord w2)
  | .invalid hi addr w2 => encodeDescriptor (hi ++ 0x0#4) addr (encodeCommandWord w2)
  | .write m addr w2 => encodeDescriptor (m ++ 0b01#2) addr (encodeCommandWord w2)
  | .read m addr w2 => encodeDescriptor (m ++ 0b10#2) addr (encodeCommandWord w2)
  | .control m addr w2 => encodeDescriptor (m ++ 0b11#2) addr (encodeCommandWord w2)
  | .sense m addr w2 => encodeDescriptor (m ++ 0x4#4) addr (encodeCommandWord w2)
  | .tic hi addr w2 => encodeDescriptor (hi ++ 0x8#4) addr w2
  | .rdbwd m addr w2 => encodeDescriptor (m ++ 0xC#4) addr (encodeCommandWord w2)
  | .unassigned0 lchan sa => encodeRequest 0x0 lchan sa 0
  | .unassigned1 lchan sa => encodeRequest 0x1 lchan sa 0
  | .sio lchan sa listAddr => encodeRequest 0x2 lchan sa listAddr
  | .tio lchan sa => encodeRequest 0x3 lchan sa 0
  | .stpio lchan sa => encodeRequest 0x4 lchan sa 0
  | .rschnl lchan sa => encodeRequest 0x5 lchan sa 0
  | .hio lchan sa => encodeRequest 0x6 lchan sa 0
  | .grio lchan sa => encodeRequest 0x7 lchan sa 0
  | .rsctl lchan sa => encodeRequest 0x8 lchan sa 0
  | .unassigned9 lchan sa => encodeRequest 0x9 lchan sa 0
  | .unassignedA lchan sa => encodeRequest 0xA lchan sa 0
  | .unassignedB lchan sa => encodeRequest 0xB lchan sa 0
  | .eci lev ign => encodeRequest 0xC lev ign 0
  | .dci lev ign => encodeRequest 0xD lev ign 0
  | .aci lev ign => encodeRequest 0xE lev ign 0
  | .daci lev ign => encodeRequest 0xF lev ign 0

/-- The 4-bit condition code of an outcome, CC1 most significant (R98). -/
def outcomeCode : XioOutcome → BitVec 4
  | .acceptedNoStatus => 0x0
  | .acceptedQueued => 0x8
  | .statusStored => 0x4
  | .busy => 0x1
  | .busySubchannel => 0x3
  | .unsupported => 0x5
  | .deviceAbsent => 0x2

/-- Which port the opcode table's word `w` is read from. The table lists descriptors and requests
together and gives both kinds 32 bits, so a word such as 0x00020001 fits a row of each. DESIGN CHOICE
(entry 2): a word that fits a request row is a request, the all-zero word (which fits INCH, INVALID and
UNASSIGNED_0) is the descriptor INCH, and every other word is a descriptor. -/
def tableWord (nbits w : Nat) : Encoded :=
  let w1 := BitVec.ofNat 32 w
  if requestReservedOk w1 && w1 != 0 && decide (nbits ≤ 32) then
    .request w1 (BitVec.ofNat 24 (w / 2 ^ 32))
  else .descriptor w1 (BitVec.ofNat 32 (w / 2 ^ 32))

/-- The instruction the decoder reads from an opcode-table word. -/
def decodeTableWord (nbits w : Nat) : Option Instr :=
  match decode (tableWord nbits w) with
  | .ok i => some i
  | .error _ => none

end Sys2Proof
end

