-- ==== Sys2Proof/Machine/State.lean ====
section
/-! DEFINITION. The state of the block (spec/10_state.md), plain data. Per-unit, per-channel and
per-level state is kept in tables: lists of (key, value) with keys strictly rising and no entry equal
to the power-on value, which is what an unlisted key reads as. -/

namespace Sys2Proof.Machine

/-- The state of one real channel (spec/10_state.md R30). -/
structure Channel where
  fifo : List Record
  inchValid : Bool
  inchBase : Addr
  inchCur : Addr
  inchHwm : Addr
  overflow : Nat
deriving DecidableEq, Repr

/-- A channel at power-on (R30, R350). -/
def Channel.powerOn : Channel :=
  { fifo := [], inchValid := false, inchBase := 0, inchCur := 0, inchHwm := 0, overflow := 0 }

/-- The state of one interrupt level (spec/10_state.md R36). -/
structure Level where
  enabled : Bool
  requested : Bool
  active : Bool
  extPending : Bool
deriving DecidableEq, Repr

/-- A level at power-on (R36, R350). -/
def Level.powerOn : Level :=
  { enabled := false, requested := false, active := false, extPending := false }

/-- One procedure of the block that has been entered and has not returned (spec/10_state.md R44, R29:
a port operation runs to completion with every nested call). The list of them, innermost first, is
empty exactly at a suspension point. -/
inductive Activation where
  /-- the generic loop of `ExecList(u, ticOk, Cmd)`, about to fetch a descriptor (R120, R137) -/
  | engine (u : UnitId) (ticOk : Bool)
  /-- a device's own walker, with the acts still to come and its answer (R305) -/
  | override (u : UnitId) (acts : List OverrideAct) (answer : EngineOutcome)
  /-- a device's completion, a port operation of its own, with the calls still to come (R310) -/
  | completion (calls : List (UnitId × DevCall))
  /-- a device's halt or stop callback, with the calls still to come and its answer (R306, R307) -/
  | callback (u : UnitId) (calls : List DevCall) (answer : XioOutcome)
  /-- Halt, waiting for the program its channel end began, before it posts (R264) -/
  | haltPost (ch : Nat)
  /-- an XIO operation, waiting for the engine, before it answers (R262) -/
  | xioReturn (outcome : XioOutcome)
deriving DecidableEq, Repr

/-- The environment's inputs that are already determined: the port operations to come and the answers
the devices will give, in order. MODEL'S OWN (entry 3): where a list of answers is empty the answer is
the free value of Config numbered `draws`. -/
structure Inputs where
  inbox : List PortOp
  preChecks : List PreCheckRun
  starts : List StartRun
  halts : List CallbackRun
  stops : List CallbackRun
  overrides : List OverrideRun
  draws : Nat
deriving DecidableEq, Repr

/-- No input determined yet. -/
def Inputs.none : Inputs :=
  { inbox := [], preChecks := [], starts := [], halts := [], stops := [], overrides := [], draws := 0 }

/-- The whole machine. `cfg`, `stack`, `inputs` and `outputs` are the model's own fields: the fixed
configuration (R42), the procedures not yet returned, the environment's inputs, and what has left the
block on its ports, newest first. -/
structure State where
  cfg : Config
  /-- guest memory (spec/20_memory.md R60) -/
  mem : List Host.Cell
  /-- Channel Program Contexts by unit (spec/10_state.md R20) -/
  ctxs : List (Nat × Context)
  /-- Pending-Start Queues by unit (R35) -/
  psqs : List (Nat × List Addr)
  /-- real channels (R30) -/
  chans : List (Nat × Channel)
  /-- the Interrupt Level Table (R36) -/
  levels : List (Nat × Level)
  stack : List Activation
  inputs : Inputs
  outputs : List Output
deriving DecidableEq, Repr

/-- Why the machine stops. All but `noEngine` are faults of the environment, which the spec says are
"not behaviour of the block". -/
inductive Fault where
  /-- a `signal_channel_end` finds the context in AwaitingNext, Done or Posted. Raised by
  `channelEndCore` (R170, R311). Safe: "a model stops with a fault". -/
  | deviceContract
  /-- a `signal_channel_end` inside `start_command`. Raised by `startCalls` (R303 item 1, R311). Safe. -/
  | signalInsideStart
  /-- a call inside `pre_check`, which "calls no operation of rule R301" (R302, R303 item 5); R311 names
  the signal. Raised by `withPreCheck`. Safe. -/
  | callInsidePreCheck
  /-- an `iocl_override` returns with its context outside Busy, ChannelEndPending and Empty. Raised by
  `overrideStep` (R305, R311). Safe. -/
  | overrideIllegalState
  /-- a device calls for a unit that is not reachable: "Context, queue and device calls exist only for
  reachable units" (R43). Raised by `completionStep`. Safe: the block gives such a call no meaning. -/
  | unreachableUnit
  /-- a device pushes a record to a channel that does not exist (R9 `NUM_CHAN`, R301). Raised by
  `deviceCall`. Safe. -/
  | noSuchChannel
  /-- a descriptor's meaning is asked for while no engine is running. Raised by `beginCommand` and
  `transferInList`. Safe: `step` never asks (entry 5). -/
  | noEngine
deriving DecidableEq, Repr

/-- Why the model gives no meaning. -/
inductive Refusal where
  /-- the instruction has no meaning yet. Raised by `exec`. Safe. -/
  | notModelled (mnemonic : String)
  /-- the configuration breaks R9 or R11: it "is refused by the model's well-formedness check". Raised
  by `step`. Safe. -/
  | illFormedConfiguration
deriving DecidableEq, Repr

/-- The machine at power-on, after configuration (spec/70_reset_and_hazards.md R350): every table at
its power-on values, nothing running, no input determined, nothing answered. -/
def State.reset : State :=
  { cfg := Config.testVectors, mem := [], ctxs := [], psqs := [], chans := [], levels := [],
    stack := [], inputs := Inputs.none, outputs := [] }

end Sys2Proof.Machine
end

