-- ==== Sys2Proof/Machine/Flags.lean ====
section
/-! DEFINITION. The sixteen status bits and the two masks over them (spec/30_encoding.md R90, R91). -/

namespace Sys2Proof.Machine

/-- halt/stop echo; device only -/
def stEcho : Half := 0x8000
/-- program-controlled interrupt -/
def stPci : Half := 0x4000
/-- incorrect length -/
def stLength : Half := 0x2000
/-- channel program check -/
def stPchk : Half := 0x1000
/-- channel data check; device only -/
def stCdata : Half := 0x0800
/-- channel control check; device only -/
def stCcntl : Half := 0x0400
/-- interface check; device only -/
def stInter : Half := 0x0200
/-- chaining check; device only -/
def stChain : Half := 0x0100
/-- device busy; device only -/
def stBusy : Half := 0x0080
/-- status modifier; device only -/
def stSmod : Half := 0x0040
/-- control unit end; device only -/
def stCue : Half := 0x0020
/-- attention; device only -/
def stAttn : Half := 0x0010
/-- channel end -/
def stCe : Half := 0x0008
/-- device end -/
def stDe : Half := 0x0004
/-- unit check; device only -/
def stCheck : Half := 0x0002
/-- unit exception -/
def stExpt : Half := 0x0001

/-- Channel end and device end together. -/
def stEnds : Half := stCe ||| stDe

/-- The bits of a `start_command` answer that are an "immediate ending condition" (R91). -/
def immEnd : Half :=
  stAttn ||| stCheck ||| stExpt ||| stPchk ||| stCdata ||| stCcntl ||| stInter ||| stChain

/-- The bits that suppress command chaining (R91). -/
def chainAbort : Half := immEnd ||| stLength

/-- Some bit of `mask` is set in `status`. -/
def anyBit (status mask : Half) : Bool := status &&& mask != 0

/-- Every bit of `mask` is set in `status`. -/
def allBits (status mask : Half) : Bool := status &&& mask == mask

/-- The context with the bits of `st` merged into its status (R27). -/
def mergeStatus (st : Half) (c : Context) : Context := { c with status := c.status ||| st }

/-- The context with chaining stopped: CC and DC clear (R140, R141, R264, R265). -/
def stopChaining (c : Context) : Context :=
  { c with flags := { c.flags with cc := false, dc := false } }

end Sys2Proof.Machine
end

