-- ==== Sys2Proof/Machine/Operands.lean ====
section
/-! DEFINITION. The operands of the two kinds of instruction: a descriptor's command code, address and
word 2, what the engine checks of them and how it loads them (spec/40_engine.md R124 to R130); and the
names an XIO request's operands resolve to (spec/44_xio.md R260). -/

namespace Sys2Proof.Machine

/-- The unit's configuration; a unit the configuration does not list is absent (R42, R43). -/
def unitCfg (cfg : Config) (u : UnitId) : UnitCfg :=
  match cfg.units.find? fun e => e.1 == u with
  | some e => e.2
  | none => UnitCfg.absent

/-- "A unit is reachable iff present = 1 and enabled = 1" (R43). -/
def reachable (cfg : Config) (u : UnitId) : Bool :=
  (unitCfg cfg u).present && (unitCfg cfg u).enabled

/-- The level's configuration; a level the configuration does not list is not configured (R42). -/
def levelCfg (cfg : Config) (l : Nat) : LevelCfg :=
  match cfg.levels.find? fun e => e.1 == l with
  | some e => e.2
  | none => LevelCfg.unused

/-- The level is in range and configured (spec/44_xio.md section 3, spec/43_arbitration.md R230). -/
def levelUsable (cfg : Config) (l : Nat) : Bool := decide (l < cfg.numLevels) && (levelCfg cfg l).configured

/-- `chan_level(ch)`: the level that channel `ch` owns (spec/00_scope.md R9, R11). -/
def chanLevel (cfg : Config) (ch : Nat) : Option Nat :=
  (cfg.levels.find? fun e => e.2.owner == .chan ch).map Prod.fst

/-- Level `l` is the level that channel `ch` owns, and it is configured (R230, R231). -/
def channelOwns (cfg : Config) (ch l : Nat) : Bool :=
  chanLevel cfg ch == some l && (levelCfg cfg l).configured

/-- `route(lchan)` (R9, R260). -/
def routeOf (cfg : Config) (lchan : BitVec 7) : Option Nat :=
  if lchan.toNat < cfg.numLchan then
    (cfg.route.find? fun r => r.1 == lchan.toNat).map Prod.snd
  else none

/-- The unit a request names, where it is reachable; none is answered DeviceAbsent (R260). -/
def routedUnit (cfg : Config) (lchan : BitVec 7) (sa : Byte) : Option UnitId :=
  match routeOf cfg lchan with
  | some ch => if reachable cfg ⟨ch, sa⟩ then some ⟨ch, sa⟩ else none
  | none => none

/-- The reachable units of channel `ch`, in the order the configuration lists them (R268). -/
def unitsOfChannel (cfg : Config) (ch : Nat) : List UnitId :=
  (cfg.units.map Prod.fst).filter fun u => u.ch == ch && reachable cfg u

/-- The reachable units of channel `ch` whose controller is `k` (R269, D47). -/
def unitsOfController (cfg : Config) (ch k : Nat) : List UnitId :=
  (unitsOfChannel cfg ch).filter fun u => (unitCfg cfg u).controller == k

/-- `MemOk(a, n)`, computed without wrap (spec/20_memory.md R61). -/
def memOk (cfg : Config) (a n : Nat) : Bool := decide (a + n ≤ cfg.memSize)

/-- `a[1:0] = 0` (spec/20_memory.md R64). -/
def wordAligned (a : Addr) : Bool := a.extractLsb' 0 2 == 0

/-- The bytes of the status buffer an INCH with byte count `n` names: `8 * floor(n / 8)` (R129). -/
def inchBytes (n : Half) : Nat := 8 * (n.toNat / 8)

/-- The INCH operand check of R129. -/
def inchOperandBad (cfg : Config) (addr : Addr) (count : Half) : Bool :=
  !wordAligned addr || decide (count.toNat < 8) || !memOk cfg addr.toNat (inchBytes count)

/-- A descriptor with effective command code `c` is a program check (R125 to R129, in the order of
R329; the order is not visible here, since each check records the same). -/
def descriptorBad (cfg : Config) (c : Byte) (addr : Addr) (w2 : CommandWord) : Bool :=
  w2.reserved != 0
    || classOf c == .invalid
    || (w2.flags.dc && !isTransfer c)
    || (isTransfer c && w2.count == 0)
    || (classOf c == .inch && inchOperandBad cfg addr w2.count)

/-- The context after an accepted descriptor is loaded (R130). -/
def loadedContext (c : Byte) (addr : Addr) (w2 : CommandWord) (old : Context) : Context :=
  { old with
    cmd := c, flags := w2.flags, dataAddr := addr, count := w2.count,
    status := if w2.flags.pci then old.status ||| stPci else old.status }

end Sys2Proof.Machine
end

