-- ==== Sys2Proof/Machine/Table.lean ====
section
/-! DEFINITION. The canonical tables that memory and every kind of keyed state are held in: keys
strictly rising, and no entry equal to what an unlisted key reads as. -/

namespace Sys2Proof.Machine

/-- The value at `k`, `dflt` where the table lists none. -/
def tableGet {α : Type} (dflt : α) (k : Nat) : List (Nat × α) → α
  | [] => dflt
  | (j, v) :: t => if k < j then dflt else if k = j then v else tableGet dflt k t

/-- The table with `v` at `k`. Writing the unlisted value removes the entry. -/
def tablePut {α : Type} [DecidableEq α] (dflt : α) (k : Nat) (v : α) :
    List (Nat × α) → List (Nat × α)
  | [] => if v = dflt then [] else [(k, v)]
  | (j, w) :: t =>
    if k < j then (if v = dflt then (j, w) :: t else (k, v) :: (j, w) :: t)
    else if k = j then (if v = dflt then t.dropWhile (fun e => decide (e.1 ≤ k)) else (k, v) :: t)
    else (j, w) :: tablePut dflt k v t

/-- The keys rise strictly from above `lo`, and no value is `dflt`. -/
def tableOkFrom {α : Type} [DecidableEq α] (dflt : α) (lo : Nat) : List (Nat × α) → Bool
  | [] => true
  | (k, v) :: t => decide (lo ≤ k) && decide (v ≠ dflt) && tableOkFrom dflt (k + 1) t

/-- The table is in canonical form. -/
def tableOk {α : Type} [DecidableEq α] (dflt : α) (t : List (Nat × α)) : Bool :=
  tableOkFrom dflt 0 t

end Sys2Proof.Machine
end

