-- ==== Sys2Proof/Machine/Memory.lean ====
section
/-! DEFINITION. Guest memory and the accessors of every other part of the state
(spec/20_memory.md R60 to R71, spec/10_state.md R13 notation `ctx(u).f`, `chan(ch).f`, `lvl(l).f`). -/

namespace Sys2Proof.Machine

/-- Memory is in canonical form. What an unlisted address reads as is the byte 0 (DESIGN CHOICE,
entry 4: the spec leaves memory at power-on open). -/
def Memory.wf (m : List Host.Cell) : Bool := tableOk (0 : Byte) m

/-- One byte of guest memory. -/
def State.readByte (s : State) (a : Nat) : Byte := tableGet 0 a s.mem

/-- `MemWrite(a, 1, v)` (R63). -/
def State.writeByte (s : State) (a : Nat) (v : Byte) : State := { s with mem := tablePut 0 a v s.mem }

/-- A store of one byte by the CPU (R313) or by a device's own walker (R305). One that does not succeed
"reads nothing and writes nothing" (R61). R60 names only the block's own kinds of access; that R61 says so
of these stores too is DEDUCED (entry 24). -/
def State.storeByte (s : State) (a : Addr) (v : Byte) : State :=
  if memOk s.cfg a.toNat 1 then s.writeByte a.toNat v else s

/-- `MemRead(a, 4)`: the byte at the lowest address is bits 31:24 (R62). -/
def State.readWord (s : State) (a : Nat) : Word :=
  (s.readByte a ++ s.readByte (a + 1) ++ s.readByte (a + 2) ++ s.readByte (a + 3) :
    BitVec (8 + 8 + 8 + 8))

/-- `MemWrite(a, 4, v)` (R63). -/
def State.writeWord (s : State) (a : Nat) (v : Word) : State :=
  (((s.writeByte a (v.extractLsb' 24 8)).writeByte (a + 1) (v.extractLsb' 16 8)).writeByte (a + 2)
    (v.extractLsb' 8 8)).writeByte (a + 3) (v.extractLsb' 0 8)

/-- `ctx(u)`. -/
def State.ctx (s : State) (u : UnitId) : Context := tableGet Context.powerOn u.key s.ctxs

/-- `ctx(u) <- c`. -/
def State.setCtx (s : State) (u : UnitId) (c : Context) : State :=
  { s with ctxs := tablePut Context.powerOn u.key c s.ctxs }

/-- `psq(u)`. -/
def State.psq (s : State) (u : UnitId) : List Addr := tableGet [] u.key s.psqs

/-- `psq(u) <- q`. -/
def State.setPsq (s : State) (u : UnitId) (q : List Addr) : State :=
  { s with psqs := tablePut [] u.key q s.psqs }

/-- `chan(ch)`. -/
def State.chan (s : State) (ch : Nat) : Channel := tableGet Channel.powerOn ch s.chans

/-- `chan(ch) <- c`. -/
def State.setChan (s : State) (ch : Nat) (c : Channel) : State :=
  { s with chans := tablePut Channel.powerOn ch c s.chans }

/-- `lvl(l)`. -/
def State.lvl (s : State) (l : Nat) : Level := tableGet Level.powerOn l s.levels

/-- `lvl(l) <- v`. -/
def State.setLvl (s : State) (l : Nat) (v : Level) : State :=
  { s with levels := tablePut Level.powerOn l v s.levels }

/-- `o` leaves the block. -/
def State.emit (s : State) (o : Output) : State := { s with outputs := o :: s.outputs }

/-- A procedure of the block is entered. -/
def State.push (s : State) (a : Activation) : State := { s with stack := a :: s.stack }

/-- The procedures not yet returned. -/
def State.withStack (s : State) (st : List Activation) : State := { s with stack := st }

/-- The environment's inputs. -/
def State.withInputs (s : State) (i : Inputs) : State := { s with inputs := i }

/-- `chan(ch).fifo != []`, the predicate StatusQueued of spec/41_status_posting.md R184. -/
def State.statusQueued (s : State) (ch : Nat) : Bool := !(s.chan ch).fifo.isEmpty

end Sys2Proof.Machine
end

