-- ==== Sys2Proof/Machine/StatusFifo.lean ====
section
/-! DEFINITION. The Status FIFO of a channel, its posting into the INCH status buffer, and the
Pending-Start Queue of a unit (spec/41_status_posting.md R178 to R185,
spec/42_pending_start.md R210 to R212, spec/43_arbitration.md R231, R232). -/

namespace Sys2Proof.Machine

/-- The level that owns `ch` changes by `f`, where it is configured (R230). -/
def State.onChannelLevel (s : State) (ch : Nat) (f : Level → Level) : State :=
  match chanLevel s.cfg ch with
  | some l => if (levelCfg s.cfg l).configured then s.setLvl l (f (s.lvl l)) else s
  | none => s

/-- "FIFO became non-empty": the level is requested unless it is active (R231). -/
def requestUnlessActive (l : Level) : Level := if l.active then l else { l with requested := true }

/-- "FIFO became empty" (R232). -/
def withdrawRequest (l : Level) : Level := { l with requested := false }

/-- A push to a full Status FIFO: the record is dropped and counted (R179). -/
def State.dropRecord (s : State) (ch : Nat) : State :=
  s.setChan ch { s.chan ch with overflow := (s.chan ch).overflow + 1 }

/-- `StoreStatus(ch, rec)`: append at the tail (R178, R179). -/
def storeStatus (ch : Nat) (r : Record) (s : State) : PushAnswer × State :=
  if (s.chan ch).fifo.length < s.cfg.fifoCap then
    (.ok, (s.setChan ch { s.chan ch with fifo := (s.chan ch).fifo ++ [r] }).onChannelLevel ch
      requestUnlessActive)
  else (.full, s.dropRecord ch)

/-- `PushStatusFront(ch, rec)`: insert at the front (R182, R179). -/
def pushStatusFront (ch : Nat) (r : Record) (s : State) : PushAnswer × State :=
  if (s.chan ch).fifo.length < s.cfg.fifoCap then
    (.ok, (s.setChan ch { s.chan ch with fifo := r :: (s.chan ch).fifo }).onChannelLevel ch
      requestUnlessActive)
  else (.full, s.dropRecord ch)

/-- A post can be made at the slot `c.inchCur`: a range is loaded, the slot is word-aligned and inside
memory (R180, spec/20_memory.md R66). -/
def slotUsable (cfg : Config) (c : Channel) : Bool :=
  c.inchValid && wordAligned c.inchCur && memOk cfg c.inchCur.toNat 8

/-- The slot after `c.inchCur`, wrapping past the high-water mark (R180, R181). The comparison is made
without wrap (entry 8). -/
def nextSlot (c : Channel) : Addr :=
  if c.inchHwm.toNat < c.inchCur.toNat + 8 then c.inchBase else c.inchCur + 8

/-- Word 2 of a record with the masked status bits removed (R180). -/
def maskStatus (mask : Half) (w2 : Word) : Word := w2 &&& ~~~(mask ++ 0#16 : BitVec (16 + 16))

/-- `PostStatus(ch, mask)`; `none` is the answer false, which changes nothing (R180). -/
def postStatus (ch : Nat) (mask : Half) (s : State) : Option State :=
  let c := s.chan ch
  match c.fifo with
  | [] => none
  | r :: rest =>
    if slotUsable s.cfg c then
      let s1 := (s.writeWord c.inchCur.toNat r.w1).writeWord (c.inchCur.toNat + 4) (maskStatus mask r.w2)
      let s2 := s1.setChan ch { c with fifo := rest, inchCur := nextSlot c }
      some (if rest.isEmpty then s2.onChannelLevel ch withdrawRequest else s2)
    else none

/-- `Enqueue(u, a)`; `none` is the answer Full, which changes nothing (R211). -/
def enqueue (u : UnitId) (a : Addr) (s : State) : Option State :=
  if (s.psq u).length < s.cfg.psqCap then some (s.setPsq u (s.psq u ++ [a])) else none

/-- `Dequeue(u)`, where the unit has a queue and it is not empty (R176, R212). -/
def dequeue (u : UnitId) (s : State) : Option (Addr × State) :=
  if (unitCfg s.cfg u).hasPsq then
    match s.psq u with
    | a :: rest => some (a, s.setPsq u rest)
    | [] => none
  else none

end Sys2Proof.Machine
end

