-- ==== Sys2Proof/Machine/Ops.lean ====
section
/-! DEFINITION. The operations the meanings share: the devices' answers, the entry of the engine, the
channel-end procedure, the program check (the block's one way to report an error of a channel program)
and the interrupt entry and its return (spec/40_engine.md R120, R140 to R142,
spec/41_status_posting.md R170 to R177, spec/43_arbitration.md R230 to R247). -/

namespace Sys2Proof.Machine

/-! ## The answers of the environment -/

/-- The next run of a `pre_check` (spec/45_device_contract.md R302). -/
def takePreCheck (s : State) : PreCheckRun × State :=
  match s.inputs.preChecks with
  | r :: rest => (r, s.withInputs { s.inputs with preChecks := rest })
  | [] => (Config.freePreCheck s.inputs.draws,
      s.withInputs { s.inputs with draws := s.inputs.draws + 1 })

/-- The next run of a `start_command` (R303, R304). -/
def takeStart (s : State) : StartRun × State :=
  match s.inputs.starts with
  | r :: rest => (r, s.withInputs { s.inputs with starts := rest })
  | [] => (Config.freeStart s.inputs.draws,
      s.withInputs { s.inputs with draws := s.inputs.draws + 1 })

/-- The next run of a `halt` callback (R306). -/
def takeHalt (s : State) : CallbackRun × State :=
  match s.inputs.halts with
  | r :: rest => (r, s.withInputs { s.inputs with halts := rest })
  | [] => (Config.freeHalt s.inputs.draws,
      s.withInputs { s.inputs with draws := s.inputs.draws + 1 })

/-- The next run of a `stop` callback (R307). -/
def takeStop (s : State) : CallbackRun × State :=
  match s.inputs.stops with
  | r :: rest => (r, s.withInputs { s.inputs with stops := rest })
  | [] => (Config.freeStop s.inputs.draws,
      s.withInputs { s.inputs with draws := s.inputs.draws + 1 })

/-- The next run of an `iocl_override` (R305). -/
def takeOverride (s : State) : OverrideRun × State :=
  match s.inputs.overrides with
  | r :: rest => (r, s.withInputs { s.inputs with overrides := rest })
  | [] => (Config.freeOverride s.inputs.draws,
      s.withInputs { s.inputs with draws := s.inputs.draws + 1 })

/-! ## The engine's entry and the channel end -/

/-- `ctx(u).state <- t`. -/
def State.setTransfer (s : State) (u : UnitId) (t : TransferState) : State :=
  s.setCtx u { s.ctx u with state := t }

/-- `ExecList(u, allow, Cmd)` is entered: a device's own walker where it supplies one, else the generic
loop, which sets Busy (spec/40_engine.md R120, R137, C7). -/
def enterEngine (u : UnitId) (allow : Bool) (s : State) : State :=
  if (unitCfg s.cfg u).hasOverride then
    ((takeOverride s).2.emit (.ioclOverride u (s.ctx u))).push
      (.override u (takeOverride s).1.acts (takeOverride s).1.answer)
  else (s.setTransfer u .busy).push (.engine u allow)

/-- `Rec(u)`: the subaddress and the ending address, the status and the residual (spec/30_encoding.md
R87). -/
def recordOf (u : UnitId) (c : Context) : Record :=
  { w1 := (u.sa ++ c.listAddr : BitVec (8 + 24)), w2 := (c.status ++ c.count : BitVec (16 + 16)) }

/-- The length check of R172. -/
def lengthCheck (c : Context) : Context :=
  if isTransfer c.cmd && c.count != 0 && !c.flags.sli then
    { c with
      status := if anyBit c.status stPchk then c.status else c.status ||| stLength,
      flags := Flags.none }
  else c

/-- The context with which a unit begins a program at `a` (R176, spec/44_xio.md R262). -/
def freshContext (a : Addr) (t : TransferState) : Context :=
  { Context.powerOn with listAddr := a, state := t }

/-- The program is finished: its record is stored, and a queued start is loaded or the context becomes
Empty (R175, R176). `some false` says that `ExecList(u, false, Cmd)` follows. -/
def finishProgram (u : UnitId) (c : Context) (s : State) : State × Option Bool :=
  let s1 := s.setCtx u { c with state := .done }
  let s2 := (storeStatus u.ch (recordOf u c) s1).2
  let s3 := s2.setCtx u { c with state := .posted }
  match dequeue u s3 with
  | some (a, s4) => (s4.setCtx u (freshContext a .posted), some false)
  | none => (s3.setTransfer u .empty, none)

/-- Channel end from Busy or ChannelEndPending (R170, R172 to R176): `c` is the context with the
signalled bits and CE merged and its length checked. `some allow` says that `ExecList(u, allow, Cmd)`
follows. -/
def channelEndFrom (u : UnitId) (c : Context) (s : State) : State × Option Bool :=
  if !anyBit c.status stDe then (s.setCtx u { c with state := .channelEndPending }, none)
  else if c.flags.cc && !anyBit c.status chainAbort then
    (s.setCtx u { c with
      state := .awaitingNext, status := c.status &&& stPci, flags := { c.flags with dc := false } },
     some true)
  else finishProgram u c s

/-- `ChannelEnd(u, extra)` up to the entry of the engine that may end it (R177). -/
def channelEndCore (u : UnitId) (extra : Half) (s : State) : Except Fault (State × Option Bool) :=
  match (s.ctx u).state with
  | .empty => .ok (s, none)
  | .awaitingNext | .done | .posted => .error .deviceContract
  | .busy | .channelEndPending =>
    .ok (channelEndFrom u (lengthCheck (mergeStatus (extra ||| stCe) (s.ctx u))) s)

/-- The engine is entered where a channel end asks for it. -/
def resume (u : UnitId) : State × Option Bool → State
  | (s, some allow) => enterEngine u allow s
  | (s, none) => s

/-- `ChannelEnd(u, extra)` (R170 to R177). -/
def channelEnd (u : UnitId) (extra : Half) (s : State) : Except Fault State :=
  (channelEndCore u extra s).map (resume u)

/-! ## The program check -/

/-- `ForceEnd(u, bits)` (spec/40_engine.md R142). -/
def forceEnd (u : UnitId) (bits : Half) (s : State) : Except Fault State :=
  channelEnd u bits (s.setCtx u (stopChaining (s.ctx u)))

/-- `ProgramCheckCmd(u)`: the program ends with PCHK, CE and DE in its record, and the engine's outcome
is Error (R140). -/
def programCheckCmd (u : UnitId) (s : State) : Except Fault State :=
  forceEnd u stEnds ((s.setCtx u (mergeStatus stPchk (s.ctx u))).emit (.engineOutcome u .error))

/-- `ProgramCheckData(u)`, and a byte helper's memory failure: PCHK is set and chaining is stopped; the
device must end its command (R141, R150, R151). -/
def programCheckData (u : UnitId) (s : State) : State :=
  s.setCtx u (stopChaining (mergeStatus stPchk (s.ctx u)))

/-! ## The interrupt entry and its return -/

/-- Dispatch of level `l`: it becomes active, its request is cleared, and a channel level posts one
record, "result ignored" (R240, spec/60_exceptions.md R336). -/
def dispatchLevel (l : Nat) (s : State) : State :=
  let s1 := s.setLvl l { s.lvl l with active := true, requested := false }
  match (levelCfg s.cfg l).owner with
  | .simple => s1
  | .chan ch => (postStatus ch 0 s1).getD s1

/-- A level of the owner's has something waiting: its channel's FIFO is not empty (R236). -/
def ownerWaiting (s : State) (l : Nat) : Bool :=
  match (levelCfg s.cfg l).owner with
  | .chan ch => s.statusQueued ch
  | .simple => false

/-- `ReleaseLevel(l)`: the return from an interrupt (R236, spec/60_exceptions.md R337). -/
def releaseLevel (l : Nat) (s : State) : State :=
  s.setLvl l { s.lvl l with
    active := false, requested := (s.lvl l).extPending || ownerWaiting s l, extPending := false }

/-! ## Answers -/

/-- An XIO operation answers `o` (spec/30_encoding.md R98). -/
def State.answer (s : State) (o : XioOutcome) : State := s.emit (.xio o (outcomeCode o))

/-- The result of an operation as the outcome of a step. -/
def outcomeOf : Except Fault State → Host.Outcome State Fault Refusal
  | .ok s => .next s
  | .error f => .fault f

end Sys2Proof.Machine
end

