-- ==== Sys2Proof/Machine/Bytes.lean ====
section
/-! DEFINITION. Descriptor fetch and acceptance, the data-chain re-entry of the engine and the two byte
helpers (spec/40_engine.md R121 to R131, R137, R150 to R154). -/

namespace Sys2Proof.Machine

/-- Step 1, fetch: the two words at the list address, which advances by 8; `none` is a misaligned or
absent address, which changes nothing (R121). -/
def fetchDescriptor (u : UnitId) (s : State) : Option (Word × Word × State) :=
  let a := (s.ctx u).listAddr
  if wordAligned a && memOk s.cfg a.toNat 8 then
    some (s.readWord a.toNat, s.readWord (a.toNat + 4), s.setCtx u { s.ctx u with listAddr := a + 8 })
  else none

/-- Steps 2, 4 and 5 and the load (R124 to R130): whether the descriptor continues a transfer, its
effective command code and the state with it loaded; `none` is a program check. -/
def acceptDescriptor (u : UnitId) (code : Byte) (addr : Addr) (w2 : CommandWord) (s : State) :
    Option (Bool × Byte × State) :=
  let cont := (s.ctx u).flags.dc
  let c := if cont then (s.ctx u).cmd else code
  if descriptorBad s.cfg c addr w2 then none
  else some (cont, c, s.setCtx u (loadedContext c addr w2 (s.ctx u)))

/-- One pass of the loop in mode DataChain: `true` is Continued, `false` is Error. `afterTic` says what
a Transfer-In-List does: the next pass, or nothing where it is not allowed (R122, R123, R131, R141). -/
def chainPass (u : UnitId) (afterTic : Option (State → Bool × State)) (s : State) : Bool × State :=
  match fetchDescriptor u s with
  | none => (false, programCheckData u s)
  | some (w1, w2, s1) =>
    if classOf (codeOf w1) = .tic then
      match afterTic with
      | none => (false, programCheckData u s1)
      | some next => next (s1.setCtx u { s1.ctx u with listAddr := addrOf w1 })
    else
      match acceptDescriptor u (codeOf w1) (addrOf w1) (decodeCommandWord w2) s1 with
      | none => (false, programCheckData u s1)
      | some (_, _, s2) => (true, s2)

/-- `ExecList(u, true, DataChain)`: a TIC is allowed once (R138, R152). Its entry sets Busy (R120). -/
def execDataChain (u : UnitId) (s : State) : Bool × State :=
  chainPass u (some (chainPass u none)) (s.setTransfer u .busy)

/-- One byte from memory to the device, the count being non-zero (R150). -/
def moveByteOut (u : UnitId) (s : State) : ReadAnswer × State :=
  let c := s.ctx u
  if memOk s.cfg c.dataAddr.toNat 1 then
    (.byte (s.readByte c.dataAddr.toNat),
     s.setCtx u { c with dataAddr := c.dataAddr + 1, count := c.count - 1 })
  else (.error, programCheckData u s)

/-- `ReadNextByte(u)` (R150). A data-chained descriptor that is accepted has a non-zero count, or, of a
command that is no transfer, no further chaining (R127, R128), so the loop goes round at most twice. -/
def readNextByte (u : UnitId) (s : State) : ReadAnswer × State :=
  if (s.ctx u).state ≠ .busy then (.error, s)
  else if (s.ctx u).count ≠ 0 then moveByteOut u s
  else if !(s.ctx u).flags.dc then (.endOfData, s)
  else
    match execDataChain u s with
    | (false, s1) => (.error, s1)
    | (true, s1) => if (s1.ctx u).count ≠ 0 then moveByteOut u s1 else (.endOfData, s1)

/-- The data address after a stored byte: one lower for read backward, else one higher (R82, R151). -/
def nextDataAddr (cmd : Byte) (a : Addr) : Addr := if classOf cmd = .rdbwd then a - 1 else a + 1

/-- One byte from the device to memory, or discarded under SKIP, the count being non-zero (R151). -/
def moveByteIn (u : UnitId) (b : Byte) (s : State) : WriteAnswer × State :=
  let c := s.ctx u
  if c.flags.skip then (.ok, s.setCtx u { c with count := c.count - 1 })
  else if memOk s.cfg c.dataAddr.toNat 1 then
    (.ok, (s.writeByte c.dataAddr.toNat b).setCtx u
      { c with dataAddr := nextDataAddr c.cmd c.dataAddr, count := c.count - 1 })
  else (.error, programCheckData u s)

/-- `WriteNextByte(u, b)` (R151); the loop goes round at most twice, as for `readNextByte`. -/
def writeNextByte (u : UnitId) (b : Byte) (s : State) : WriteAnswer × State :=
  if (s.ctx u).state ≠ .busy then (.error, s)
  else if (s.ctx u).count ≠ 0 then moveByteIn u b s
  else if !(s.ctx u).flags.dc then (.endOfData, s)
  else
    match execDataChain u s with
    | (false, s1) => (.error, s1)
    | (true, s1) => if (s1.ctx u).count ≠ 0 then moveByteIn u b s1 else (.endOfData, s1)

end Sys2Proof.Machine
end

