-- ==== Sys2Proof/Machine/Engine.lean ====
section
/-! DEFINITION. The calls a device makes and the dispatch of a command to it
(spec/40_engine.md R131 to R137, spec/45_device_contract.md R301 to R307). -/

namespace Sys2Proof.Machine

/-- One operation a device makes for its unit `u` (R301). -/
def deviceCall (u : UnitId) (d : DevCall) (s : State) : Except Fault State :=
  match d with
  | .signal extra => channelEnd u extra s
  | .readByte => .ok ((readNextByte u s).2.emit (.readAnswer u (readNextByte u s).1))
  | .writeByte b => .ok ((writeNextByte u b s).2.emit (.writeAnswer u (writeNextByte u b s).1))
  | .pushFront ch r =>
    if ch < s.cfg.numChan then
      .ok ((pushStatusFront ch r s).2.emit (.pushAnswer ch (pushStatusFront ch r s).1))
    else .error .noSuchChannel

/-- The operations a device makes inside `start_command`; a `signal_channel_end` there is a contract
violation (R303 item 1, R311). -/
def startCalls (u : UnitId) : List DevCall → State → Except Fault State
  | [], s => .ok s
  | .signal _ :: _, _ => .error .signalInsideStart
  | d :: ds, s =>
    match deviceCall u d s with
    | .ok s1 => startCalls u ds s1
    | .error f => .error f

/-- The INCH range is loaded from the descriptor just accepted (R135). -/
def loadInchRange (u : UnitId) (s : State) : State :=
  let a := (s.ctx u).dataAddr
  let hwm := BitVec.ofNat 24 (a.toNat + inchBytes (s.ctx u).count - 8)
  s.setChan u.ch
    { s.chan u.ch with inchValid := true, inchBase := a, inchCur := a, inchHwm := hwm }

/-- What follows the device's answer `st`: an immediate ending, a synchronous completion, or a pending
command (R132 to R136). -/
def afterAnswer (u : UnitId) (st : Half) (s : State) : Except Fault State :=
  let s1 := s.setCtx u (mergeStatus st (s.ctx u))
  if anyBit st immEnd then forceEnd u stEnds (s1.emit (.engineOutcome u .error))
  else if allBits st stEnds then channelEnd u 0 (s1.emit (.engineOutcome u .done))
  else if anyBit st stCe then
    .ok ((s1.setTransfer u .channelEndPending).emit (.engineOutcome u .pending))
  else .ok (s1.emit (.engineOutcome u .pending))

/-- Dispatch of the command `c` that was just loaded (R132 to R136). -/
def dispatchCommand (u : UnitId) (c : Byte) (s : State) : Except Fault State :=
  let s1 := if classOf c = .inch then loadInchRange u s else s
  match startCalls u (takeStart s1).1.calls ((takeStart s1).2.emit (.startCommand u c)) with
  | .ok s2 => afterAnswer u (takeStart s1).1.answer s2
  | .error f => .error f

/-- A fetched descriptor other than a TIC, in mode Cmd (R124 to R136): the engine activation returns
with whatever follows. In mode Cmd the descriptor never continues a transfer (R124); where a state that
no run reaches says that it does, it is loaded and nothing is dispatched (R131). -/
def beginCommand (code : Byte) (addr : Addr) (w2 : CommandWord) (s : State) :
    Host.Outcome State Fault Refusal :=
  match s.stack with
  | .engine u _ :: rest =>
    match acceptDescriptor u code addr w2 (s.withStack rest) with
    | none => outcomeOf (programCheckCmd u (s.withStack rest))
    | some (true, _, s1) => .next s1
    | some (false, c, s1) => outcomeOf (dispatchCommand u c s1)
  | _ => .fault .noEngine

/-- A fetched TIC in mode Cmd: where it is allowed, the list address is replaced and the loop restarts
with no further TIC allowed; else a program check (R122, R123). -/
def transferInList (addr : Addr) (s : State) : Host.Outcome State Fault Refusal :=
  match s.stack with
  | .engine u true :: rest =>
    .next ((s.setCtx u { s.ctx u with listAddr := addr }).withStack (.engine u false :: rest))
  | .engine u false :: rest => outcomeOf (programCheckCmd u (s.withStack rest))
  | _ => .fault .noEngine

end Sys2Proof.Machine
end

