-- ==== Sys2Proof/Machine/Commands.lean ====
section
/-! DEFINITION. The meanings of the descriptors, in mode Cmd (spec/40_engine.md R155 to R162). Each is
the descriptor as the engine has just fetched it; the engine's own activation, on top of the stack,
names the unit. -/

namespace Sys2Proof.Machine

/-- INCH: the range is loaded at dispatch and the command goes to the device like any other (R155). -/
def execInch (addr : Addr) (w2 : CommandWord) (s : State) : Host.Outcome State Fault Refusal :=
  beginCommand 0x00 addr w2 s

/-- INVALID: a program check, with no device call (R162, R126). -/
def execInvalid (hi : BitVec 4) (addr : Addr) (w2 : CommandWord) (s : State) :
    Host.Outcome State Fault Refusal :=
  beginCommand (hi ++ 0x0#4 : BitVec (4 + 4)) addr w2 s

/-- WRITE: the device obtains bytes by `readNextByte` (R156). -/
def execWrite (modifier : BitVec 6) (addr : Addr) (w2 : CommandWord) (s : State) :
    Host.Outcome State Fault Refusal :=
  beginCommand (modifier ++ 0b01#2 : BitVec (6 + 2)) addr w2 s

/-- READ: the device delivers bytes by `writeNextByte` (R157). -/
def execRead (modifier : BitVec 6) (addr : Addr) (w2 : CommandWord) (s : State) :
    Host.Outcome State Fault Refusal :=
  beginCommand (modifier ++ 0b10#2 : BitVec (6 + 2)) addr w2 s

/-- CONTROL: the device may obtain argument bytes by `readNextByte` (R158). -/
def execControl (modifier : BitVec 6) (addr : Addr) (w2 : CommandWord) (s : State) :
    Host.Outcome State Fault Refusal :=
  beginCommand (modifier ++ 0b11#2 : BitVec (6 + 2)) addr w2 s

/-- SENSE: as READ (R159). -/
def execSense (modifier : BitVec 4) (addr : Addr) (w2 : CommandWord) (s : State) :
    Host.Outcome State Fault Refusal :=
  beginCommand (modifier ++ 0x4#4 : BitVec (4 + 4)) addr w2 s

/-- TIC: the list address is replaced, where it is allowed (R161). -/
def execTic (addr : Addr) (s : State) : Host.Outcome State Fault Refusal := transferInList addr s

/-- RDBWD: as READ, each stored byte lowering the data address (R160). -/
def execRdbwd (modifier : BitVec 4) (addr : Addr) (w2 : CommandWord) (s : State) :
    Host.Outcome State Fault Refusal :=
  beginCommand (modifier ++ 0xC#4 : BitVec (4 + 4)) addr w2 s

end Sys2Proof.Machine
end

