-- ==== Sys2Proof/Machine/Arbiter.lean ====
section
/-! DEFINITION. The Interrupt Level Table's operations and the scan
(spec/43_arbitration.md R230 to R248). -/

namespace Sys2Proof.Machine

/-- `EnableLevel(l)` (R233). -/
def enableLevel (l : Nat) (s : State) : State := s.setLvl l { s.lvl l with enabled := true }

/-- `DisableLevel(l)` (R233). -/
def disableLevel (l : Nat) (s : State) : State := s.setLvl l { s.lvl l with enabled := false }

/-- `ActivateLevel(l)` (R234). -/
def activateLevel (l : Nat) (s : State) : State :=
  s.setLvl l { s.lvl l with
    extPending := (s.lvl l).extPending || (s.lvl l).requested, requested := false, active := true }

/-- `RaiseLevel(l)` from a simple source; ignored for a level that is not configured or that a channel
owns (R230, R235). -/
def raiseLevel (l : Nat) (s : State) : State :=
  if levelUsable s.cfg l && (levelCfg s.cfg l).owner == .simple then
    s.setLvl l (if (s.lvl l).active then { s.lvl l with extPending := true }
      else { s.lvl l with requested := true })
  else s

/-- The scan dispatches level `l` when it comes to it (R240 steps 1 and 2). -/
def dispatchable (s : State) (l : Nat) : Bool :=
  (levelCfg s.cfg l).configured && !(s.lvl l).active && (s.lvl l).enabled && (s.lvl l).requested

/-- The level a scan dispatches: the first in priority order, level 0 highest (R240, R241). -/
def scanFinds (s : State) : Option Nat := (List.range s.cfg.numLevels).find? (dispatchable s)

/-- `Scan(blocked)` (R240). -/
def scanLevels (blocked : Bool) (s : State) : State :=
  if blocked then s.emit (.scan .none)
  else
    match scanFinds s with
    | some l => (dispatchLevel l s).emit (.scan (.dispatch l (levelCfg s.cfg l).icb))
    | none => s.emit (.scan .none)

end Sys2Proof.Machine
end

