-- ==== Sys2Proof/Machine/Levels.lean ====
section
/-! DEFINITION. The meanings of the level-control operations and of the unassigned function codes
(spec/44_xio.md R259, R270 to R273). -/

namespace Sys2Proof.Machine

/-- A level-control operation: it is not routed, and a level that is out of range or not configured is
answered Unsupported with no change (R260, section 3). -/
def onLevel (lev : BitVec 7) (s : State) (act : Nat → State → State) :
    Host.Outcome State Fault Refusal :=
  if levelUsable s.cfg lev.toNat then .next ((act lev.toNat s).answer .acceptedNoStatus)
  else .next (s.answer .unsupported)

/-- ECI, enable level (R270). -/
def execEci (lev : BitVec 7) (s : State) : Host.Outcome State Fault Refusal :=
  onLevel lev s enableLevel

/-- DCI, disable level (R271). -/
def execDci (lev : BitVec 7) (s : State) : Host.Outcome State Fault Refusal :=
  onLevel lev s disableLevel

/-- ACI, activate level (R272). -/
def execAci (lev : BitVec 7) (s : State) : Host.Outcome State Fault Refusal :=
  onLevel lev s activateLevel

/-- DACI, deactivate (release) level: the interrupt return of the block (R273). -/
def execDaci (lev : BitVec 7) (s : State) : Host.Outcome State Fault Refusal :=
  onLevel lev s releaseLevel

/-- A request that is answered Unsupported and changes nothing (R259). -/
def unsupportedRequest (s : State) : Host.Outcome State Fault Refusal := .next (s.answer .unsupported)

/-- Function code 0x0 (R259). -/
def execUnassigned0 (s : State) : Host.Outcome State Fault Refusal := unsupportedRequest s

/-- Function code 0x1 (R259). -/
def execUnassigned1 (s : State) : Host.Outcome State Fault Refusal := unsupportedRequest s

/-- Function code 0x9 (R259). -/
def execUnassigned9 (s : State) : Host.Outcome State Fault Refusal := unsupportedRequest s

/-- Function code 0xA (R259). -/
def execUnassignedA (s : State) : Host.Outcome State Fault Refusal := unsupportedRequest s

/-- Function code 0xB (R259). -/
def execUnassignedB (s : State) : Host.Outcome State Fault Refusal := unsupportedRequest s

end Sys2Proof.Machine
end

