-- ==== Sys2Proof/Machine/Xio.lean ====
section
/-! DEFINITION. The meanings of the seven XIO operations (spec/44_xio.md R260 to R269). -/

namespace Sys2Proof.Machine

/-- An operation on a unit: the request's `(lchan, sa)` is routed to a reachable unit, or the answer is
DeviceAbsent "with no side effects" (R260). -/
def onUnit (lchan : BitVec 7) (sa : Byte) (s : State)
    (act : UnitId → Host.Outcome State Fault Refusal) : Host.Outcome State Fault Refusal :=
  match routedUnit s.cfg lchan sa with
  | some u => act u
  | none => .next (s.answer .deviceAbsent)

/-- An operation on a channel: "the channel suffices and sa is ignored" (R260). -/
def onChannel (lchan : BitVec 7) (s : State) (act : Nat → State) :
    Host.Outcome State Fault Refusal :=
  match routeOf s.cfg lchan with
  | some ch => .next (act ch)
  | none => .next (s.answer .deviceAbsent)

/-- `Test(u)` on the channel of u: post one queued record, and say whether it was posted
(R263, R267). -/
def testChannel (ch : Nat) (s : State) : State :=
  match postStatus ch 0 s with
  | some s1 => s1.answer .statusStored
  | none => s.answer .acceptedNoStatus

/-- Start on a unit in flight (R261, first three rows). -/
def startInFlight (u : UnitId) (a : Addr) (pc : PreCheck) (s : State) : State :=
  if (unitCfg s.cfg u).hasPsq && pc != .busy then
    match enqueue u a s with
    | some s1 => s1.answer .acceptedQueued
    | none => s.answer .busy
  else s.answer .busy

/-- Start on an idle unit whose device is ready (R262): queued status is posted instead of starting, or
the program begins; the answer follows when the engine returns. -/
def startProgram (u : UnitId) (a : Addr) (s : State) : State :=
  match postStatus u.ch 0 s with
  | some s1 => s1.answer .statusStored
  | none =>
    enterEngine u false ((s.setCtx u (freshContext a .busy)).push (.xioReturn .acceptedNoStatus))

/-- The device's pre-check of unit `u`: what follows its answer, or a fault where the device makes a call
inside it (spec/45_device_contract.md R302, R303 item 5, R311). -/
def withPreCheck (u : UnitId) (s : State) (act : PreCheck → State → State) :
    Host.Outcome State Fault Refusal :=
  match (takePreCheck s).1.calls with
  | [] => .next (act (takePreCheck s).1.answer ((takePreCheck s).2.emit (.preCheck u)))
  | _ :: _ => .fault .callInsidePreCheck

/-- Start on unit `u` whose device's pre-check answered `pc` (R261, R262). -/
def startUnit (u : UnitId) (a : Addr) (pc : PreCheck) (s : State) : State :=
  if (s.ctx u).state ≠ .empty then startInFlight u a pc s
  else if pc = .busy ∨ pc = .busyQueueable then s.answer .busySubchannel
  else startProgram u a s

/-- Start (R261, R262). -/
def execSio (lchan : BitVec 7) (sa : Byte) (listAddr : Addr) (s : State) :
    Host.Outcome State Fault Refusal :=
  onUnit lchan sa s fun u => withPreCheck u s (startUnit u listAddr)

/-- Test (R263). -/
def execTio (lchan : BitVec 7) (sa : Byte) (s : State) : Host.Outcome State Fault Refusal :=
  onUnit lchan sa s fun u => .next (testChannel u.ch s)

/-- Stop (R265). -/
def execStpio (lchan : BitVec 7) (sa : Byte) (s : State) : Host.Outcome State Fault Refusal :=
  onUnit lchan sa s fun u =>
    if (s.ctx u).state = .empty then .next (s.answer .acceptedNoStatus)
    else
      let s1 := s.setCtx u (stopChaining (s.ctx u))
      if (unitCfg s.cfg u).hasStop then
        .next (((takeStop s1).2.emit (.stopCallback u)).push
          (.callback u (takeStop s1).1.calls (takeStop s1).1.answer))
      else .next (s1.answer .acceptedNoStatus)

/-- Halt's preparation: deferred completions are cancelled, both ends and the exception flag are merged
and chaining is stopped (R264). -/
def haltPrepare (u : UnitId) (s : State) : State :=
  (s.emit (.cancel u)).setCtx u (stopChaining (mergeStatus (stEnds ||| stExpt) (s.ctx u)))

/-- Halt's forced termination and its post; where the channel end begins a queued program, the post
waits until the engine returns (R264, spec/42_pending_start.md R217). -/
def haltTerminate (u : UnitId) (s : State) : Except Fault State :=
  match channelEndCore u 0 s with
  | .error f => .error f
  | .ok (s1, none) => .ok (testChannel u.ch s1)
  | .ok (s1, some allow) => .ok (enterEngine u allow (s1.push (.haltPost u.ch)))

/-- Halt (R264). -/
def execHio (lchan : BitVec 7) (sa : Byte) (s : State) : Host.Outcome State Fault Refusal :=
  onUnit lchan sa s fun u =>
    if (s.ctx u).state = .empty then .next (s.answer .acceptedNoStatus)
    else
      let s1 := haltPrepare u s
      if (unitCfg s.cfg u).hasHalt then
        .next (((takeHalt s1).2.emit (.haltCallback u)).push
          (.callback u (takeHalt s1).1.calls (takeHalt s1).1.answer))
      else outcomeOf (haltTerminate u s1)

/-- Grab (R266). -/
def execGrio (lchan : BitVec 7) (sa : Byte) (s : State) : Host.Outcome State Fault Refusal :=
  onUnit lchan sa s fun u =>
    if (s.ctx u).state ≠ .empty then .next (s.answer .busy) else .next (testChannel u.ch s)

/-- One unit is reset: its deferred completions are cancelled, its queue emptied and its context
cleared (R268, R269). -/
def clearUnit (s : State) (u : UnitId) : State :=
  let s1 := s.emit (.cancel u)
  let s2 := if (unitCfg s.cfg u).hasPsq then s1.setPsq u [] else s1
  s2.setCtx u Context.powerOn

/-- Every unit of the list is reset, in order. -/
def clearUnits (us : List UnitId) (s : State) : State := us.foldl clearUnit s

/-- The outputs `f u` leave, in order, for the units of the list. -/
def emitFor (us : List UnitId) (f : UnitId → Output) (s : State) : State :=
  us.foldl (fun t u => t.emit (f u)) s

/-- A level whose channel is reset, `waiting` being whether a record remains (R268, R269). -/
def clearLevel (waiting : Bool) (l : Level) : Level :=
  { l with active := false, extPending := false, requested := waiting }

/-- `ResetChannel(ch)` (R268). -/
def resetChannel (ch : Nat) (s : State) : State :=
  let us := unitsOfChannel s.cfg ch
  let s1 := clearUnits us s
  let s2 := emitFor (us.filter fun u => (unitCfg s.cfg u).hasResetChannel) .resetChannelCallback s1
  let s3 := s2.setChan ch { s2.chan ch with fifo := [] }
  (s3.onChannelLevel ch (clearLevel false)).answer .acceptedNoStatus

/-- Reset-Channel (R268). -/
def execRschnl (lchan : BitVec 7) (s : State) : Host.Outcome State Fault Refusal :=
  onChannel lchan s fun ch => resetChannel ch s

/-- The records of other units than those listed, in order (R269). -/
def recordsOfOthers (us : List UnitId) (q : List Record) : List Record :=
  q.filter fun r => !us.any fun u => u.sa == r.w1.extractLsb' 24 8

/-- `ResetController(u0)` (R269). -/
def resetController (u0 : UnitId) (s : State) : State :=
  let us := unitsOfController s.cfg u0.ch (unitCfg s.cfg u0).controller
  let s1 := clearUnits us s
  let s2 :=
    emitFor (us.filter fun u => (unitCfg s.cfg u).hasResetController) .resetControllerCallback s1
  let q := recordsOfOthers us (s2.chan u0.ch).fifo
  let s3 := s2.setChan u0.ch { s2.chan u0.ch with fifo := q }
  (s3.onChannelLevel u0.ch (clearLevel !q.isEmpty)).answer .acceptedNoStatus

/-- Reset-Controller (R269). -/
def execRsctl (lchan : BitVec 7) (sa : Byte) (s : State) : Host.Outcome State Fault Refusal :=
  onUnit lchan sa s fun u => .next (resetController u s)

end Sys2Proof.Machine
end

