-- ==== Sys2Proof/Machine/Dispatch.lean ====
section
/-! DEFINITION. One arm per instruction of spec/opcode_table.json. -/

namespace Sys2Proof.Machine

def exec (i : Instr) (s : State) : Host.Outcome State Fault Refusal :=
  match i with
  | .inch addr w2 => Sys2Proof.Machine.execInch addr w2 s
  | .invalid hi addr w2 => Sys2Proof.Machine.execInvalid hi addr w2 s
  | .write modifier addr w2 => Sys2Proof.Machine.execWrite modifier addr w2 s
  | .read modifier addr w2 => Sys2Proof.Machine.execRead modifier addr w2 s
  | .control modifier addr w2 => Sys2Proof.Machine.execControl modifier addr w2 s
  | .sense modifier addr w2 => Sys2Proof.Machine.execSense modifier addr w2 s
  | .tic _ addr _ => Sys2Proof.Machine.execTic addr s
  | .rdbwd modifier addr w2 => Sys2Proof.Machine.execRdbwd modifier addr w2 s
  | .sio lchan sa listAddr => Sys2Proof.Machine.execSio lchan sa listAddr s
  | .tio lchan sa => Sys2Proof.Machine.execTio lchan sa s
  | .stpio lchan sa => Sys2Proof.Machine.execStpio lchan sa s
  | .rschnl lchan _ => Sys2Proof.Machine.execRschnl lchan s
  | .hio lchan sa => Sys2Proof.Machine.execHio lchan sa s
  | .grio lchan sa => Sys2Proof.Machine.execGrio lchan sa s
  | .rsctl lchan sa => Sys2Proof.Machine.execRsctl lchan sa s
  | .eci lev _ => Sys2Proof.Machine.execEci lev s
  | .dci lev _ => Sys2Proof.Machine.execDci lev s
  | .aci lev _ => Sys2Proof.Machine.execAci lev s
  | .daci lev _ => Sys2Proof.Machine.execDaci lev s
  | .unassigned0 _ _ => Sys2Proof.Machine.execUnassigned0 s
  | .unassigned1 _ _ => Sys2Proof.Machine.execUnassigned1 s
  | .unassigned9 _ _ => Sys2Proof.Machine.execUnassigned9 s
  | .unassignedA _ _ => Sys2Proof.Machine.execUnassignedA s
  | .unassignedB _ _ => Sys2Proof.Machine.execUnassignedB s

end Sys2Proof.Machine
end

