-- ==== Sys2Proof/Machine/Fetch.lean ====
section
/-! DEFINITION. Where an instruction comes from, and what runs between instructions: the engine's fetch,
the port operations, and the devices' callbacks and walkers (spec/10_state.md R44,
spec/40_engine.md R121, spec/45_device_contract.md R301 to R313). -/

namespace Sys2Proof.Machine

/-- The engine's next pass for unit `u`: fetch a descriptor and run it, or end the program with a
program check where the fetch fails (R121, R137). -/
def fetchStep (run : Instr → State → Host.Outcome State Fault Refusal) (u : UnitId) (s : State) :
    Host.Outcome State Fault Refusal :=
  match fetchDescriptor u s with
  | none => outcomeOf (programCheckCmd u (s.withStack s.stack.tail))
  | some (w1, w2, s1) => run (decodeDescriptor w1 w2) s1

/-- The next act of a device's own walker for unit `u`, or its return, which must leave the context
Busy, ChannelEndPending or Empty (R305, R311). `rest` is the stack below the walker. A walker that leaves
its unit Empty by writing the context itself does not dequeue: R212 lets only a channel end do that. So
starts may stay queued for an idle unit, which spec/42_pending_start.md R216 says never holds and which
R305 and I4 admit. DESIGN CHOICE (entry 21). -/
def overrideStep (u : UnitId) (acts : List OverrideAct) (answer : EngineOutcome)
    (rest : List Activation) (s : State) : Host.Outcome State Fault Refusal :=
  match acts with
  | [] =>
    match (s.ctx u).state with
    | .busy | .channelEndPending | .empty =>
      .next ((s.withStack rest).emit (.engineOutcome u answer))
    | .awaitingNext | .posted | .done => .fault .overrideIllegalState
  | act :: acts' =>
    let s1 := s.withStack (.override u acts' answer :: rest)
    match act with
    | .setContext c => .next (s1.setCtx u c)
    | .store a b => .next (s1.storeByte a b)
    | .call d => outcomeOf (deviceCall u d s1)

/-- The next call of a device's halt or stop callback for unit `u`, or its return: "its answer is the
outcome" (R306, R307). R303 item 5 names the signal alone for these callbacks and R311 lists no other call
as a violation; a byte helper or a push to the front there has the effect R301 gives it, and is no fault.
DESIGN CHOICE (entry 23). -/
def callbackStep (u : UnitId) (calls : List DevCall) (answer : XioOutcome) (rest : List Activation)
    (s : State) : Host.Outcome State Fault Refusal :=
  match calls with
  | [] => .next ((s.withStack rest).answer answer)
  | d :: ds => outcomeOf (deviceCall u d (s.withStack (.callback u ds answer :: rest)))

/-- The next call of a device's completion, or its end (R301, R310). "Context, queue and device calls exist
only for reachable units" (R43). -/
def completionStep (calls : List (UnitId × DevCall)) (rest : List Activation) (s : State) :
    Host.Outcome State Fault Refusal :=
  match calls with
  | [] => .next (s.withStack rest)
  | (u, d) :: cs =>
    if reachable s.cfg u then outcomeOf (deviceCall u d (s.withStack (.completion cs :: rest)))
    else .fault .unreachableUnit

/-- A port operation at a suspension point (spec/10_state.md R44), or a store of the CPU (R313). -/
def runPortOp (run : Instr → State → Host.Outcome State Fault Refusal) (op : PortOp) (s : State) :
    Host.Outcome State Fault Refusal :=
  match op with
  | .xio req listAddr =>
    match decodeRequest req listAddr with
    | .ok i => run i s
    | .error .reservedRequestBits => unsupportedRequest s
  | .scan blocked => .next (scanLevels blocked s)
  | .raise l => .next (raiseLevel l s)
  | .device calls => .next (s.push (.completion calls))
  | .cpuStore a b => .next (s.storeByte a b)

/-- The innermost procedure goes on; at a suspension point the next port operation begins, and where
none is determined "its state does not change" (R313). -/
def stepWith (run : Instr → State → Host.Outcome State Fault Refusal) (s : State) :
    Host.Outcome State Fault Refusal :=
  match s.stack with
  | .engine u _ :: _ => fetchStep run u s
  | .override u acts answer :: rest => overrideStep u acts answer rest s
  | .completion calls :: rest => completionStep calls rest s
  | .callback u calls answer :: rest => callbackStep u calls answer rest s
  | .haltPost ch :: rest => .next (testChannel ch (s.withStack rest))
  | .xioReturn o :: rest => .next ((s.withStack rest).answer o)
  | [] =>
    match s.inputs.inbox with
    | [] => .next s
    | op :: ops => runPortOp run op (s.withInputs { s.inputs with inbox := ops })

/-- The first reachable unit of the configuration. -/
def firstUnit (cfg : Config) : UnitId := ((cfg.units.map Prod.fst).filter (reachable cfg)).headD ⟨0, 0⟩

/-- The state with a descriptor where the engine of the first unit fetches next, and that engine
running; the device's answer to a dispatch is listed as Pending (entry 6). -/
def placeDescriptor (w1 w2 : Word) (s : State) : State :=
  let u := firstUnit s.cfg
  let c := s.ctx u
  let a : Addr := if wordAligned c.listAddr && memOk s.cfg c.listAddr.toNat 8 then c.listAddr else 0
  let s1 := (s.writeWord a.toNat w1).writeWord (a.toNat + 4) w2
  let s2 := s1.setCtx u { c with state := .busy, listAddr := a, flags := { c.flags with dc := false } }
  (s2.withStack [.engine u true]).withInputs
    { s.inputs with starts := { calls := [], answer := 0 } :: s.inputs.starts }

/-- The state with a request as the next port operation; the device's pre-check is listed as Ready
(entry 6). -/
def placeRequest (req : Word) (listAddr : Addr) (s : State) : State :=
  (s.withStack []).withInputs
    { s.inputs with inbox := .xio req listAddr :: s.inputs.inbox,
                    preChecks := { calls := [], answer := .ready } :: s.inputs.preChecks }

/-- The state whose next step runs the opcode-table word `w` (entry 6). -/
def placeTableWord (nbits w : Nat) (s : State) : State :=
  match tableWord nbits w with
  | .descriptor w1 w2 => placeDescriptor w1 w2 s
  | .request req listAddr => placeRequest req listAddr s

end Sys2Proof.Machine
end

