-- ==== Sys2Proof/Machine/Step.lean ====
section
/-! DEFINITION. One step of the machine: one descriptor, one port operation up to its first engine
entry, one call of a device, or one return (spec/10_state.md R44; entry 5). -/

namespace Sys2Proof.Machine

/-- One step. A configuration that breaks R9 or R11 is refused (spec/00_scope.md R11). -/
def step (s : State) : Host.Outcome State Fault Refusal :=
  if s.cfg.wf then stepWith exec s else .refused .illFormedConfiguration

/-- `s` with the instruction of an opcode-table word where the next step takes it from (entry 6). -/
def State.withFetchWord (s : State) (nbits w : Nat) : State := placeTableWord nbits w s

end Sys2Proof.Machine
end

