-- ==== Sys2Proof/Safety.lean ====
section
/-! DEFINITION. The vocabulary of the statements: the invariants of the block, the faults that are a
device's, and runs (spec/10_state.md R29, R33, R37, R38, spec/42_pending_start.md R216,
spec/45_device_contract.md R311, spec/93_implementation_defined.md I10). -/

namespace Sys2Proof.Machine

/-- The INCH range invariant of R33. -/
def inchRangeOk (memSize : Nat) (c : Channel) : Prop :=
  c.inchValid = true →
    wordAligned c.inchBase = true ∧ c.inchBase.toNat ≤ c.inchHwm.toNat ∧
    8 ∣ c.inchHwm.toNat - c.inchBase.toNat ∧ c.inchBase.toNat ≤ c.inchCur.toNat ∧
    c.inchCur.toNat ≤ c.inchHwm.toNat ∧ 8 ∣ c.inchCur.toNat - c.inchBase.toNat ∧
    c.inchHwm.toNat + 8 ≤ memSize

/-- The invariant of the stored state: the configuration is well formed, memory and every table are
canonical, memory stays below `MEM_SIZE`, FIFOs and queues stay within their capacity (R32, R35), a unit
without a queue has none, INCH ranges are sound (R33), "a given level is Active XOR Requested XOR idle"
(R37), `ext_pending` "is 0 whenever active = 0" (R38), and a level that is not configured stays at its
power-on value (R230). -/
structure State.Inv (s : State) : Prop where
  cfgWf : s.cfg.wf = true
  memWf : Memory.wf s.mem = true
  memBound : ∀ a, s.cfg.memSize ≤ a → s.readByte a = 0
  ctxsOk : tableOk Context.powerOn s.ctxs = true
  psqsOk : tableOk [] s.psqs = true
  chansOk : tableOk Channel.powerOn s.chans = true
  levelsOk : tableOk Level.powerOn s.levels = true
  fifoBound : ∀ ch, (s.chan ch).fifo.length ≤ s.cfg.fifoCap
  psqBound : ∀ u, (s.psq u).length ≤ s.cfg.psqCap
  psqOwned : ∀ u, (unitCfg s.cfg u).hasPsq = false → s.psq u = []
  inchOk : ∀ ch, inchRangeOk s.cfg.memSize (s.chan ch)
  activeXorRequested : ∀ l, (s.lvl l).active = true → (s.lvl l).requested = false
  pendingOnlyActive : ∀ l, (s.lvl l).extPending = true → (s.lvl l).active = true
  unusedLevels : ∀ l, (levelCfg s.cfg l).configured = false → s.lvl l = Level.powerOn

/-- The transfer-state is one that R29 lets be seen between port operations. -/
def TransferState.visible : TransferState → Prop
  | .empty | .busy | .channelEndPending => True
  | .awaitingNext | .posted | .done => False

/-- An engine activation. -/
def Activation.isEngine : Activation → Bool
  | .engine .. => true
  | .override .. | .completion _ | .callback .. | .haltPost _ | .xioReturn _ => false

/-- An activation of a device's own descriptor-list walker. -/
def Activation.isOverride : Activation → Bool
  | .override .. => true
  | .engine .. | .completion _ | .callback .. | .haltPost _ | .xioReturn _ => false

/-- The invariant of control, for a system in which no device replaces the engine loop: at most the
innermost procedure is the engine, its unit is Busy with chain-data clear (R120, R124), every
transfer-state is a visible one (R29), and only a unit in flight has starts queued (R216). -/
structure State.Orderly (s : State) : Prop where
  noOverride : ∀ u, (unitCfg s.cfg u).hasOverride = false
  noWalker : ∀ a ∈ s.stack, a.isOverride = false
  oneEngine : ∀ a ∈ s.stack.tail, a.isEngine = false
  engineBusy : ∀ u t rest, s.stack = .engine u t :: rest →
    (s.ctx u).state = .busy ∧ (s.ctx u).flags.dc = false
  visible : ∀ u, (s.ctx u).state.visible
  psqOwned : ∀ u, (unitCfg s.cfg u).hasPsq = false → s.psq u = []
  queuedInFlight : ∀ u, s.psq u ≠ [] → (s.ctx u).state ≠ .empty

/-- What a device may call inside `start_command` (R303 item 1), on a channel that exists. -/
def callAllowedInStart (cfg : Config) : DevCall → Bool
  | .signal _ => false
  | .readByte | .writeByte _ => true
  | .pushFront ch _ => decide (ch < cfg.numChan)

/-- The run of `start_command` that the next dispatch uses keeps to R303 item 1. -/
def State.nextStartAllowed (s : State) : Bool :=
  (takeStart s).1.calls.all (callAllowedInStart s.cfg)

/-- The device of unit `u` makes the calls, in this order and none of them a signal, from `s` to `t`
(R303 item 1). -/
def CallsRun (u : UnitId) : List DevCall → State → State → Prop
  | [], s, t => t = s
  | d :: ds, s, t =>
    (∀ extra, d ≠ .signal extra) ∧ ∃ r, deviceCall u d s = .ok r ∧ CallsRun u ds r t

/-- The engine is about to run a fetched descriptor of unit `u`, whose context is as R120 and R124 leave
it at that point: Busy, and chain-data clear. -/
def State.atDescriptor (s : State) (u : UnitId) (ticOk : Bool) (rest : List Activation) : Prop :=
  s.stack = .engine u ticOk :: rest ∧ (s.ctx u).state = .busy ∧ (s.ctx u).flags.dc = false

/-- The operands of a descriptor that is not a TIC: its command code, its address and its word 2. -/
def commandOperands : Instr → Option (Byte × Addr × CommandWord)
  | .inch addr w2 => some (0x00, addr, w2)
  | .invalid hi addr w2 => some ((hi ++ 0x0#4 : BitVec (4 + 4)), addr, w2)
  | .write m addr w2 => some ((m ++ 0b01#2 : BitVec (6 + 2)), addr, w2)
  | .read m addr w2 => some ((m ++ 0b10#2 : BitVec (6 + 2)), addr, w2)
  | .control m addr w2 => some ((m ++ 0b11#2 : BitVec (6 + 2)), addr, w2)
  | .sense m addr w2 => some ((m ++ 0x4#4 : BitVec (4 + 4)), addr, w2)
  | .rdbwd m addr w2 => some ((m ++ 0xC#4 : BitVec (4 + 4)), addr, w2)
  | .tic .. | .sio .. | .tio .. | .stpio .. | .rschnl .. | .hio .. | .grio .. | .rsctl .. => none
  | .eci .. | .dci .. | .aci .. | .daci .. => none
  | .unassigned0 .. | .unassigned1 .. | .unassigned9 .. | .unassignedA .. | .unassignedB .. => none

/-- The answers of `k` calls of the read helper, one after the other. -/
def readAnswers (u : UnitId) : Nat → State → List ReadAnswer
  | 0, _ => []
  | k + 1, s => (readNextByte u s).1 :: readAnswers u k (readNextByte u s).2

/-- The answers of calls of the write helper with these bytes, one after the other. -/
def writeAnswers (u : UnitId) : List Byte → State → List WriteAnswer
  | [], _ => []
  | b :: bs, s => (writeNextByte u b s).1 :: writeAnswers u bs (writeNextByte u b s).2

/-- The state after calls of the write helper with these bytes. -/
def afterWrites (u : UnitId) : List Byte → State → State
  | [], s => s
  | b :: bs, s => afterWrites u bs (writeNextByte u b s).2

/-- No key. -/
def nothing {α : Type} (_ : α) : Prop := False

/-- What a change from `s` to `t` leaves alone: the configuration, every byte of memory outside
`bytes`, and every context, queue, channel and level outside `ctxs`, `psqs`, `chans` and `lvls`. -/
structure State.Frame (s t : State) (bytes : Nat → Prop) (ctxs psqs : UnitId → Prop)
    (chans lvls : Nat → Prop) : Prop where
  config : t.cfg = s.cfg
  memory : ∀ a, ¬bytes a → t.readByte a = s.readByte a
  contexts : ∀ u, ¬ctxs u → t.ctx u = s.ctx u
  queues : ∀ u, ¬psqs u → t.psq u = s.psq u
  channels : ∀ ch, ¬chans ch → t.chan ch = s.chan ch
  levels : ∀ l, ¬lvls l → t.lvl l = s.lvl l

/-- The channel's level is requested where it is configured and not active, and nothing else changes
of any level (R231). -/
def State.LevelNotified (s t : State) (ch : Nat) : Prop :=
  ∀ l, t.lvl l =
    if channelOwns s.cfg ch l = true ∧ (s.lvl l).active = false then
      { s.lvl l with requested := true }
    else s.lvl l

/-- The program of unit `u` has ended with the context `c`, from `s` to `m` (R175, R176, R178, R179): its
record is stored at the tail of the FIFO and the level notified, or, where the FIFO is full, dropped and
counted; then the context is Empty, or holds a queued start that the engine is about to be entered for. -/
structure State.ProgramEnded (s m : State) (u : UnitId) (c : Context) : Prop where
  stored : (s.chan u.ch).fifo.length < s.cfg.fifoCap →
    m.chan u.ch = { s.chan u.ch with fifo := (s.chan u.ch).fifo ++ [recordOf u c] } ∧
    s.LevelNotified m u.ch
  dropped : s.cfg.fifoCap ≤ (s.chan u.ch).fifo.length →
    m.chan u.ch = { s.chan u.ch with overflow := (s.chan u.ch).overflow + 1 } ∧
    ∀ l, m.lvl l = s.lvl l
  idle : (unitCfg s.cfg u).hasPsq = false ∨ s.psq u = [] →
    m.ctx u = { c with state := .empty } ∧ m.psq u = s.psq u
  queued : ∀ a q, (unitCfg s.cfg u).hasPsq = true → s.psq u = a :: q →
    m.ctx u = { state := .posted, listAddr := a, cmd := 0, flags := Flags.none, count := 0,
                dataAddr := 0, status := 0 } ∧ m.psq u = q
  frame : s.Frame m nothing (· = u) (· = u) (· = u.ch) (channelOwns s.cfg u.ch · = true)
  stack : m.stack = s.stack
  inputs : m.inputs = s.inputs

/-- What follows the end of a program of `u` from `s` to `m`: the engine is entered for the queued start,
with no Transfer-In-List allowed, where there was one (R176). -/
def State.afterEnd (s : State) (u : UnitId) (m : State) : State :=
  if (unitCfg s.cfg u).hasPsq = true ∧ s.psq u ≠ [] then enterEngine u false m else m

/-- `s` with the status buffer of an INCH descriptor loaded for the channel of `u` (R135). -/
def State.withStatusBuffer (s : State) (u : UnitId) (addr : Addr) (count : Half) : State :=
  s.setChan u.ch { s.chan u.ch with
    inchValid := true, inchBase := addr, inchCur := addr,
    inchHwm := BitVec.ofNat 24 (addr.toNat + 8 * (count.toNat / 8) - 8) }

/-- The state a command's device is called in, the engine's activation having been left: the status
buffer is loaded where the command is INCH, and the device's run is taken from the inputs (R132). -/
def State.dispatchBase (s : State) (u : UnitId) (rest : List Activation) (code : Byte) (addr : Addr)
    (w2 : CommandWord) : State :=
  (if classOf code = .inch then (takeStart s).2.withStatusBuffer u addr w2.count
    else (takeStart s).2).withStack rest

/-- The context at a channel end, before it is decided how the program goes on: the signalled bits and
CE merged, and the incorrect-length condition of R172 applied (R170, R172). -/
def endedContext (extra : Half) (c : Context) : Context :=
  if isTransfer c.cmd = true ∧ c.count ≠ 0 ∧ c.flags.sli = false then
    { c with
      flags := Flags.none,
      status :=
        if (c.status ||| extra ||| stCe) &&& stPchk = 0 then c.status ||| extra ||| stCe ||| stLength
        else c.status ||| extra ||| stCe }
  else { c with status := c.status ||| extra ||| stCe }

/-- The context of a unit with a descriptor of command code `c` loaded that begins a command (R130). -/
def startedContext (old : Context) (c : Byte) (addr : Addr) (w2 : CommandWord) : Context :=
  { old with
    cmd := c, flags := w2.flags, dataAddr := addr, count := w2.count,
    status := if w2.flags.pci = true then old.status ||| stPci else old.status }

/-- The context with a device's answer `st` merged (R132). -/
def answeredContext (c : Context) (st : Half) : Context := { c with status := c.status ||| st }

/-- The state in which the device of an accepted command is called: the descriptor is loaded in the
unit's context and the callback is made (R130, R132, R135). -/
def State.dispatched (s : State) (u : UnitId) (rest : List Activation) (code : Byte) (addr : Addr)
    (w2 : CommandWord) : State :=
  { (s.dispatchBase u rest code addr w2).setCtx u (startedContext (s.ctx u) code addr w2) with
    outputs := .startCommand u code :: s.outputs }

/-- The device of an accepted command has made the calls of its run and answers `st`, in the state `x`
(R132, R303 item 1, R304). A run without a call answers in the state it is called in. -/
def State.CommandAnswered (s x : State) (u : UnitId) (rest : List Activation) (code : Byte) (addr : Addr)
    (w2 : CommandWord) (st : Half) : Prop :=
  (takeStart s).1.answer = st ∧
    CallsRun u (takeStart s).1.calls (s.dispatched u rest code addr w2) x

/-- The scan may dispatch level `l` (R240). -/
def State.Eligible (s : State) (l : Nat) : Prop :=
  l < s.cfg.numLevels ∧ (levelCfg s.cfg l).configured = true ∧ (s.lvl l).active = false ∧
    (s.lvl l).enabled = true ∧ (s.lvl l).requested = true

/-- A descriptor can be fetched from `a` (R121). -/
def State.fetchable (s : State) (a : Addr) : Prop := a.toNat % 4 = 0 ∧ a.toNat + 8 ≤ s.cfg.memSize

/-- The descriptor at `a` can be fetched and is a Transfer-In-List (R122). -/
def State.ticAt (s : State) (a : Addr) : Prop :=
  s.fetchable a ∧ classOf (codeOf (s.readWord a.toNat)) = .tic

/-- The descriptor at `a` can be fetched and is no Transfer-In-List; `bad` says whether it is a program
check as a continuation of the command in progress of unit `u` (R124 to R129). -/
def State.continuationAt (s : State) (u : UnitId) (a : Addr) (bad : Bool) : Prop :=
  s.fetchable a ∧ classOf (codeOf (s.readWord a.toNat)) ≠ .tic ∧
    descriptorBad s.cfg (s.ctx u).cmd (addrOf (s.readWord a.toNat))
      (decodeCommandWord (s.readWord (a.toNat + 4))) = bad

/-- The data chain of unit `u` comes to the list address `a` for its next descriptor: at once, or by one
Transfer-In-List (R122, R123, R152). -/
def State.chainComesTo (s : State) (u : UnitId) (a : Addr) : Prop :=
  a = (s.ctx u).listAddr ∨
    s.ticAt (s.ctx u).listAddr ∧ a = addrOf (s.readWord (s.ctx u).listAddr.toNat)

/-- The data chain of unit `u` cannot go on and leaves the list address at `l`: a descriptor cannot be
fetched (the failing address), or is a second Transfer-In-List or a program check (the address after it)
(R121, R122, R139). -/
def State.chainStopsAt (s : State) (u : UnitId) (l : Addr) : Prop :=
  (∃ a, s.chainComesTo u a ∧ ¬s.fetchable a ∧ l = a) ∨
  (∃ a, s.chainComesTo u a ∧ s.continuationAt u a true ∧ l = a + 8) ∨
  (s.ticAt (s.ctx u).listAddr ∧ s.ticAt (addrOf (s.readWord (s.ctx u).listAddr.toNat)) ∧
    l = addrOf (s.readWord (s.ctx u).listAddr.toNat) + 8)

/-- The descriptors at list address `l` of unit `u` continue a data chain over the counts `ns`, reading
at `a` and on: each is fetched, is no Transfer-In-List, passes the checks for a transfer command, and
has chain-data set exactly where another follows (R152, R153). -/
def State.ChainAt (s : State) : Addr → Addr → List Half → Prop
  | _, _, [] => True
  | l, a, n :: ns =>
    wordAligned l = true ∧ memOk s.cfg l.toNat 8 = true ∧
    classOf (codeOf (s.readWord l.toNat)) ≠ .tic ∧ addrOf (s.readWord l.toNat) = a ∧
    (decodeCommandWord (s.readWord (l.toNat + 4))).reserved = 0 ∧
    (decodeCommandWord (s.readWord (l.toNat + 4))).count = n ∧ n ≠ 0 ∧
    ((decodeCommandWord (s.readWord (l.toNat + 4))).flags.dc = true ↔ ns ≠ []) ∧
    s.ChainAt (l + 8) (a + n.setWidth 24) ns

/-- The sum of the counts of a chain. -/
def totalCount (ns : List Half) : Nat := (ns.map BitVec.toNat).sum

/-- No Status Record has been dropped: the safety condition of I10. -/
def State.nothingLost (s : State) : Prop := ∀ ch, (s.chan ch).overflow = 0

/-- A fault that is a breach of the device contract named by R311. -/
def Fault.isContractViolation : Fault → Bool
  | .deviceContract | .signalInsideStart | .callInsidePreCheck | .overrideIllegalState => true
  | .unreachableUnit | .noSuchChannel | .noEngine => false

/-- `t` is reached from `s` by steps. -/
inductive Reaches : State → State → Prop where
  | here (s : State) : Reaches s s
  | next {s t t' : State} (h : Reaches s t) (hs : step t = .next t') : Reaches s t'

end Sys2Proof.Machine
end

