-- ==== Sys2Proof/Certificates/Slice0/Obligations.lean ====
section
/-! DEFINITION. The statements for the provers. Each docstring names the rules of spec/ it rests on. Where
such a rule carries the mark "[decision ...]", "[derived ...]" or "[from general knowledge ...]", the clause
rests on that choice of the spec; where a clause rests on a choice of the model, the docstring names the log
entry. Outputs, and how a running procedure is held, are the model's own (entries 5 and 7). -/

open Sys2Proof Sys2Proof.Machine

/-! ## Encodings -/

/-- Decoding the encoding of a well-formed instruction gives the instruction back, with every operand at
every value (R80 to R83, R95, R96, R103). -/
def Obligations.DecodeInvertsEncode : Prop :=
  ∀ i : Instr, i.wellFormed = true → decode (encode i) = .ok i

/-- Every pair of words is the encoding of the descriptor it decodes to, and a request word that decodes
is the encoding of its instruction, Start alone keeping the address beside it: decoding drops no bit (R80
to R86, R95 to R97, R103). -/
def Obligations.EncodeInvertsDecode : Prop :=
  (∀ w1 w2 : Word, (decodeDescriptor w1 w2).wellFormed = true ∧
    encode (decodeDescriptor w1 w2) = .descriptor w1 w2) ∧
  ∀ (req : Word) (a : Addr) (i : Instr), decodeRequest req a = .ok i →
    ∃ b, encode i = .request req b ∧ ∀ lchan sa x, i = .sio lchan sa x → b = a

/-- The fields of a descriptor stand at their positions and none is sign-extended or scaled (R81, R83). -/
def Obligations.DescriptorFieldPositions : Prop :=
  ∀ w1 w2 : Word,
    (codeOf w1).toNat = w1.toNat / 2 ^ 24 ∧
    (addrOf w1).toNat = w1.toNat % 2 ^ 24 ∧
    (decodeCommandWord w2).count.toNat = w2.toNat % 2 ^ 16 ∧
    (decodeCommandWord w2).reserved.toNat = w2.toNat / 2 ^ 16 % 2 ^ 11 ∧
    (decodeCommandWord w2).flags =
      { dc := decide (w2.toNat / 2 ^ 31 % 2 = 1), cc := decide (w2.toNat / 2 ^ 30 % 2 = 1),
        sli := decide (w2.toNat / 2 ^ 29 % 2 = 1), skip := decide (w2.toNat / 2 ^ 28 % 2 = 1),
        pci := decide (w2.toNat / 2 ^ 27 % 2 = 1) }

/-- The class of each of the 256 command codes and which classes transfer data (R82). -/
def Obligations.CommandCodeClasses : Prop :=
  ∀ c : Byte,
    classOf c =
      (if c.toNat = 0 then .inch
        else if c.toNat % 4 = 1 then .write
        else if c.toNat % 4 = 2 then .read
        else if c.toNat % 4 = 3 then .control
        else if c.toNat % 16 = 0 then .invalid
        else if c.toNat % 16 = 4 then .sense
        else if c.toNat % 16 = 8 then .tic
        else .rdbwd) ∧
    (isTransfer c = true ↔
      classOf c = .write ∨ classOf c = .read ∨ classOf c = .sense ∨ classOf c = .rdbwd)

/-- Words the spec gives for instructions decode to those instructions (R103, R162, R270, and the words
of spec/95_test_vectors.md). -/
def Obligations.WordsOfTheSpecDecode : Prop :=
  decode (.descriptor 0x02001000 0x60000100) =
    .ok (.read 0 0x001000
      { flags := { dc := false, cc := true, sli := true, skip := false, pci := false },
        reserved := 0, count := 256 }) ∧
  decode (.descriptor 0x10001000 0) =
    .ok (.invalid 1 0x001000 { flags := Flags.none, reserved := 0, count := 0 }) ∧
  decode (.descriptor 0x08000200 0) = .ok (.tic 0 0x000200 0) ∧
  decode (.request 0x000C0500 0) = .ok (.eci 5 0) ∧
  decode (.request 0x00020001 0x000100) = .ok (.sio 0 1 0x000100) ∧
  decode (.request 0x00030101 0) = .ok (.tio 1 1)

/-- The condition code of each outcome, no two sharing one (R98); the two masks over the status bits
(R91); and the two words of the record a unit's program produces (R31, R87). -/
def Obligations.ResultEncodings : Prop :=
  [XioOutcome.acceptedNoStatus, .acceptedQueued, .statusStored, .busy, .busySubchannel, .unsupported,
    .deviceAbsent].map outcomeCode = [0x0, 0x8, 0x4, 0x1, 0x3, 0x5, 0x2] ∧
  (∀ x y : XioOutcome, outcomeCode x = outcomeCode y → x = y) ∧
  immEnd = 0x1F13 ∧ chainAbort = 0x3F13 ∧
  ∀ (u : UnitId) (c : Context),
    (recordOf u c).w1.toNat = u.sa.toNat * 2 ^ 24 + c.listAddr.toNat ∧
    (recordOf u c).w2.toNat = c.status.toNat * 2 ^ 16 + c.count.toNat

/-! ## Memory -/

/-- A word is read with its most significant byte at the lowest address and is stored so; a store changes
no other byte (R62, R63, R68). -/
def Obligations.MemoryIsBigEndian : Prop :=
  ∀ (s : State) (a : Nat),
    (s.readWord a).toNat =
      (s.readByte a).toNat * 2 ^ 24 + (s.readByte (a + 1)).toNat * 2 ^ 16 +
        (s.readByte (a + 2)).toNat * 2 ^ 8 + (s.readByte (a + 3)).toNat ∧
    (∀ (v : Word) (k : Nat), (s.writeWord a v).readByte k =
      if k = a then v.extractLsb' 24 8
      else if k = a + 1 then v.extractLsb' 16 8
      else if k = a + 2 then v.extractLsb' 8 8
      else if k = a + 3 then v.extractLsb' 0 8
      else s.readByte k) ∧
    ∀ (v : Byte) (k : Nat), (s.writeByte a v).readByte k = if k = a then v else s.readByte k

/-! ## Power-on, configuration and invariants -/

/-- The state at power-on, whatever the configuration (R350): nothing in it but the configuration is
set, no program runs and no level can be dispatched. -/
def Obligations.PowerOnState : Prop :=
  ∀ cfg : Config,
    (∀ u, ({ State.reset with cfg := cfg } : State).ctx u =
      { state := .empty, listAddr := 0, cmd := 0, count := 0, dataAddr := 0, status := 0,
        flags := { dc := false, cc := false, sli := false, skip := false, pci := false } }) ∧
    (∀ u, ({ State.reset with cfg := cfg } : State).psq u = []) ∧
    (∀ ch, ({ State.reset with cfg := cfg } : State).chan ch =
      { fifo := [], inchValid := false, inchBase := 0, inchCur := 0, inchHwm := 0, overflow := 0 }) ∧
    (∀ l, ({ State.reset with cfg := cfg } : State).lvl l =
      { enabled := false, requested := false, active := false, extPending := false }) ∧
    scanFinds { State.reset with cfg := cfg } = none ∧
    ({ State.reset with cfg := cfg } : State).stack = []

/-- Each channel of a well-formed configuration owns exactly one level, and a configuration that is not
well formed is refused. R11 says so of the ownership of levels; that a size out of the range of R9, or a
table that names something twice or out of range, is refused too is the model's reading (entry 12,
DEDUCED). -/
def Obligations.EachChannelOwnsOneLevel : Prop :=
  (∀ (cfg : Config) (ch : Nat), cfg.wf = true → ch < cfg.numChan →
    ∃ l, chanLevel cfg ch = some l ∧ l < cfg.numLevels ∧ (levelCfg cfg l).owner = .chan ch ∧
      ∀ k, (levelCfg cfg k).owner = .chan ch → k = l) ∧
  ∀ s : State, s.cfg.wf = false → step s = .refused .illFormedConfiguration

/-- Every step keeps the invariant of the stored state, whatever the devices do: canonical tables,
absent addresses reading 0 (R60; the value is the model's choice, entry 4), the capacities (R32, R35),
the INCH range (R33), Active XOR Requested (R37), `ext_pending` only on an active level (R38), and unused levels untouched (R230). -/
def Obligations.StepKeepsStoredState : Prop :=
  ∀ s t : State, s.Inv → step s = .next t → t.Inv

/-- The power-on state of any well-formed configuration meets both invariants (R350, R29, R33, R37, R38,
R216); the second, where no device replaces the engine loop. -/
def Obligations.PowerOnMeetsBothInvariants : Prop :=
  ∀ cfg : Config, cfg.wf = true → ({ State.reset with cfg := cfg } : State).Inv ∧
    ((∀ u, (unitCfg cfg u).hasOverride = false) → ({ State.reset with cfg := cfg } : State).Orderly)

/-- In a system where no device replaces the engine loop, every step keeps the invariant of control: one
engine at most, its unit Busy with chain-data clear (R120, R124), every transfer-state visible (R29),
and starts queued only for a unit in flight (R216). -/
def Obligations.StepKeepsControl : Prop :=
  ∀ s t : State, s.Orderly → step s = .next t → t.Orderly

/-- Under the invariant of control no step stops because a channel end finds a transient transfer-state,
because a walker returns wrongly, or because no engine runs (R29, R170, R311). -/
def Obligations.OrderlyStepsKeepTheContract : Prop :=
  ∀ s : State, s.Orderly →
    step s ≠ .fault .deviceContract ∧ step s ≠ .fault .overrideIllegalState ∧
      step s ≠ .fault .noEngine

/-- No step changes the configuration (R42), and none decrements the count of dropped records (R34). -/
def Obligations.StepKeepsConfigurationAndOverflow : Prop :=
  ∀ s t : State, step s = .next t →
    t.cfg = s.cfg ∧ ∀ ch, (s.chan ch).overflow ≤ (t.chan ch).overflow

/-! ## A step -/

/-- A step of the engine runs the descriptor at the list address, which advances by 8 (R21, R121). -/
def Obligations.StepRunsTheFetchedDescriptor : Prop :=
  ∀ (s : State) (u : UnitId) (ticOk : Bool) (rest : List Activation),
    s.cfg.wf = true → s.stack = .engine u ticOk :: rest →
    wordAligned (s.ctx u).listAddr = true → memOk s.cfg (s.ctx u).listAddr.toNat 8 = true →
    step s =
      exec (decodeDescriptor (s.readWord (s.ctx u).listAddr.toNat)
          (s.readWord ((s.ctx u).listAddr.toNat + 4)))
        (s.setCtx u { s.ctx u with listAddr := (s.ctx u).listAddr + 8 })

/-- A step at a suspension point runs the next request, and answers Unsupported with no other change
where bits 31 to 20 or bit 15 of the request are not zero (R44, R97, R259). -/
def Obligations.StepRunsTheRequest : Prop :=
  ∀ (s : State) (req : Word) (a : Addr) (ops : List PortOp),
    s.cfg.wf = true → s.stack = [] → s.inputs.inbox = .xio req a :: ops →
    (∀ i, decodeRequest req a = .ok i →
      step s = exec i { s with inputs := { s.inputs with inbox := ops } }) ∧
    (req.toNat / 2 ^ 20 ≠ 0 ∨ req.toNat / 2 ^ 15 % 2 = 1 →
      step s = .next { s with inputs := { s.inputs with inbox := ops },
                              outputs := .xio .unsupported 0x5 :: s.outputs }) ∧
    (req.toNat / 2 ^ 20 = 0 → req.toNat / 2 ^ 15 % 2 = 0 → ∃ i, decodeRequest req a = .ok i)

/-- A step at a suspension point runs the other port operations, and changes nothing where none is to
come (R44, R235, R240, R310, R313; a step with no operation to come is the model's, entry 11). A device's
completion is entered with its calls, and each call of a device is the operation of R301, whose answer
leaves the block; a push to a channel that does not exist is a fault of the environment (entry 10). A store
of the CPU beyond memory writes nothing (R61; entry 24, DEDUCED). -/
def Obligations.StepRunsThePortOperation : Prop :=
  (∀ (s : State) (ops : List PortOp), s.cfg.wf = true → s.stack = [] →
    (s.inputs.inbox = [] → step s = .next s) ∧
    (∀ b, s.inputs.inbox = .scan b :: ops →
      step s = .next (scanLevels b { s with inputs := { s.inputs with inbox := ops } })) ∧
    (∀ l, s.inputs.inbox = .raise l :: ops →
      step s = .next (raiseLevel l { s with inputs := { s.inputs with inbox := ops } })) ∧
    (∀ calls, s.inputs.inbox = .device calls :: ops →
      step s = .next { s with
        inputs := { s.inputs with inbox := ops }, stack := [.completion calls] }) ∧
    (∀ a b, a.toNat < s.cfg.memSize → s.inputs.inbox = .cpuStore a b :: ops →
      step s = .next
        ({ s with inputs := { s.inputs with inbox := ops } }.writeByte a.toNat b)) ∧
    (∀ a b, s.cfg.memSize ≤ a.toNat → s.inputs.inbox = .cpuStore a b :: ops →
      step s = .next { s with inputs := { s.inputs with inbox := ops } })) ∧
  ∀ (s t : State) (u : UnitId),
    (∀ extra, deviceCall u (.signal extra) s = channelEnd u extra s) ∧
    (∀ answer, readNextByte u s = (answer, t) →
      deviceCall u .readByte s = .ok { t with outputs := .readAnswer u answer :: t.outputs }) ∧
    (∀ b answer, writeNextByte u b s = (answer, t) →
      deviceCall u (.writeByte b) s = .ok { t with outputs := .writeAnswer u answer :: t.outputs }) ∧
    (∀ ch r answer, ch < s.cfg.numChan → pushStatusFront ch r s = (answer, t) →
      deviceCall u (.pushFront ch r) s = .ok { t with outputs := .pushAnswer ch answer :: t.outputs }) ∧
    ∀ ch r, s.cfg.numChan ≤ ch → deviceCall u (.pushFront ch r) s = .error .noSuchChannel

/-- A fetch at a misaligned or absent address ends the program with a program check whose record names
that address (R121, R139, R140). -/
def Obligations.FetchFailureEndsTheProgram : Prop :=
  ∀ (s : State) (u : UnitId) (ticOk : Bool) (rest : List Activation),
    s.cfg.wf = true → s.stack = .engine u ticOk :: rest → (s.ctx u).state = .busy →
    (s.ctx u).listAddr.toNat % 4 ≠ 0 ∨ s.cfg.memSize < (s.ctx u).listAddr.toNat + 8 →
    ∃ m c, step s = .next ((s.withStack rest).afterEnd u m) ∧
      (s.withStack rest).ProgramEnded m u c ∧
      m.outputs = .engineOutcome u .error :: s.outputs ∧ c.listAddr = (s.ctx u).listAddr ∧
      c.count = (s.ctx u).count ∧ c.status = (s.ctx u).status ||| stPchk ||| stEnds

/-- While the engine runs a program of `u`, a step changes no other unit's context or queue (R137, R177,
R303 item 1). This rests on the model's choice that the calls a device makes inside `start_command` are
for its own unit (entry 13, DEDUCED). -/
def Obligations.EngineStepsLeaveOtherUnitsAlone : Prop :=
  ∀ (s t : State) (u v : UnitId) (ticOk : Bool) (rest : List Activation),
    s.stack = .engine u ticOk :: rest → v ≠ u → step s = .next t →
    t.ctx v = s.ctx v ∧ t.psq v = s.psq v

/-- Procedures that were entered go on: an operation that waited for the engine answers, Halt posts and
answers, a halt or stop callback makes its next call or answers with its outcome, and a completion makes
its next call, for a reachable unit, or ends (R43, R262, R264, R306, R307, R310; a call for a unit that is
not reachable is a fault of the environment, entry 10). For halt and stop R303 item 5, R306 and R307 name
the signal alone; that a byte helper or a push to the front there goes on too is the model's choice
(entry 23, DESIGN CHOICE). What a call does is in `StepRunsThePortOperation`. -/
def Obligations.EnteredProceduresGoOn : Prop :=
  ∀ (s : State) (rest : List Activation), s.cfg.wf = true →
    (∀ o, s.stack = .xioReturn o :: rest →
      step s = .next { s with stack := rest, outputs := .xio o (outcomeCode o) :: s.outputs }) ∧
    (∀ ch, s.stack = .haltPost ch :: rest →
      step s = .next (match postStatus ch 0 { s with stack := rest } with
        | some p => p.emit (.xio .statusStored 0x4)
        | none => { s with stack := rest, outputs := .xio .acceptedNoStatus 0x0 :: s.outputs })) ∧
    (∀ u o, s.stack = .callback u [] o :: rest →
      step s = .next { s with stack := rest, outputs := .xio o (outcomeCode o) :: s.outputs }) ∧
    (∀ u d ds o, s.stack = .callback u (d :: ds) o :: rest →
      step s = outcomeOf (deviceCall u d { s with stack := .callback u ds o :: rest })) ∧
    (s.stack = .completion [] :: rest → step s = .next { s with stack := rest }) ∧
    ∀ u d calls, s.stack = .completion ((u, d) :: calls) :: rest →
      (reachable s.cfg u = true →
        step s = outcomeOf (deviceCall u d { s with stack := .completion calls :: rest })) ∧
      (reachable s.cfg u = false → step s = .fault .unreachableUnit)

/-! ## Descriptors -/

/-- The descriptors that are program checks: reserved bits set, an INVALID code, chain-data on a command
that transfers no data, a transfer of no bytes, and the INCH operand errors (R125 to R129). -/
def Obligations.DescriptorProgramChecks : Prop :=
  ∀ (cfg : Config) (c : Byte) (addr : Addr) (w2 : CommandWord), descriptorBad cfg c addr w2 = true ↔
    w2.reserved ≠ 0 ∨ classOf c = .invalid ∨ (w2.flags.dc = true ∧ isTransfer c = false) ∨
      (isTransfer c = true ∧ w2.count = 0) ∨
      (classOf c = .inch ∧ (addr.toNat % 4 ≠ 0 ∨ w2.count.toNat < 8 ∨
        cfg.memSize < addr.toNat + 8 * (w2.count.toNat / 8)))

/-- INCH, WRITE, READ, CONTROL, SENSE, RDBWD and INVALID: a descriptor that fails a check ends the
program with a program check and makes no device call; the record names the address after the descriptor
and the count of the last accepted one (R125 to R129, R139, R140). -/
def Obligations.RejectedDescriptorEndsTheProgram : Prop :=
  ∀ (i : Instr) (s : State) (u : UnitId) (ticOk : Bool) (rest : List Activation) (code : Byte)
    (addr : Addr) (w2 : CommandWord),
    commandOperands i = some (code, addr, w2) → s.atDescriptor u ticOk rest →
    descriptorBad s.cfg code addr w2 = true →
    ∃ m c, exec i s = .next ((s.withStack rest).afterEnd u m) ∧
      (s.withStack rest).ProgramEnded m u c ∧
      m.outputs = .engineOutcome u .error :: s.outputs ∧ c.listAddr = (s.ctx u).listAddr ∧
      c.count = (s.ctx u).count ∧ c.status = (s.ctx u).status ||| stPchk ||| stEnds

/-- INVALID: every unassigned command code ends the program with a program check and makes no device
call (R126, R162). -/
def Obligations.InvalidCodeEndsTheProgram : Prop :=
  ∀ (s : State) (u : UnitId) (ticOk : Bool) (rest : List Activation) (hi : BitVec 4) (addr : Addr)
    (w2 : CommandWord),
    hi ≠ 0 → s.atDescriptor u ticOk rest →
    ∃ m c, exec (.invalid hi addr w2) s = .next ((s.withStack rest).afterEnd u m) ∧
      (s.withStack rest).ProgramEnded m u c ∧
      m.outputs = .engineOutcome u .error :: s.outputs ∧ c.listAddr = (s.ctx u).listAddr ∧
      c.count = (s.ctx u).count ∧ c.status = (s.ctx u).status ||| stPchk ||| stEnds

/-- WRITE, READ, CONTROL, SENSE and RDBWD: an accepted descriptor is loaded, the device is called with
its command code, and, after the calls it makes, its answer is merged; where it asks for no end, the
command is pending (R130, R132, R136, R303 item 1). Nothing else changes before the device is called, and
nothing else after its calls. -/
def Obligations.CommandWaitsForItsDevice : Prop :=
  ∀ (i : Instr) (s : State) (u : UnitId) (ticOk : Bool) (rest : List Activation) (code : Byte)
    (addr : Addr) (w2 : CommandWord) (st : Half),
    commandOperands i = some (code, addr, w2) → classOf code ≠ .inch → s.atDescriptor u ticOk rest →
    descriptorBad s.cfg code addr w2 = false → s.nextStartAllowed = true →
    (takeStart s).1.answer = st → st &&& immEnd = 0 → st &&& stEnds ≠ stEnds →
    ∃ x t, s.CommandAnswered x u rest code addr w2 st ∧ exec i s = .next t ∧
      t.ctx u = { answeredContext (x.ctx u) st with
        state := if st &&& stCe ≠ 0 then .channelEndPending else .busy } ∧
      x.Frame t nothing (· = u) nothing nothing nothing ∧
      t.stack = rest ∧ t.inputs = (takeStart s).2.inputs ∧
      t.outputs = .engineOutcome u .pending :: x.outputs ∧
      (s.dispatched u rest code addr w2).ctx u = startedContext (s.ctx u) code addr w2 ∧
      s.Frame (s.dispatched u rest code addr w2) nothing (· = u) nothing nothing nothing ∧
      ((takeStart s).1.calls = [] → x = s.dispatched u rest code addr w2)

/-- INCH: as the other commands, and before the device is called the channel's status buffer is the named
one from its base, up to the last whole slot; records already queued stay (R135, R155). -/
def Obligations.InchLoadsTheStatusBuffer : Prop :=
  ∀ (s : State) (u : UnitId) (ticOk : Bool) (rest : List Activation) (addr : Addr) (w2 : CommandWord)
    (st : Half) (d : State),
    s.cfg.wf = true → s.atDescriptor u ticOk rest → descriptorBad s.cfg 0x00 addr w2 = false →
    s.nextStartAllowed = true → (takeStart s).1.answer = st →
    st &&& immEnd = 0 → st &&& stEnds ≠ stEnds → d = s.dispatched u rest 0x00 addr w2 →
    ∃ x t, s.CommandAnswered x u rest 0x00 addr w2 st ∧ exec (.inch addr w2) s = .next t ∧
      t.ctx u = { answeredContext (x.ctx u) st with
        state := if st &&& stCe ≠ 0 then .channelEndPending else .busy } ∧
      (t.chan u.ch).inchValid = true ∧ (t.chan u.ch).inchBase = addr ∧
      (t.chan u.ch).inchCur = addr ∧
      (t.chan u.ch).inchHwm.toNat = addr.toNat + 8 * (w2.count.toNat / 8) - 8 ∧
      x.Frame t nothing (· = u) nothing nothing nothing ∧
      t.stack = rest ∧ t.inputs = (takeStart s).2.inputs ∧
      t.outputs = .engineOutcome u .pending :: x.outputs ∧
      d.ctx u = startedContext (s.ctx u) 0x00 addr w2 ∧
      (d.chan u.ch).fifo = (s.chan u.ch).fifo ∧ (d.chan u.ch).overflow = (s.chan u.ch).overflow ∧
      s.Frame d nothing (· = u) nothing (· = u.ch) nothing ∧
      ((takeStart s).1.calls = [] → x = d)

/-- INCH, WRITE, READ, CONTROL, SENSE and RDBWD: an answer with an immediate-end bit ends the program at
once, chained or not, after the calls the device has made (R133, R142, R323). The residual of the record
is the context's count, for INCH too, whose count no rule lowers: there it is the model's reading (entry 9,
DEDUCED). -/
def Obligations.ImmediateEndStopsTheProgram : Prop :=
  ∀ (i : Instr) (s : State) (u : UnitId) (ticOk : Bool) (rest : List Activation) (code : Byte)
    (addr : Addr) (w2 : CommandWord) (st : Half),
    commandOperands i = some (code, addr, w2) → s.atDescriptor u ticOk rest →
    descriptorBad s.cfg code addr w2 = false → s.nextStartAllowed = true →
    (takeStart s).1.answer = st → st &&& immEnd ≠ 0 →
    ∃ x m, s.CommandAnswered x u rest code addr w2 st ∧ exec i s = .next (x.afterEnd u m) ∧
      x.ProgramEnded m u (endedContext stEnds (stopChaining (answeredContext (x.ctx u) st))) ∧
      m.outputs = .engineOutcome u .error :: x.outputs

/-- INCH, WRITE, READ, CONTROL, SENSE and RDBWD: an answer with both ends and no immediate-end bit ends
the command inside the dispatch, after the calls the device has made; the program ends where nothing chains
(R134, R172, R175). The residual of the record is the context's count, for INCH too: there it is the
model's reading (entry 9, DEDUCED), where vectors G18 to G20 show 0. -/
def Obligations.SynchronousEndFinishesTheProgram : Prop :=
  ∀ (i : Instr) (s x : State) (u : UnitId) (ticOk : Bool) (rest : List Activation) (code : Byte)
    (addr : Addr) (w2 : CommandWord) (st : Half),
    commandOperands i = some (code, addr, w2) → s.atDescriptor u ticOk rest →
    descriptorBad s.cfg code addr w2 = false → s.CommandAnswered x u rest code addr w2 st →
    st &&& immEnd = 0 → st &&& stEnds = stEnds →
    (endedContext 0 (answeredContext (x.ctx u) st)).flags.cc = false ∨
      (endedContext 0 (answeredContext (x.ctx u) st)).status &&& chainAbort ≠ 0 →
    ∃ m, exec i s = .next (x.afterEnd u m) ∧
      x.ProgramEnded m u (endedContext 0 (answeredContext (x.ctx u) st)) ∧
      m.outputs = .engineOutcome u .done :: x.outputs

/-- INCH, WRITE, READ, CONTROL, SENSE and RDBWD: where the command ends inside the dispatch, after the
calls the device has made, with chain-command set after the length check and no chain-abort bit, the
engine goes on at the next descriptor with a Transfer-In-List allowed, and no record is produced (R134,
R172, R174). -/
def Obligations.SynchronousEndChains : Prop :=
  ∀ (i : Instr) (s x : State) (u : UnitId) (ticOk : Bool) (rest : List Activation) (code : Byte)
    (addr : Addr) (w2 : CommandWord) (st : Half),
    commandOperands i = some (code, addr, w2) → s.atDescriptor u ticOk rest →
    descriptorBad s.cfg code addr w2 = false → s.CommandAnswered x u rest code addr w2 st →
    st &&& stEnds = stEnds →
    (endedContext 0 (answeredContext (x.ctx u) st)).flags.cc = true →
    (endedContext 0 (answeredContext (x.ctx u) st)).status &&& chainAbort = 0 →
    ∃ m, exec i s = .next (enterEngine u true m) ∧
      m.ctx u = { x.ctx u with
        state := .awaitingNext,
        status := ((x.ctx u).status ||| st) &&& stPci,
        flags := { (x.ctx u).flags with dc := false } } ∧
      x.Frame m nothing (· = u) nothing nothing nothing ∧
      m.stack = rest ∧ m.inputs = (takeStart s).2.inputs ∧
      m.outputs = .engineOutcome u .done :: x.outputs

/-- INCH, WRITE, READ, CONTROL, SENSE, RDBWD and INVALID complete whatever the operands and whatever
calls and answer the device makes that R303 allows: "all failures surface as status bits". The calls are
made after the dispatch and leave the unit Busy, and every other unit, every queue and the running
procedures as they are. A signal among them stops the machine as a breach of the contract (R303 item 1,
R311, R320). That the calls are for the device's own unit is the model's choice (entry 13, DEDUCED). -/
def Obligations.EveryCommandCompletes : Prop :=
  ∀ (i : Instr) (s : State) (u : UnitId) (ticOk : Bool) (rest : List Activation) (code : Byte)
    (addr : Addr) (w2 : CommandWord),
    commandOperands i = some (code, addr, w2) → s.atDescriptor u ticOk rest →
    (s.nextStartAllowed = true → ∃ t, exec i s = .next t) ∧
    (descriptorBad s.cfg code addr w2 = false → s.nextStartAllowed = true →
      ∃ x, s.CommandAnswered x u rest code addr w2 (takeStart s).1.answer ∧
        (x.ctx u).state = .busy ∧ (∀ v, v ≠ u → x.ctx v = s.ctx v) ∧ (∀ v, x.psq v = s.psq v) ∧
        x.cfg = s.cfg ∧ x.stack = rest ∧ x.inputs = (takeStart s).2.inputs) ∧
    (descriptorBad s.cfg code addr w2 = false → ∀ ds extra ds',
      (takeStart s).1.calls = ds ++ .signal extra :: ds' →
      ds.all (callAllowedInStart s.cfg) = true → exec i s = .fault .signalInsideStart)

/-- TIC: where it is allowed the list address alone is replaced and no second one is allowed; where it
is not, the program ends with a program check (R122, R123, R161). -/
def Obligations.TransferInListIsFollowedOnce : Prop :=
  ∀ (s : State) (u : UnitId) (rest : List Activation) (hi : BitVec 4) (addr : Addr) (ignored : Word),
    (s.stack = .engine u true :: rest →
      exec (.tic hi addr ignored) s = .next
        { s.setCtx u { s.ctx u with listAddr := addr } with stack := .engine u false :: rest }) ∧
    (s.atDescriptor u false rest →
      ∃ m c, exec (.tic hi addr ignored) s = .next ((s.withStack rest).afterEnd u m) ∧
      (s.withStack rest).ProgramEnded m u c ∧
      m.outputs = .engineOutcome u .error :: s.outputs ∧ c.listAddr = (s.ctx u).listAddr ∧
      c.count = (s.ctx u).count ∧ c.status = (s.ctx u).status ||| stPchk ||| stEnds)

/-! ## Channel end -/

/-- A channel end: ignored for an idle unit; otherwise the bits are merged and the length checked, and
where device end is absent the unit waits for it (R170, R172, R173). -/
def Obligations.ChannelEndWithoutDeviceEndWaits : Prop :=
  ∀ (s : State) (u : UnitId) (extra : Half),
    ((s.ctx u).state = .empty → channelEnd u extra s = .ok s) ∧
    ((s.ctx u).state = .busy ∨ (s.ctx u).state = .channelEndPending →
      ((s.ctx u).status ||| extra) &&& stDe = 0 →
      channelEnd u extra s =
        .ok (s.setCtx u { endedContext extra (s.ctx u) with state := .channelEndPending }))

/-- A channel end with device end, chain-command set and no chain-abort bit resumes the list: only the
PCI bit of the status is kept, chain-data is cleared and a Transfer-In-List is allowed (R174). -/
def Obligations.ChannelEndResumesTheChain : Prop :=
  ∀ (s : State) (u : UnitId) (extra : Half),
    (s.ctx u).state = .busy ∨ (s.ctx u).state = .channelEndPending →
    (endedContext extra (s.ctx u)).status &&& stDe ≠ 0 →
    (endedContext extra (s.ctx u)).flags.cc = true →
    (endedContext extra (s.ctx u)).status &&& chainAbort = 0 →
    channelEnd u extra s = .ok (enterEngine u true (s.setCtx u { s.ctx u with
      state := .awaitingNext,
      status := (endedContext extra (s.ctx u)).status &&& stPci,
      flags := { (s.ctx u).flags with dc := false } }))

/-- A channel end with device end that does not chain ends the program with exactly one record
(R175, R176, R186). -/
def Obligations.ChannelEndFinishesTheProgram : Prop :=
  ∀ (s : State) (u : UnitId) (extra : Half),
    (s.ctx u).state = .busy ∨ (s.ctx u).state = .channelEndPending →
    (endedContext extra (s.ctx u)).status &&& stDe ≠ 0 →
    (endedContext extra (s.ctx u)).flags.cc = false ∨
      (endedContext extra (s.ctx u)).status &&& chainAbort ≠ 0 →
    ∃ m, channelEnd u extra s = .ok (s.afterEnd u m) ∧
      s.ProgramEnded m u (endedContext extra (s.ctx u)) ∧ m.outputs = s.outputs

/-- The entry of the engine to begin a command: the unit becomes Busy and the loop runs, or, for a device
that replaces the loop, its walker runs, with the context as it stands (R120, R137, R305,
90_conflicts.md C7). Each act of the walker does what it says: it writes the context, stores a byte of
memory, or makes a call of R301 for the unit; and the walker returns its answer as the engine's outcome,
or stops as a breach of the contract where it leaves the unit AwaitingNext, Posted or Done (R305, R311).
A store beyond memory writes nothing (R61; entry 24, DEDUCED); a walker that leaves its unit Empty by
writing the context dequeues nothing (entry 21). -/
def Obligations.EngineEntryAndWalker : Prop :=
  (∀ (s : State) (u : UnitId) (allow : Bool),
    ((unitCfg s.cfg u).hasOverride = false → enterEngine u allow s =
      { s.setCtx u { s.ctx u with state := .busy } with stack := .engine u allow :: s.stack }) ∧
    ((unitCfg s.cfg u).hasOverride = true → enterEngine u allow s = { s with
      stack := .override u (takeOverride s).1.acts (takeOverride s).1.answer :: s.stack,
      inputs := (takeOverride s).2.inputs,
      outputs := .ioclOverride u (s.ctx u) :: s.outputs })) ∧
  ∀ (s : State) (u : UnitId) (act : OverrideAct) (acts : List OverrideAct) (answer : EngineOutcome)
    (rest : List Activation), s.cfg.wf = true →
    (s.stack = .override u (act :: acts) answer :: rest →
      (∀ c, act = .setContext c →
        step s = .next { s.setCtx u c with stack := .override u acts answer :: rest }) ∧
      (∀ a b, act = .store a b → a.toNat < s.cfg.memSize →
        step s = .next { s.writeByte a.toNat b with stack := .override u acts answer :: rest }) ∧
      (∀ a b, act = .store a b → s.cfg.memSize ≤ a.toNat →
        step s = .next { s with stack := .override u acts answer :: rest }) ∧
      (∀ d, act = .call d →
        step s = outcomeOf (deviceCall u d { s with stack := .override u acts answer :: rest }))) ∧
    (s.stack = .override u [] answer :: rest →
      ((s.ctx u).state = .busy ∨ (s.ctx u).state = .channelEndPending ∨ (s.ctx u).state = .empty →
        step s = .next { s with stack := rest, outputs := .engineOutcome u answer :: s.outputs }) ∧
      ((s.ctx u).state = .awaitingNext ∨ (s.ctx u).state = .posted ∨ (s.ctx u).state = .done →
        step s = .fault .overrideIllegalState))

/-! ## The byte helpers -/

/-- A byte helper's call for a unit that is not Busy answers Error and changes nothing (R154, which is the
spec's decision D40). -/
def Obligations.HelpersOutsideBusyChangeNothing : Prop :=
  ∀ (s : State) (u : UnitId) (b : Byte), (s.ctx u).state ≠ .busy →
    readNextByte u s = (.error, s) ∧ writeNextByte u b s = (.error, s)

/-- The read helper on a Busy unit: with bytes left it answers the byte at the data address, which moves
up by one, or marks a program check where the address is absent; at the end of an unchained descriptor
it answers End. At the end of a chained one it goes on as it does after the re-entry of the engine: where
the next descriptor is accepted, by the new descriptor's address and count; where it is not, it answers
Error (R150, R152). -/
def Obligations.ReadHelperDeliversTheNextByte : Prop :=
  ∀ (s : State) (u : UnitId), (s.ctx u).state = .busy →
    ((s.ctx u).count ≠ 0 → (s.ctx u).dataAddr.toNat < s.cfg.memSize →
      readNextByte u s = (.byte (s.readByte (s.ctx u).dataAddr.toNat),
        s.setCtx u { s.ctx u with dataAddr := (s.ctx u).dataAddr + 1, count := (s.ctx u).count - 1 })) ∧
    ((s.ctx u).count ≠ 0 → s.cfg.memSize ≤ (s.ctx u).dataAddr.toNat →
      readNextByte u s = (.error, s.setCtx u { s.ctx u with
        status := (s.ctx u).status ||| stPchk,
        flags := { (s.ctx u).flags with cc := false, dc := false } })) ∧
    ((s.ctx u).count = 0 → (s.ctx u).flags.dc = false → readNextByte u s = (.endOfData, s)) ∧
    ((s.ctx u).count = 0 → (s.ctx u).flags.dc = true → ∀ t,
      (execDataChain u s = (true, t) → (t.ctx u).state = .busy ∧
        ((t.ctx u).count = 0 → (t.ctx u).flags.dc = false) ∧ readNextByte u s = readNextByte u t) ∧
      (execDataChain u s = (false, t) → readNextByte u s = (.error, t)))

/-- The write helper on a Busy unit: with bytes left it stores the byte at the data address, which then
moves up by one, or down by one for read backward; under SKIP the byte is discarded and the address
kept; an absent address is a program check; at the end of an unchained descriptor it answers End. At the
end of a chained one it goes on as it does after the re-entry of the engine: where the next descriptor is
accepted, by the new descriptor's flags, address and count; where it is not, it answers Error
(R151, R152). -/
def Obligations.WriteHelperStoresTheByte : Prop :=
  ∀ (s : State) (u : UnitId) (b : Byte), (s.ctx u).state = .busy →
    ((s.ctx u).count ≠ 0 → (s.ctx u).flags.skip = true →
      writeNextByte u b s = (.ok, s.setCtx u { s.ctx u with count := (s.ctx u).count - 1 })) ∧
    ((s.ctx u).count ≠ 0 → (s.ctx u).flags.skip = false → (s.ctx u).dataAddr.toNat < s.cfg.memSize →
      ∃ t, writeNextByte u b s = (.ok, t) ∧
        t.readByte (s.ctx u).dataAddr.toNat = b ∧
        t.ctx u = { s.ctx u with
          dataAddr :=
            if classOf (s.ctx u).cmd = .rdbwd then (s.ctx u).dataAddr - 1 else (s.ctx u).dataAddr + 1,
          count := (s.ctx u).count - 1 } ∧
        s.Frame t (· = (s.ctx u).dataAddr.toNat) (· = u) nothing nothing nothing ∧
        t.stack = s.stack ∧ t.inputs = s.inputs ∧ t.outputs = s.outputs) ∧
    ((s.ctx u).count ≠ 0 → (s.ctx u).flags.skip = false → s.cfg.memSize ≤ (s.ctx u).dataAddr.toNat →
      writeNextByte u b s = (.error, s.setCtx u { s.ctx u with
        status := (s.ctx u).status ||| stPchk,
        flags := { (s.ctx u).flags with cc := false, dc := false } })) ∧
    ((s.ctx u).count = 0 → (s.ctx u).flags.dc = false → writeNextByte u b s = (.endOfData, s)) ∧
    ((s.ctx u).count = 0 → (s.ctx u).flags.dc = true → ∀ t,
      (execDataChain u s = (true, t) → (t.ctx u).state = .busy ∧
        ((t.ctx u).count = 0 → (t.ctx u).flags.dc = false) ∧ writeNextByte u b s = writeNextByte u b t) ∧
      (execDataChain u s = (false, t) → writeNextByte u b s = (.error, t)))

/-- The next descriptor of a data chain, found at the list address or by one Transfer-In-List, where it
passes the checks for the command in progress, is loaded with that command's code, whatever its own, and
nothing is dispatched (R122, R123, R124, R130, R131, R152, R161). -/
def Obligations.DataChainKeepsTheCommand : Prop :=
  ∀ (s : State) (u : UnitId) (a : Addr) (w1 w2 : Word),
    (s.ctx u).flags.dc = true → s.chainComesTo u a → s.continuationAt u a false →
    s.readWord a.toNat = w1 → s.readWord (a.toNat + 4) = w2 →
    ∃ t, execDataChain u s = (true, t) ∧
      t.ctx u = { s.ctx u with
        state := .busy, listAddr := a + 8, flags := (decodeCommandWord w2).flags,
        dataAddr := addrOf w1, count := (decodeCommandWord w2).count,
        status :=
          if (decodeCommandWord w2).flags.pci = true then (s.ctx u).status ||| stPci
          else (s.ctx u).status } ∧
      s.Frame t nothing (· = u) nothing nothing nothing ∧
      t.stack = s.stack ∧ t.inputs = s.inputs ∧ t.outputs = s.outputs

/-- A data chain cannot go on exactly where its next descriptor cannot be fetched, is a second
Transfer-In-List, or fails a check for the command in progress; the list address is then the failing
address, or the address after the descriptor. It marks a program check in the context and stops chaining,
and does not end the program: no record, no change but to the unit's context (R121, R122, R139, R141,
R152). -/
def Obligations.DataChainFailureLeavesTheEndToTheDevice : Prop :=
  ∀ (s : State) (u : UnitId),
    ((s.ctx u).flags.dc = true →
      ((∃ t, execDataChain u s = (false, t)) ↔ ∃ l, s.chainStopsAt u l)) ∧
    ∀ t, execDataChain u s = (false, t) →
      ((s.ctx u).flags.dc = true → s.chainStopsAt u (t.ctx u).listAddr) ∧
      (t.ctx u).status = (s.ctx u).status ||| stPchk ∧ (t.ctx u).state = .busy ∧
      (t.ctx u).flags = { (s.ctx u).flags with cc := false, dc := false } ∧
      (t.ctx u).cmd = (s.ctx u).cmd ∧ (t.ctx u).count = (s.ctx u).count ∧
      (t.ctx u).dataAddr = (s.ctx u).dataAddr ∧
      s.Frame t nothing (· = u) nothing nothing nothing ∧
      t.stack = s.stack ∧ t.inputs = s.inputs ∧ t.outputs = s.outputs

/-- A device that moves at most as many bytes as a data chain of counts `n :: ns` over contiguous ascending
addresses holds gets the same answers from the read helper, and, where no byte goes to a descriptor still
to be fetched (R74) and none is skipped, the same answers from the write helper and the same guest memory,
as from one descriptor of the sum of the counts (R150 to R153). -/
def Obligations.ChainedTransfersMoveTheSameBytes : Prop :=
  ∀ (s1 s2 : State) (u : UnitId) (n : Half) (ns : List Half),
    s1.cfg = s2.cfg → (∀ a, s1.readByte a = s2.readByte a) →
    (s1.ctx u).state = .busy → (s2.ctx u).state = .busy →
    (s1.ctx u).dataAddr = (s2.ctx u).dataAddr → isTransfer (s2.ctx u).cmd = true →
    (s1.ctx u).count.toNat = totalCount (n :: ns) → (s1.ctx u).flags.dc = false →
    (s2.ctx u).count = n → ((s2.ctx u).flags.dc = true ↔ ns ≠ []) →
    s2.ChainAt (s2.ctx u).listAddr ((s2.ctx u).dataAddr + n.setWidth 24) ns →
    (∀ k, k ≤ totalCount (n :: ns) → readAnswers u k s1 = readAnswers u k s2) ∧
    ∀ bs : List Byte, bs.length ≤ totalCount (n :: ns) →
      classOf (s1.ctx u).cmd ≠ .rdbwd → classOf (s2.ctx u).cmd ≠ .rdbwd →
      (s1.ctx u).flags.skip = false → (s2.ctx u).flags.skip = false →
      (∀ i, i < ns.length → (decodeCommandWord
        (s2.readWord (((s2.ctx u).listAddr + BitVec.ofNat 24 (8 * i)).toNat + 4))).flags.skip = false) →
      (∀ j, j < bs.length → ∀ i, i < ns.length → ∀ r, r < 8 →
        ((s2.ctx u).dataAddr + BitVec.ofNat 24 j).toNat ≠
          ((s2.ctx u).listAddr + BitVec.ofNat 24 (8 * i)).toNat + r) →
      writeAnswers u bs s1 = writeAnswers u bs s2 ∧
      ∀ a, (afterWrites u bs s1).readByte a = (afterWrites u bs s2).readByte a

/-! ## The Status FIFO, posting and the Pending-Start Queue -/

/-- A store appends at the tail (R178) and a push to the front inserts at the head (R182, decision D39),
where there is room, and the owning level is notified (R231, decision D27); a push to a full FIFO leaves it
as it is and counts the dropped record (R179, decision D42). -/
def Obligations.RecordsAreQueuedOrCounted : Prop :=
  ∀ (s : State) (ch : Nat) (r : Record),
    ((s.chan ch).fifo.length < s.cfg.fifoCap →
      (∃ t, storeStatus ch r s = (.ok, t) ∧
        t.chan ch = { s.chan ch with fifo := (s.chan ch).fifo ++ [r] } ∧ s.LevelNotified t ch ∧
        s.Frame t nothing nothing nothing (· = ch) (channelOwns s.cfg ch · = true)) ∧
      (∃ t, pushStatusFront ch r s = (.ok, t) ∧
        t.chan ch = { s.chan ch with fifo := r :: (s.chan ch).fifo } ∧ s.LevelNotified t ch ∧
        s.Frame t nothing nothing nothing (· = ch) (channelOwns s.cfg ch · = true))) ∧
    (s.cfg.fifoCap ≤ (s.chan ch).fifo.length →
      storeStatus ch r s =
        (.full, s.setChan ch { s.chan ch with overflow := (s.chan ch).overflow + 1 }) ∧
      pushStatusFront ch r s =
        (.full, s.setChan ch { s.chan ch with overflow := (s.chan ch).overflow + 1 }))

/-- A post takes the head of the FIFO, writes its two words at the write pointer with the masked status
bits removed, and moves the pointer to the next slot, or to the base past the high-water mark (compared
without wrap: the model's reading, entry 8); the level of a channel whose FIFO became empty is no longer
requested (R88, R180, R232). -/
def Obligations.PostWritesTheSlot : Prop :=
  ∀ (s : State) (ch : Nat) (mask : Half) (r : Record) (q : List Record),
    (s.chan ch).fifo = r :: q → (s.chan ch).inchValid = true →
    (s.chan ch).inchCur.toNat % 4 = 0 → (s.chan ch).inchCur.toNat + 8 ≤ s.cfg.memSize →
    ∃ t, postStatus ch mask s = some t ∧
      t.readWord (s.chan ch).inchCur.toNat = r.w1 ∧
      t.readWord ((s.chan ch).inchCur.toNat + 4) = r.w2 &&& ~~~(mask.setWidth 32 <<< 16) ∧
      t.chan ch = { s.chan ch with
        fifo := q,
        inchCur :=
          if (s.chan ch).inchHwm.toNat < (s.chan ch).inchCur.toNat + 8 then (s.chan ch).inchBase
          else (s.chan ch).inchCur + 8 } ∧
      (∀ l, t.lvl l =
        if channelOwns s.cfg ch l = true ∧ q = [] then { s.lvl l with requested := false }
        else s.lvl l) ∧
      s.Frame t (fun a => (s.chan ch).inchCur.toNat ≤ a ∧ a < (s.chan ch).inchCur.toNat + 8)
        nothing nothing (· = ch) (channelOwns s.cfg ch · = true) ∧
      t.stack = s.stack ∧ t.inputs = s.inputs ∧ t.outputs = s.outputs

/-- A post fails exactly where no record is queued, no range is loaded, or the slot is misaligned or
absent (R180). -/
def Obligations.PostFailsWithoutRecordOrSlot : Prop :=
  ∀ (s : State) (ch : Nat) (mask : Half), postStatus ch mask s = none ↔
    (s.chan ch).fifo = [] ∨ (s.chan ch).inchValid = false ∨ (s.chan ch).inchCur.toNat % 4 ≠ 0 ∨
      s.cfg.memSize < (s.chan ch).inchCur.toNat + 8

/-- Successive posts write the slots of the status buffer round-robin: with a sound range of `n` slots, a
post from the slot `k` leaves the write pointer at the slot `(k + 1) mod n`, and the range as it is
(R33, R181). -/
def Obligations.SlotsGoRoundRobin : Prop :=
  ∀ (s t : State) (ch : Nat) (mask : Half), s.cfg.wf = true →
    inchRangeOk s.cfg.memSize (s.chan ch) → postStatus ch mask s = some t →
    ∃ k n : Nat, k < n ∧
      (s.chan ch).inchCur.toNat = (s.chan ch).inchBase.toNat + 8 * k ∧
      (s.chan ch).inchHwm.toNat + 8 = (s.chan ch).inchBase.toNat + 8 * n ∧
      (t.chan ch).inchCur.toNat = (s.chan ch).inchBase.toNat + 8 * ((k + 1) % n) ∧
      (t.chan ch).inchBase = (s.chan ch).inchBase ∧ (t.chan ch).inchHwm = (s.chan ch).inchHwm

/-- The Pending-Start Queue: an address is appended where there is room and the queue is unchanged where
there is none; the head is taken, from a unit that has a queue (R211, R212). -/
def Obligations.PendingStartsAreFifo : Prop :=
  ∀ (s : State) (u : UnitId) (a : Addr),
    ((s.psq u).length < s.cfg.psqCap → enqueue u a s = some (s.setPsq u (s.psq u ++ [a]))) ∧
    (s.cfg.psqCap ≤ (s.psq u).length → enqueue u a s = none) ∧
    (∀ q, (unitCfg s.cfg u).hasPsq = true → s.psq u = a :: q →
      dequeue u s = some (a, s.setPsq u q))

/-! ## The XIO operations -/

/-- SIO, TIO, STPIO, HIO, GRIO and RSCTL for a unit that is not reachable, and these and RSCHNL for a
logical channel with no route: DeviceAbsent and no other change (R43, R260, R327). -/
def Obligations.AbsentUnitsAnswerDeviceAbsent : Prop :=
  ∀ (s : State) (lchan : BitVec 7) (sa : Byte) (a : Addr),
    (routeOf s.cfg lchan = none →
      exec (.rschnl lchan sa) s = .next { s with outputs := .xio .deviceAbsent 0x2 :: s.outputs }) ∧
    ((∀ ch, routeOf s.cfg lchan = some ch → reachable s.cfg ⟨ch, sa⟩ = false) →
      ∀ i ∈ [Instr.sio lchan sa a, .tio lchan sa, .stpio lchan sa, .hio lchan sa, .grio lchan sa,
          .rsctl lchan sa],
        exec i s = .next { s with outputs := .xio .deviceAbsent 0x2 :: s.outputs })

/-- SIO on an idle unit whose device is ready, with no status that can be posted: the context is loaded
with the start address and Busy, and the engine is entered with no Transfer-In-List allowed; the answer
Accepted-NoStatus follows when it returns (R261, R262). -/
def Obligations.StartBeginsTheProgram : Prop :=
  ∀ (s : State) (lchan : BitVec 7) (sa : Byte) (a : Addr) (u : UnitId) (pc : PreCheck),
    routedUnit s.cfg lchan sa = some u → (s.ctx u).state = .empty →
    (takePreCheck s).1 = { calls := [], answer := pc } → pc = .ready ∨ pc = .awaitingInit →
    postStatus u.ch 0 s = none →
    exec (.sio lchan sa a) s = .next (enterEngine u false { s.setCtx u
        { state := .busy, listAddr := a, cmd := 0, flags := Flags.none, count := 0, dataAddr := 0,
          status := 0 } with
      stack := .xioReturn .acceptedNoStatus :: s.stack,
      inputs := (takePreCheck s).2.inputs,
      outputs := .preCheck u :: s.outputs })

/-- SIO on an idle unit whose device is ready, with status that can be posted: one record is posted
instead, nothing is started, and the answer is StatusStored (R262, R267, R362). -/
def Obligations.StartPostsQueuedStatusFirst : Prop :=
  ∀ (s p : State) (lchan : BitVec 7) (sa : Byte) (a : Addr) (u : UnitId) (pc : PreCheck),
    routedUnit s.cfg lchan sa = some u → (s.ctx u).state = .empty →
    (takePreCheck s).1 = { calls := [], answer := pc } → pc = .ready ∨ pc = .awaitingInit →
    postStatus u.ch 0 s = some p →
    exec (.sio lchan sa a) s = .next { p with
      inputs := (takePreCheck s).2.inputs,
      outputs := .xio .statusStored 0x4 :: .preCheck u :: s.outputs }

/-- SIO that does not start: the table of R261. A unit in flight with a queue takes the start where its
device does not answer Busy and the queue has room; every other unit in flight answers Busy; an idle
unit whose device is busy answers BusySubchannel. A device that makes a call inside its pre-check breaks
the contract, and the machine stops (R213, R261, R302, R303 item 5, R311, R326). -/
def Obligations.StartOnBusyUnit : Prop :=
  ∀ (s : State) (lchan : BitVec 7) (sa : Byte) (a : Addr) (u : UnitId),
    routedUnit s.cfg lchan sa = some u →
    (∀ pc, (takePreCheck s).1 = { calls := [], answer := pc } →
      ((s.ctx u).state ≠ .empty → (unitCfg s.cfg u).hasPsq = true → pc ≠ .busy →
        (s.psq u).length < s.cfg.psqCap →
        exec (.sio lchan sa a) s = .next { s.setPsq u (s.psq u ++ [a]) with
          inputs := (takePreCheck s).2.inputs,
          outputs := .xio .acceptedQueued 0x8 :: .preCheck u :: s.outputs }) ∧
      ((s.ctx u).state ≠ .empty →
        (unitCfg s.cfg u).hasPsq = false ∨ pc = .busy ∨ s.cfg.psqCap ≤ (s.psq u).length →
        exec (.sio lchan sa a) s = .next { s with
          inputs := (takePreCheck s).2.inputs,
          outputs := .xio .busy 0x1 :: .preCheck u :: s.outputs }) ∧
      ((s.ctx u).state = .empty → pc = .busy ∨ pc = .busyQueueable →
        exec (.sio lchan sa a) s = .next { s with
          inputs := (takePreCheck s).2.inputs,
          outputs := .xio .busySubchannel 0x3 :: .preCheck u :: s.outputs })) ∧
    ((takePreCheck s).1.calls ≠ [] → exec (.sio lchan sa a) s = .fault .callInsidePreCheck)

/-- TIO, and GRIO on an idle unit: the oldest record of the channel is posted where it can be and the
answer is StatusStored, else nothing changes and the answer is Accepted-NoStatus; GRIO on a unit in
flight answers Busy and posts nothing (R263, R266, R267, R369). -/
def Obligations.TestAndGrabPostOneRecord : Prop :=
  ∀ (s : State) (lchan : BitVec 7) (sa : Byte) (u : UnitId), routedUnit s.cfg lchan sa = some u →
    (∀ i ∈ [Instr.tio lchan sa, .grio lchan sa], i = .tio lchan sa ∨ (s.ctx u).state = .empty →
      (∀ p, postStatus u.ch 0 s = some p →
        exec i s = .next { p with outputs := .xio .statusStored 0x4 :: s.outputs }) ∧
      (postStatus u.ch 0 s = none →
        exec i s = .next { s with outputs := .xio .acceptedNoStatus 0x0 :: s.outputs })) ∧
    ((s.ctx u).state ≠ .empty →
      exec (.grio lchan sa) s = .next { s with outputs := .xio .busy 0x1 :: s.outputs })

/-- STPIO: on an idle unit Accepted-NoStatus and no other change; on a unit in flight both chain flags are
cleared and nothing else, and a device's stop callback is then called and its answer follows (R265, R307,
R361). -/
def Obligations.StopClearsTheChainFlags : Prop :=
  ∀ (s : State) (lchan : BitVec 7) (sa : Byte) (u : UnitId), routedUnit s.cfg lchan sa = some u →
    ((s.ctx u).state = .empty → exec (.stpio lchan sa) s =
      .next { s with outputs := .xio .acceptedNoStatus 0x0 :: s.outputs }) ∧
    ((s.ctx u).state ≠ .empty → (unitCfg s.cfg u).hasStop = false → exec (.stpio lchan sa) s =
      .next { s.setCtx u { s.ctx u with flags := { (s.ctx u).flags with cc := false, dc := false } } with
        outputs := .xio .acceptedNoStatus 0x0 :: s.outputs }) ∧
    ((s.ctx u).state ≠ .empty → (unitCfg s.cfg u).hasStop = true → exec (.stpio lchan sa) s =
      .next { s.setCtx u { s.ctx u with flags := { (s.ctx u).flags with cc := false, dc := false } } with
        stack := .callback u (takeStop s).1.calls (takeStop s).1.answer :: s.stack,
        inputs := (takeStop s).2.inputs,
        outputs := .stopCallback u :: s.outputs })

/-- HIO on a unit in flight whose device has no halt of its own: deferred completions are cancelled, the
program ends with CE, DE and EXPT in its record, and one record is posted where it can be; where a queued
start begins, the post waits for its engine (R217, R264, R368). -/
def Obligations.HaltEndsTheProgram : Prop :=
  ∀ (s : State) (lchan : BitVec 7) (sa : Byte) (u : UnitId) (c : Context),
    routedUnit s.cfg lchan sa = some u →
    (s.ctx u).state = .busy ∨ (s.ctx u).state = .channelEndPending →
    (unitCfg s.cfg u).hasHalt = false →
    c = endedContext 0 { s.ctx u with
      status := (s.ctx u).status ||| (stEnds ||| stExpt),
      flags := { (s.ctx u).flags with cc := false, dc := false } } →
    ∃ m, s.ProgramEnded m u c ∧ m.outputs = .cancel u :: s.outputs ∧
      ((unitCfg s.cfg u).hasPsq = false ∨ s.psq u = [] →
        exec (.hio lchan sa) s = .next (match postStatus u.ch 0 m with
          | some p => p.emit (.xio .statusStored 0x4)
          | none => m.emit (.xio .acceptedNoStatus 0x0))) ∧
      ((unitCfg s.cfg u).hasPsq = true → s.psq u ≠ [] →
        exec (.hio lchan sa) s = .next (enterEngine u false (m.push (.haltPost u.ch))))

/-- HIO on an idle unit answers Accepted-NoStatus with no other change. On a unit in flight whose device
halts it itself, deferred completions are cancelled, CE, DE and EXPT are merged and chaining is stopped,
and the device's callback is called (R264, R306). -/
def Obligations.HaltOnIdleOrSelfHaltingUnit : Prop :=
  ∀ (s : State) (lchan : BitVec 7) (sa : Byte) (u : UnitId), routedUnit s.cfg lchan sa = some u →
    ((s.ctx u).state = .empty → exec (.hio lchan sa) s =
      .next { s with outputs := .xio .acceptedNoStatus 0x0 :: s.outputs }) ∧
    ((s.ctx u).state ≠ .empty → (unitCfg s.cfg u).hasHalt = true → exec (.hio lchan sa) s =
      .next { s.setCtx u { s.ctx u with
          status := (s.ctx u).status ||| (stEnds ||| stExpt),
          flags := { (s.ctx u).flags with cc := false, dc := false } } with
        stack := .callback u (takeHalt s).1.calls (takeHalt s).1.answer :: s.stack,
        inputs := (takeHalt s).2.inputs,
        outputs := .haltCallback u :: .cancel u :: s.outputs })

/-- RSCHNL clears the context and queue of every reachable unit of the channel, its FIFO, and its level's
active, pending and requested flags, and keeps the INCH range, the overflow count, the level's enable and
memory. It first cancels every such unit's completions, then calls the reset callback of every such unit
that has one, once each, and answers (R268, R309, R351, R352). The order of the units is the model's: as
the configuration lists them (entry 22). -/
def Obligations.ResetChannelClearsTheChannel : Prop :=
  ∀ (s : State) (lchan : BitVec 7) (sa : Byte) (ch : Nat), routeOf s.cfg lchan = some ch →
    ∃ (t : State) (us : List UnitId), exec (.rschnl lchan sa) s = .next t ∧
      (∀ u, u ∈ us ↔ u.ch = ch ∧ reachable s.cfg u = true) ∧ (s.cfg.wf = true → us.Nodup) ∧
      (∀ u ∈ us, t.ctx u = Context.powerOn ∧ ((unitCfg s.cfg u).hasPsq = true → t.psq u = []) ∧
        ((unitCfg s.cfg u).hasPsq = false → t.psq u = s.psq u)) ∧
      t.chan ch = { s.chan ch with fifo := [] } ∧
      (∀ l, channelOwns s.cfg ch l = true → t.lvl l =
        { s.lvl l with active := false, extPending := false, requested := false }) ∧
      s.Frame t nothing (· ∈ us) (· ∈ us) (· = ch) (channelOwns s.cfg ch · = true) ∧
      t.stack = s.stack ∧ t.inputs = s.inputs ∧
      t.outputs = .xio .acceptedNoStatus 0x0 ::
        (((us.filter fun u => (unitCfg s.cfg u).hasResetChannel).map .resetChannelCallback).reverse ++
          ((us.map .cancel).reverse ++ s.outputs))

/-- RSCTL does so for the units of one controller, with their own reset callback: of the FIFO only their
records go, in order, and the level stays requested where a record remains (R269, R309, R351, R352; the
order of the units: entry 22). -/
def Obligations.ResetControllerClearsItsUnits : Prop :=
  ∀ (s : State) (lchan : BitVec 7) (sa : Byte) (u0 : UnitId), routedUnit s.cfg lchan sa = some u0 →
    ∃ (t : State) (us : List UnitId), exec (.rsctl lchan sa) s = .next t ∧
      (∀ u, u ∈ us ↔ u.ch = u0.ch ∧ reachable s.cfg u = true ∧
        (unitCfg s.cfg u).controller = (unitCfg s.cfg u0).controller) ∧ (s.cfg.wf = true → us.Nodup) ∧
      (∀ u ∈ us, t.ctx u = Context.powerOn ∧ ((unitCfg s.cfg u).hasPsq = true → t.psq u = []) ∧
        ((unitCfg s.cfg u).hasPsq = false → t.psq u = s.psq u)) ∧
      (∃ keep : Record → Bool,
        (∀ r, keep r = true ↔ ∀ u ∈ us, u.sa ≠ r.w1.extractLsb' 24 8) ∧
        t.chan u0.ch = { s.chan u0.ch with fifo := (s.chan u0.ch).fifo.filter keep }) ∧
      (∀ l, channelOwns s.cfg u0.ch l = true → t.lvl l = { s.lvl l with
        active := false, extPending := false,
        requested := decide ((t.chan u0.ch).fifo ≠ []) }) ∧
      s.Frame t nothing (· ∈ us) (· ∈ us) (· = u0.ch) (channelOwns s.cfg u0.ch · = true) ∧
      t.stack = s.stack ∧ t.inputs = s.inputs ∧
      t.outputs = .xio .acceptedNoStatus 0x0 ::
        (((us.filter fun u => (unitCfg s.cfg u).hasResetController).map
            .resetControllerCallback).reverse ++ ((us.map .cancel).reverse ++ s.outputs))

/-! ## Levels -/

/-- ECI, DCI, ACI and DACI on a configured level: what each does to the level, and that it does nothing
else (R270 to R273, by the formulas of R233, R234 and R236, which are the spec's decision D29 and, for ACI,
general knowledge). That a release requests the level again for `ext_pending` alone, with an empty FIFO, is
as R236 reads; that R244 does not list the case is entry 18 (DEDUCED). -/
def Obligations.LevelOperations : Prop :=
  ∀ (s : State) (lev : BitVec 7) (x : Byte) (l : Nat), lev.toNat = l → l < s.cfg.numLevels →
    (levelCfg s.cfg l).configured = true →
    exec (.eci lev x) s = .next ((s.setLvl l { s.lvl l with enabled := true }).emit
      (.xio .acceptedNoStatus 0x0)) ∧
    exec (.dci lev x) s = .next ((s.setLvl l { s.lvl l with enabled := false }).emit
      (.xio .acceptedNoStatus 0x0)) ∧
    exec (.aci lev x) s = .next ((s.setLvl l { s.lvl l with
      extPending := (s.lvl l).extPending || (s.lvl l).requested, requested := false,
      active := true }).emit (.xio .acceptedNoStatus 0x0)) ∧
    ∃ waiting : Bool,
      (waiting = true ↔ ∃ ch, (levelCfg s.cfg l).owner = .chan ch ∧ (s.chan ch).fifo ≠ []) ∧
      exec (.daci lev x) s = .next ((s.setLvl l { s.lvl l with
        active := false, requested := (s.lvl l).extPending || waiting, extPending := false }).emit
        (.xio .acceptedNoStatus 0x0))

/-- ECI, DCI, ACI and DACI on a level that is out of range or not configured, and the five unassigned
function codes: Unsupported and no other change (R230, R259, R328). -/
def Obligations.UnsupportedRequestsChangeNothing : Prop :=
  ∀ (s : State) (lev lchan : BitVec 7) (x sa : Byte),
    (s.cfg.numLevels ≤ lev.toNat ∨ (levelCfg s.cfg lev.toNat).configured = false →
      ∀ i ∈ [Instr.eci lev x, .dci lev x, .aci lev x, .daci lev x],
        exec i s = .next { s with outputs := .xio .unsupported 0x5 :: s.outputs }) ∧
    ∀ i ∈ [Instr.unassigned0 lchan sa, .unassigned1 lchan sa, .unassigned9 lchan sa,
        .unassignedA lchan sa, .unassignedB lchan sa],
      exec i s = .next { s with outputs := .xio .unsupported 0x5 :: s.outputs }

/-- An event of a simple source requests its level, or is remembered where the level is active; the level
of a channel, and one that is not configured, ignore it (R230, R235). -/
def Obligations.SimpleSourcesRaiseTheirLevel : Prop :=
  ∀ (s : State) (l : Nat),
    (l < s.cfg.numLevels → (levelCfg s.cfg l).configured = true → (levelCfg s.cfg l).owner = .simple →
      raiseLevel l s = s.setLvl l
        (if (s.lvl l).active = true then { s.lvl l with extPending := true }
          else { s.lvl l with requested := true })) ∧
    (∀ ch, (levelCfg s.cfg l).owner = .chan ch → raiseLevel l s = s) ∧
    ((levelCfg s.cfg l).configured = false → raiseLevel l s = s)

/-- A scan that is not blocked dispatches the eligible level with the lowest number and no other: it
becomes active and is no longer requested, its ICB is answered, and a channel's level posts one record
where it can, a simple source's none (R240, R244, R245, R246, R335, R336). That the lowest number is the
highest priority is general knowledge and the spec's decision D13 (R241). -/
def Obligations.ScanDispatchesTheHighestPriority : Prop :=
  ∀ (s : State) (l : Nat), s.cfg.wf = true → s.Eligible l → (∀ k, s.Eligible k → l ≤ k) →
    (scanLevels false s).outputs = .scan (.dispatch l (levelCfg s.cfg l).icb) :: s.outputs ∧
    (scanLevels false s).lvl l = { s.lvl l with active := true, requested := false } ∧
    s.Frame (scanLevels false s)
      (fun a => ∃ ch, (levelCfg s.cfg l).owner = .chan ch ∧
        ((postStatus ch 0 s).getD s).readByte a ≠ s.readByte a)
      nothing nothing (fun ch => (levelCfg s.cfg l).owner = .chan ch) (· = l) ∧
    (∀ ch, (levelCfg s.cfg l).owner = .chan ch →
      (scanLevels false s).chan ch = ((postStatus ch 0 s).getD s).chan ch ∧
      ∀ a, (scanLevels false s).readByte a = ((postStatus ch 0 s).getD s).readByte a) ∧
    (scanLevels false s).stack = s.stack ∧ (scanLevels false s).inputs = s.inputs

/-- A scan that the CPU blocks, or that finds no eligible level, answers None and changes nothing
(R240, R242, R246). -/
def Obligations.ScanAnswersNone : Prop :=
  ∀ (s : State) (blocked : Bool), blocked = true ∨ (∀ l, ¬s.Eligible l) →
    scanLevels blocked s = { s with outputs := .scan .none :: s.outputs }
end

