-- ==== Sys2Proof/Laws/State.lean ====
section
/-! SUPPORT. One lemma per field per update of the state, so that no proof unfolds a record update. -/

namespace Sys2Proof.Machine

variable (s : State)

/-! ### `setCtx` -/

@[simp] theorem setCtx_cfg (u : UnitId) (c : Context) : (s.setCtx u c).cfg = s.cfg := rfl
@[simp] theorem setCtx_mem (u : UnitId) (c : Context) : (s.setCtx u c).mem = s.mem := rfl
@[simp] theorem setCtx_psqs (u : UnitId) (c : Context) : (s.setCtx u c).psqs = s.psqs := rfl
@[simp] theorem setCtx_chans (u : UnitId) (c : Context) : (s.setCtx u c).chans = s.chans := rfl
@[simp] theorem setCtx_levels (u : UnitId) (c : Context) : (s.setCtx u c).levels = s.levels := rfl
@[simp] theorem setCtx_stack (u : UnitId) (c : Context) : (s.setCtx u c).stack = s.stack := rfl
@[simp] theorem setCtx_inputs (u : UnitId) (c : Context) : (s.setCtx u c).inputs = s.inputs := rfl
@[simp] theorem setCtx_outputs (u : UnitId) (c : Context) : (s.setCtx u c).outputs = s.outputs := rfl
@[simp] theorem setCtx_readByte (u : UnitId) (c : Context) (k : Nat) : (s.setCtx u c).readByte k = s.readByte k := rfl
@[simp] theorem setCtx_psq (u : UnitId) (c : Context) (v : UnitId) : (s.setCtx u c).psq v = s.psq v := rfl
@[simp] theorem setCtx_chan (u : UnitId) (c : Context) (k : Nat) : (s.setCtx u c).chan k = s.chan k := rfl
@[simp] theorem setCtx_lvl (u : UnitId) (c : Context) (k : Nat) : (s.setCtx u c).lvl k = s.lvl k := rfl
@[simp] theorem setCtx_statusQueued (u : UnitId) (c : Context) (k : Nat) : (s.setCtx u c).statusQueued k = s.statusQueued k := rfl
@[simp] theorem setCtx_readWord (u : UnitId) (c : Context) (k : Nat) : (s.setCtx u c).readWord k = s.readWord k := rfl

/-! ### `setPsq` -/

@[simp] theorem setPsq_cfg (u : UnitId) (q : List Addr) : (s.setPsq u q).cfg = s.cfg := rfl
@[simp] theorem setPsq_mem (u : UnitId) (q : List Addr) : (s.setPsq u q).mem = s.mem := rfl
@[simp] theorem setPsq_ctxs (u : UnitId) (q : List Addr) : (s.setPsq u q).ctxs = s.ctxs := rfl
@[simp] theorem setPsq_chans (u : UnitId) (q : List Addr) : (s.setPsq u q).chans = s.chans := rfl
@[simp] theorem setPsq_levels (u : UnitId) (q : List Addr) : (s.setPsq u q).levels = s.levels := rfl
@[simp] theorem setPsq_stack (u : UnitId) (q : List Addr) : (s.setPsq u q).stack = s.stack := rfl
@[simp] theorem setPsq_inputs (u : UnitId) (q : List Addr) : (s.setPsq u q).inputs = s.inputs := rfl
@[simp] theorem setPsq_outputs (u : UnitId) (q : List Addr) : (s.setPsq u q).outputs = s.outputs := rfl
@[simp] theorem setPsq_readByte (u : UnitId) (q : List Addr) (k : Nat) : (s.setPsq u q).readByte k = s.readByte k := rfl
@[simp] theorem setPsq_ctx (u : UnitId) (q : List Addr) (v : UnitId) : (s.setPsq u q).ctx v = s.ctx v := rfl
@[simp] theorem setPsq_chan (u : UnitId) (q : List Addr) (k : Nat) : (s.setPsq u q).chan k = s.chan k := rfl
@[simp] theorem setPsq_lvl (u : UnitId) (q : List Addr) (k : Nat) : (s.setPsq u q).lvl k = s.lvl k := rfl
@[simp] theorem setPsq_statusQueued (u : UnitId) (q : List Addr) (k : Nat) : (s.setPsq u q).statusQueued k = s.statusQueued k := rfl
@[simp] theorem setPsq_readWord (u : UnitId) (q : List Addr) (k : Nat) : (s.setPsq u q).readWord k = s.readWord k := rfl

/-! ### `setChan` -/

@[simp] theorem setChan_cfg (ch : Nat) (c : Channel) : (s.setChan ch c).cfg = s.cfg := rfl
@[simp] theorem setChan_mem (ch : Nat) (c : Channel) : (s.setChan ch c).mem = s.mem := rfl
@[simp] theorem setChan_ctxs (ch : Nat) (c : Channel) : (s.setChan ch c).ctxs = s.ctxs := rfl
@[simp] theorem setChan_psqs (ch : Nat) (c : Channel) : (s.setChan ch c).psqs = s.psqs := rfl
@[simp] theorem setChan_levels (ch : Nat) (c : Channel) : (s.setChan ch c).levels = s.levels := rfl
@[simp] theorem setChan_stack (ch : Nat) (c : Channel) : (s.setChan ch c).stack = s.stack := rfl
@[simp] theorem setChan_inputs (ch : Nat) (c : Channel) : (s.setChan ch c).inputs = s.inputs := rfl
@[simp] theorem setChan_outputs (ch : Nat) (c : Channel) : (s.setChan ch c).outputs = s.outputs := rfl
@[simp] theorem setChan_readByte (ch : Nat) (c : Channel) (k : Nat) : (s.setChan ch c).readByte k = s.readByte k := rfl
@[simp] theorem setChan_ctx (ch : Nat) (c : Channel) (v : UnitId) : (s.setChan ch c).ctx v = s.ctx v := rfl
@[simp] theorem setChan_psq (ch : Nat) (c : Channel) (v : UnitId) : (s.setChan ch c).psq v = s.psq v := rfl
@[simp] theorem setChan_lvl (ch : Nat) (c : Channel) (k : Nat) : (s.setChan ch c).lvl k = s.lvl k := rfl
@[simp] theorem setChan_readWord (ch : Nat) (c : Channel) (k : Nat) : (s.setChan ch c).readWord k = s.readWord k := rfl

/-! ### `setLvl` -/

@[simp] theorem setLvl_cfg (l : Nat) (x : Level) : (s.setLvl l x).cfg = s.cfg := rfl
@[simp] theorem setLvl_mem (l : Nat) (x : Level) : (s.setLvl l x).mem = s.mem := rfl
@[simp] theorem setLvl_ctxs (l : Nat) (x : Level) : (s.setLvl l x).ctxs = s.ctxs := rfl
@[simp] theorem setLvl_psqs (l : Nat) (x : Level) : (s.setLvl l x).psqs = s.psqs := rfl
@[simp] theorem setLvl_chans (l : Nat) (x : Level) : (s.setLvl l x).chans = s.chans := rfl
@[simp] theorem setLvl_stack (l : Nat) (x : Level) : (s.setLvl l x).stack = s.stack := rfl
@[simp] theorem setLvl_inputs (l : Nat) (x : Level) : (s.setLvl l x).inputs = s.inputs := rfl
@[simp] theorem setLvl_outputs (l : Nat) (x : Level) : (s.setLvl l x).outputs = s.outputs := rfl
@[simp] theorem setLvl_readByte (l : Nat) (x : Level) (k : Nat) : (s.setLvl l x).readByte k = s.readByte k := rfl
@[simp] theorem setLvl_ctx (l : Nat) (x : Level) (v : UnitId) : (s.setLvl l x).ctx v = s.ctx v := rfl
@[simp] theorem setLvl_psq (l : Nat) (x : Level) (v : UnitId) : (s.setLvl l x).psq v = s.psq v := rfl
@[simp] theorem setLvl_chan (l : Nat) (x : Level) (k : Nat) : (s.setLvl l x).chan k = s.chan k := rfl
@[simp] theorem setLvl_statusQueued (l : Nat) (x : Level) (k : Nat) : (s.setLvl l x).statusQueued k = s.statusQueued k := rfl
@[simp] theorem setLvl_readWord (l : Nat) (x : Level) (k : Nat) : (s.setLvl l x).readWord k = s.readWord k := rfl

/-! ### `writeByte` -/

@[simp] theorem writeByte_cfg (a : Nat) (b : Byte) : (s.writeByte a b).cfg = s.cfg := rfl
@[simp] theorem writeByte_ctxs (a : Nat) (b : Byte) : (s.writeByte a b).ctxs = s.ctxs := rfl
@[simp] theorem writeByte_psqs (a : Nat) (b : Byte) : (s.writeByte a b).psqs = s.psqs := rfl
@[simp] theorem writeByte_chans (a : Nat) (b : Byte) : (s.writeByte a b).chans = s.chans := rfl
@[simp] theorem writeByte_levels (a : Nat) (b : Byte) : (s.writeByte a b).levels = s.levels := rfl
@[simp] theorem writeByte_stack (a : Nat) (b : Byte) : (s.writeByte a b).stack = s.stack := rfl
@[simp] theorem writeByte_inputs (a : Nat) (b : Byte) : (s.writeByte a b).inputs = s.inputs := rfl
@[simp] theorem writeByte_outputs (a : Nat) (b : Byte) : (s.writeByte a b).outputs = s.outputs := rfl
@[simp] theorem writeByte_ctx (a : Nat) (b : Byte) (v : UnitId) : (s.writeByte a b).ctx v = s.ctx v := rfl
@[simp] theorem writeByte_psq (a : Nat) (b : Byte) (v : UnitId) : (s.writeByte a b).psq v = s.psq v := rfl
@[simp] theorem writeByte_chan (a : Nat) (b : Byte) (k : Nat) : (s.writeByte a b).chan k = s.chan k := rfl
@[simp] theorem writeByte_lvl (a : Nat) (b : Byte) (k : Nat) : (s.writeByte a b).lvl k = s.lvl k := rfl
@[simp] theorem writeByte_statusQueued (a : Nat) (b : Byte) (k : Nat) : (s.writeByte a b).statusQueued k = s.statusQueued k := rfl

/-! ### `emit` -/

@[simp] theorem emit_cfg (o : Output) : (s.emit o).cfg = s.cfg := rfl
@[simp] theorem emit_mem (o : Output) : (s.emit o).mem = s.mem := rfl
@[simp] theorem emit_ctxs (o : Output) : (s.emit o).ctxs = s.ctxs := rfl
@[simp] theorem emit_psqs (o : Output) : (s.emit o).psqs = s.psqs := rfl
@[simp] theorem emit_chans (o : Output) : (s.emit o).chans = s.chans := rfl
@[simp] theorem emit_levels (o : Output) : (s.emit o).levels = s.levels := rfl
@[simp] theorem emit_stack (o : Output) : (s.emit o).stack = s.stack := rfl
@[simp] theorem emit_inputs (o : Output) : (s.emit o).inputs = s.inputs := rfl
@[simp] theorem emit_outputs (o : Output) : (s.emit o).outputs = o :: s.outputs := rfl
@[simp] theorem emit_readByte (o : Output) (k : Nat) : (s.emit o).readByte k = s.readByte k := rfl
@[simp] theorem emit_ctx (o : Output) (v : UnitId) : (s.emit o).ctx v = s.ctx v := rfl
@[simp] theorem emit_psq (o : Output) (v : UnitId) : (s.emit o).psq v = s.psq v := rfl
@[simp] theorem emit_chan (o : Output) (k : Nat) : (s.emit o).chan k = s.chan k := rfl
@[simp] theorem emit_lvl (o : Output) (k : Nat) : (s.emit o).lvl k = s.lvl k := rfl
@[simp] theorem emit_statusQueued (o : Output) (k : Nat) : (s.emit o).statusQueued k = s.statusQueued k := rfl
@[simp] theorem emit_readWord (o : Output) (k : Nat) : (s.emit o).readWord k = s.readWord k := rfl

/-! ### `push` -/

@[simp] theorem push_cfg (a : Activation) : (s.push a).cfg = s.cfg := rfl
@[simp] theorem push_mem (a : Activation) : (s.push a).mem = s.mem := rfl
@[simp] theorem push_ctxs (a : Activation) : (s.push a).ctxs = s.ctxs := rfl
@[simp] theorem push_psqs (a : Activation) : (s.push a).psqs = s.psqs := rfl
@[simp] theorem push_chans (a : Activation) : (s.push a).chans = s.chans := rfl
@[simp] theorem push_levels (a : Activation) : (s.push a).levels = s.levels := rfl
@[simp] theorem push_stack (a : Activation) : (s.push a).stack = a :: s.stack := rfl
@[simp] theorem push_inputs (a : Activation) : (s.push a).inputs = s.inputs := rfl
@[simp] theorem push_outputs (a : Activation) : (s.push a).outputs = s.outputs := rfl
@[simp] theorem push_readByte (a : Activation) (k : Nat) : (s.push a).readByte k = s.readByte k := rfl
@[simp] theorem push_ctx (a : Activation) (v : UnitId) : (s.push a).ctx v = s.ctx v := rfl
@[simp] theorem push_psq (a : Activation) (v : UnitId) : (s.push a).psq v = s.psq v := rfl
@[simp] theorem push_chan (a : Activation) (k : Nat) : (s.push a).chan k = s.chan k := rfl
@[simp] theorem push_lvl (a : Activation) (k : Nat) : (s.push a).lvl k = s.lvl k := rfl
@[simp] theorem push_statusQueued (a : Activation) (k : Nat) : (s.push a).statusQueued k = s.statusQueued k := rfl
@[simp] theorem push_readWord (a : Activation) (k : Nat) : (s.push a).readWord k = s.readWord k := rfl

/-! ### `withStack` -/

@[simp] theorem withStack_cfg (st : List Activation) : (s.withStack st).cfg = s.cfg := rfl
@[simp] theorem withStack_mem (st : List Activation) : (s.withStack st).mem = s.mem := rfl
@[simp] theorem withStack_ctxs (st : List Activation) : (s.withStack st).ctxs = s.ctxs := rfl
@[simp] theorem withStack_psqs (st : List Activation) : (s.withStack st).psqs = s.psqs := rfl
@[simp] theorem withStack_chans (st : List Activation) : (s.withStack st).chans = s.chans := rfl
@[simp] theorem withStack_levels (st : List Activation) : (s.withStack st).levels = s.levels := rfl
@[simp] theorem withStack_stack (st : List Activation) : (s.withStack st).stack = st := rfl
@[simp] theorem withStack_inputs (st : List Activation) : (s.withStack st).inputs = s.inputs := rfl
@[simp] theorem withStack_outputs (st : List Activation) : (s.withStack st).outputs = s.outputs := rfl
@[simp] theorem withStack_readByte (st : List Activation) (k : Nat) : (s.withStack st).readByte k = s.readByte k := rfl
@[simp] theorem withStack_ctx (st : List Activation) (v : UnitId) : (s.withStack st).ctx v = s.ctx v := rfl
@[simp] theorem withStack_psq (st : List Activation) (v : UnitId) : (s.withStack st).psq v = s.psq v := rfl
@[simp] theorem withStack_chan (st : List Activation) (k : Nat) : (s.withStack st).chan k = s.chan k := rfl
@[simp] theorem withStack_lvl (st : List Activation) (k : Nat) : (s.withStack st).lvl k = s.lvl k := rfl
@[simp] theorem withStack_statusQueued (st : List Activation) (k : Nat) : (s.withStack st).statusQueued k = s.statusQueued k := rfl
@[simp] theorem withStack_readWord (st : List Activation) (k : Nat) : (s.withStack st).readWord k = s.readWord k := rfl

/-! ### `withInputs` -/

@[simp] theorem withInputs_cfg (i : Inputs) : (s.withInputs i).cfg = s.cfg := rfl
@[simp] theorem withInputs_mem (i : Inputs) : (s.withInputs i).mem = s.mem := rfl
@[simp] theorem withInputs_ctxs (i : Inputs) : (s.withInputs i).ctxs = s.ctxs := rfl
@[simp] theorem withInputs_psqs (i : Inputs) : (s.withInputs i).psqs = s.psqs := rfl
@[simp] theorem withInputs_chans (i : Inputs) : (s.withInputs i).chans = s.chans := rfl
@[simp] theorem withInputs_levels (i : Inputs) : (s.withInputs i).levels = s.levels := rfl
@[simp] theorem withInputs_stack (i : Inputs) : (s.withInputs i).stack = s.stack := rfl
@[simp] theorem withInputs_inputs (i : Inputs) : (s.withInputs i).inputs = i := rfl
@[simp] theorem withInputs_outputs (i : Inputs) : (s.withInputs i).outputs = s.outputs := rfl
@[simp] theorem withInputs_readByte (i : Inputs) (k : Nat) : (s.withInputs i).readByte k = s.readByte k := rfl
@[simp] theorem withInputs_ctx (i : Inputs) (v : UnitId) : (s.withInputs i).ctx v = s.ctx v := rfl
@[simp] theorem withInputs_psq (i : Inputs) (v : UnitId) : (s.withInputs i).psq v = s.psq v := rfl
@[simp] theorem withInputs_chan (i : Inputs) (k : Nat) : (s.withInputs i).chan k = s.chan k := rfl
@[simp] theorem withInputs_lvl (i : Inputs) (k : Nat) : (s.withInputs i).lvl k = s.lvl k := rfl
@[simp] theorem withInputs_statusQueued (i : Inputs) (k : Nat) : (s.withInputs i).statusQueued k = s.statusQueued k := rfl
@[simp] theorem withInputs_readWord (i : Inputs) (k : Nat) : (s.withInputs i).readWord k = s.readWord k := rfl

end Sys2Proof.Machine
end

