-- ==== Sys2Proof/Laws/Table.lean ====
section
/-! SUPPORT. The laws of the canonical tables: a read after a write to the same key, to another key, and
that every write keeps the canonical form. The first two hold of every list. -/

namespace Sys2Proof.Machine

variable {α : Type} [DecidableEq α] (d : α)

omit [DecidableEq α] in
theorem tableGet_dropWhile_le (k j : Nat) (hj : k < j) (t : List (Nat × α)) :
    tableGet d j (t.dropWhile fun e => decide (e.1 ≤ k)) = tableGet d j t := by
  induction t with
  | nil => rfl
  | cons e t ih =>
    obtain ⟨i, w⟩ := e
    by_cases h : i ≤ k
    · rw [List.dropWhile_cons_of_pos (by simpa using h), ih]
      simp only [tableGet]
      rw [if_neg (by omega), if_neg (by omega)]
    · rw [List.dropWhile_cons_of_neg (by simpa using h)]

omit [DecidableEq α] in
theorem tableGet_dropWhile_same (k : Nat) (t : List (Nat × α)) :
    tableGet d k (t.dropWhile fun e => decide (e.1 ≤ k)) = d := by
  induction t with
  | nil => rfl
  | cons e t ih =>
    obtain ⟨i, w⟩ := e
    by_cases h : i ≤ k
    · rw [List.dropWhile_cons_of_pos (by simpa using h), ih]
    · rw [List.dropWhile_cons_of_neg (by simpa using h)]
      simp only [tableGet]
      rw [if_pos (by omega)]

@[simp] theorem tableGet_tablePut_same (k : Nat) (v : α) (t : List (Nat × α)) :
    tableGet d k (tablePut d k v t) = v := by
  induction t with
  | nil => by_cases hv : v = d <;> simp [tablePut, tableGet, hv]
  | cons e t ih =>
    obtain ⟨i, w⟩ := e
    simp only [tablePut]
    split
    · split
      · simp_all [tableGet]
      · simp [tableGet]
    · split
      · split
        · simp_all [tableGet_dropWhile_same]
        · simp [tableGet]
      · simp only [tableGet]
        rw [if_neg ‹_›, if_neg ‹_›, ih]

theorem tableGet_tablePut_other (k j : Nat) (v : α) (t : List (Nat × α)) (h : j ≠ k) :
    tableGet d j (tablePut d k v t) = tableGet d j t := by
  induction t with
  | nil =>
    by_cases hv : v = d <;> simp [tablePut, tableGet, hv, h]
  | cons e t ih =>
    obtain ⟨i, w⟩ := e
    simp only [tablePut]
    by_cases h1 : k < i
    · rw [if_pos h1]
      split
      · rfl
      · simp only [tableGet]
        by_cases h2 : j < k
        · rw [if_pos h2, if_pos (by omega)]
        · rw [if_neg h2, if_neg h]
    · rw [if_neg h1]
      by_cases h2 : k = i
      · subst h2
        rw [if_pos rfl]
        split
        · simp only [tableGet]
          by_cases h3 : j < k
          · rw [if_pos h3]
            cases hd : t.dropWhile (fun e => decide (e.1 ≤ k)) with
            | nil => rfl
            | cons f r =>
              have hf : ¬ (decide (f.1 ≤ k)) = true := by
                have := List.head?_dropWhile_not (fun e : Nat × α => decide (e.1 ≤ k)) t
                rw [hd] at this
                simpa using this
              obtain ⟨fi, fw⟩ := f
              simp only [tableGet]
              rw [if_pos (by simp at hf; omega)]
          · rw [if_neg h3, if_neg h, tableGet_dropWhile_le d k j (by omega)]
        · simp only [tableGet]
          by_cases h3 : j < k
          · rw [if_pos h3, if_pos h3]
          · rw [if_neg h3, if_neg h, if_neg h3, if_neg h]
      · rw [if_neg h2]
        simp only [tableGet, ih]

theorem tableOkFrom_mono {lo lo' : Nat} (h : lo' ≤ lo) {t : List (Nat × α)}
    (ht : tableOkFrom d lo t = true) : tableOkFrom d lo' t = true := by
  cases t with
  | nil => rfl
  | cons e t =>
    obtain ⟨i, w⟩ := e
    simp only [tableOkFrom, Bool.and_eq_true, decide_eq_true_eq] at ht ⊢
    exact ⟨⟨le_trans h ht.1.1, ht.1.2⟩, ht.2⟩

theorem dropWhile_of_okFrom {k : Nat} {t : List (Nat × α)} (ht : tableOkFrom d (k + 1) t = true) :
    t.dropWhile (fun e => decide (e.1 ≤ k)) = t := by
  cases t with
  | nil => rfl
  | cons e t =>
    obtain ⟨i, w⟩ := e
    simp only [tableOkFrom, Bool.and_eq_true, decide_eq_true_eq] at ht
    rw [List.dropWhile_cons_of_neg (by simp; omega)]

theorem tableOkFrom_tablePut {lo k : Nat} (v : α) (hk : lo ≤ k) (t : List (Nat × α))
    (ht : tableOkFrom d lo t = true) : tableOkFrom d lo (tablePut d k v t) = true := by
  induction t generalizing lo with
  | nil => by_cases hv : v = d <;> simp [tablePut, tableOkFrom, hv, hk]
  | cons e t ih =>
    obtain ⟨i, w⟩ := e
    have hc := ht
    simp only [tableOkFrom, Bool.and_eq_true, decide_eq_true_eq] at hc
    simp only [tablePut]
    split
    · split
      · exact ht
      · simp only [tableOkFrom, Bool.and_eq_true, decide_eq_true_eq]
        exact ⟨⟨hk, ‹_›⟩, ⟨by omega, hc.1.2⟩, hc.2⟩
    · split
      · subst_vars
        split
        · rw [dropWhile_of_okFrom d hc.2]
          exact tableOkFrom_mono d (by omega) hc.2
        · simp only [tableOkFrom, Bool.and_eq_true, decide_eq_true_eq]
          exact ⟨⟨hk, ‹_›⟩, hc.2⟩
      · simp only [tableOkFrom, Bool.and_eq_true, decide_eq_true_eq]
        exact ⟨hc.1, ih (by omega) hc.2⟩

/-- Every write keeps the canonical form. -/
theorem tableOk_tablePut (k : Nat) (v : α) (t : List (Nat × α)) (ht : tableOk d t = true) :
    tableOk d (tablePut d k v t) = true :=
  tableOkFrom_tablePut d v (Nat.zero_le k) t ht

end Sys2Proof.Machine
end

