-- ==== Sys2Proof/Laws/Memory.lean ====
section
/-! SUPPORT. What a read gives after a write, for every part of the state that is read through an
accessor, and that every write keeps the canonical form. -/

namespace Sys2Proof.Machine

theorem UnitId.key_inj {u v : UnitId} : u.key = v.key ↔ u = v := by
  constructor
  · intro h
    obtain ⟨c, a⟩ := u
    obtain ⟨c', a'⟩ := v
    have ha := a.isLt
    have ha' := a'.isLt
    simp only [UnitId.key] at h
    have hc : c = c' := by omega
    subst hc
    have : a = a' := BitVec.eq_of_toNat_eq (by omega)
    rw [this]
  · rintro rfl; rfl

variable (s : State)

@[simp] theorem ctx_setCtx_same (u : UnitId) (c : Context) : (s.setCtx u c).ctx u = c :=
  tableGet_tablePut_same _ _ _ _

theorem ctx_setCtx_other {u v : UnitId} (c : Context) (h : v ≠ u) :
    (s.setCtx u c).ctx v = s.ctx v :=
  tableGet_tablePut_other _ _ _ _ _ fun e => h (UnitId.key_inj.1 e)

theorem ctx_setCtx (u v : UnitId) (c : Context) :
    (s.setCtx u c).ctx v = if v = u then c else s.ctx v := by
  by_cases h : v = u
  · subst h; simp
  · simp [h, ctx_setCtx_other s c h]

@[simp] theorem psq_setPsq_same (u : UnitId) (q : List Addr) : (s.setPsq u q).psq u = q :=
  tableGet_tablePut_same _ _ _ _

theorem psq_setPsq (u v : UnitId) (q : List Addr) :
    (s.setPsq u q).psq v = if v = u then q else s.psq v := by
  by_cases h : v = u
  · subst h; simp
  · rw [if_neg h]
    exact tableGet_tablePut_other _ _ _ _ _ fun e => h (UnitId.key_inj.1 e)

@[simp] theorem chan_setChan_same (ch : Nat) (c : Channel) : (s.setChan ch c).chan ch = c :=
  tableGet_tablePut_same _ _ _ _

theorem chan_setChan (ch k : Nat) (c : Channel) :
    (s.setChan ch c).chan k = if k = ch then c else s.chan k := by
  by_cases h : k = ch
  · subst h; simp
  · rw [if_neg h]; exact tableGet_tablePut_other _ _ _ _ _ h

@[simp] theorem lvl_setLvl_same (l : Nat) (x : Level) : (s.setLvl l x).lvl l = x :=
  tableGet_tablePut_same _ _ _ _

theorem lvl_setLvl (l k : Nat) (x : Level) :
    (s.setLvl l x).lvl k = if k = l then x else s.lvl k := by
  by_cases h : k = l
  · subst h; simp
  · rw [if_neg h]; exact tableGet_tablePut_other _ _ _ _ _ h

@[simp] theorem readByte_writeByte_same (a : Nat) (b : Byte) : (s.writeByte a b).readByte a = b :=
  tableGet_tablePut_same _ _ _ _

theorem readByte_writeByte (a k : Nat) (b : Byte) :
    (s.writeByte a b).readByte k = if k = a then b else s.readByte k := by
  by_cases h : k = a
  · subst h; simp
  · rw [if_neg h]; exact tableGet_tablePut_other _ _ _ _ _ h

/-- All that a store of the CPU or of a walker can do: it writes its byte, or its address is absent and it
writes nothing (R61). -/
theorem storeByte_cases (a : Addr) (b : Byte) :
    (a.toNat < s.cfg.memSize ∧ s.storeByte a b = s.writeByte a.toNat b) ∨
      (s.cfg.memSize ≤ a.toNat ∧ s.storeByte a b = s) := by
  by_cases h : a.toNat < s.cfg.memSize
  · exact .inl ⟨h, if_pos (decide_eq_true h)⟩
  · exact .inr ⟨Nat.le_of_not_lt h, if_neg (fun hm => h (of_decide_eq_true hm))⟩

theorem readByte_writeWord (a k : Nat) (v : Word) :
    (s.writeWord a v).readByte k =
      if k = a then v.extractLsb' 24 8 else if k = a + 1 then v.extractLsb' 16 8
      else if k = a + 2 then v.extractLsb' 8 8 else if k = a + 3 then v.extractLsb' 0 8
      else s.readByte k := by
  simp only [State.writeWord, readByte_writeByte]
  split_ifs <;> first | rfl | omega

theorem readByte_writeWord_outside {a k : Nat} (v : Word) (h : k < a ∨ a + 4 ≤ k) :
    (s.writeWord a v).readByte k = s.readByte k := by
  rw [readByte_writeWord]
  split_ifs <;> first | rfl | omega

theorem word_of_bytes (v : Word) :
    (v.extractLsb' 24 8 ++ v.extractLsb' 16 8 ++ v.extractLsb' 8 8 ++ v.extractLsb' 0 8 :
      BitVec (8 + 8 + 8 + 8)) = v := by
  apply BitVec.eq_of_getLsbD_eq
  intro i hi
  simp only [BitVec.getLsbD_append, BitVec.getLsbD_extractLsb']
  by_cases h0 : i < 8
  · simp [h0]
  · by_cases h1 : i < 16
    · simp [h0, show i - 8 < 8 by omega, show 8 + (i - 8) = i by omega]
    · by_cases h2 : i < 24
      · simp [h0, show ¬ i - 8 < 8 by omega, show i - 8 - 8 < 8 by omega,
          show 16 + (i - 8 - 8) = i by omega]
      · simp [h0, show ¬ i - 8 < 8 by omega, show ¬ i - 8 - 8 < 8 by omega,
          show i - 8 - 8 - 8 < 8 by omega, show 24 + (i - 8 - 8 - 8) = i by omega]

theorem readWord_writeWord_same (a : Nat) (v : Word) : (s.writeWord a v).readWord a = v := by
  rw [← word_of_bytes v]
  simp [State.readWord, readByte_writeWord, word_of_bytes]

theorem readWord_writeWord_outside {a k : Nat} (v : Word) (h : k + 4 ≤ a ∨ a + 4 ≤ k) :
    (s.writeWord a v).readWord k = s.readWord k := by
  have hb : ∀ j, j < 4 → (s.writeWord a v).readByte (k + j) = s.readByte (k + j) := fun j hj =>
    readByte_writeWord_outside s v (by omega)
  simp only [State.readWord]
  rw [hb 1 (by omega), hb 2 (by omega), hb 3 (by omega)]
  have := hb 0 (by omega)
  simp only [Nat.add_zero] at this
  rw [this]

/-! ### The canonical form is kept -/

theorem writeByte_wf (a : Nat) (b : Byte) (h : Memory.wf s.mem = true) :
    Memory.wf (s.writeByte a b).mem = true :=
  tableOk_tablePut _ a b s.mem h

theorem storeByte_wf (a : Addr) (b : Byte) (h : Memory.wf s.mem = true) :
    Memory.wf (s.storeByte a b).mem = true := by
  obtain ⟨-, hs⟩ | ⟨-, hs⟩ := storeByte_cases s a b <;> rw [hs]
  · exact writeByte_wf s _ _ h
  · exact h

theorem writeWord_wf (a : Nat) (v : Word) (h : Memory.wf s.mem = true) :
    Memory.wf (s.writeWord a v).mem = true :=
  writeByte_wf _ _ _ (writeByte_wf _ _ _ (writeByte_wf _ _ _ (writeByte_wf _ _ _ h)))

theorem reset_mem_wf : Memory.wf State.reset.mem = true := rfl

theorem setCtx_ok (u : UnitId) (c : Context) (h : tableOk Context.powerOn s.ctxs = true) :
    tableOk Context.powerOn (s.setCtx u c).ctxs = true := tableOk_tablePut _ _ _ _ h

theorem setPsq_ok (u : UnitId) (q : List Addr) (h : tableOk [] s.psqs = true) :
    tableOk [] (s.setPsq u q).psqs = true := tableOk_tablePut _ _ _ _ h

theorem setChan_ok (ch : Nat) (c : Channel) (h : tableOk Channel.powerOn s.chans = true) :
    tableOk Channel.powerOn (s.setChan ch c).chans = true := tableOk_tablePut _ _ _ _ h

theorem setLvl_ok (l : Nat) (x : Level) (h : tableOk Level.powerOn s.levels = true) :
    tableOk Level.powerOn (s.setLvl l x).levels = true := tableOk_tablePut _ _ _ _ h

/-! ### A word written leaves every other field -/

@[simp] theorem writeWord_cfg (a : Nat) (v : Word) : (s.writeWord a v).cfg = s.cfg := rfl
@[simp] theorem writeWord_ctxs (a : Nat) (v : Word) : (s.writeWord a v).ctxs = s.ctxs := rfl
@[simp] theorem writeWord_psqs (a : Nat) (v : Word) : (s.writeWord a v).psqs = s.psqs := rfl
@[simp] theorem writeWord_chans (a : Nat) (v : Word) : (s.writeWord a v).chans = s.chans := rfl
@[simp] theorem writeWord_levels (a : Nat) (v : Word) : (s.writeWord a v).levels = s.levels := rfl
@[simp] theorem writeWord_stack (a : Nat) (v : Word) : (s.writeWord a v).stack = s.stack := rfl
@[simp] theorem writeWord_inputs (a : Nat) (v : Word) : (s.writeWord a v).inputs = s.inputs := rfl
@[simp] theorem writeWord_outputs (a : Nat) (v : Word) : (s.writeWord a v).outputs = s.outputs := rfl
@[simp] theorem writeWord_ctx (a : Nat) (v : Word) (u : UnitId) :
    (s.writeWord a v).ctx u = s.ctx u := rfl
@[simp] theorem writeWord_psq (a : Nat) (v : Word) (u : UnitId) :
    (s.writeWord a v).psq u = s.psq u := rfl
@[simp] theorem writeWord_chan (a : Nat) (v : Word) (k : Nat) :
    (s.writeWord a v).chan k = s.chan k := rfl
@[simp] theorem writeWord_lvl (a : Nat) (v : Word) (k : Nat) :
    (s.writeWord a v).lvl k = s.lvl k := rfl

end Sys2Proof.Machine
end

