-- ==== Sys2Proof/Laws/Frames.lean ====
section
/-! SUPPORT. What each shared operation leaves alone: one lemma per field it does not write. -/

namespace Sys2Proof.Machine

variable (s : State)

/-- `dequeue` answers exactly where the unit has a queue with an element. -/
theorem dequeue_eq_some (u : UnitId) {a : Addr} {t : State} :
    dequeue u s = some (a, t) ↔
      (unitCfg s.cfg u).hasPsq = true ∧ ∃ rest, s.psq u = a :: rest ∧ t = s.setPsq u rest := by
  unfold dequeue
  by_cases h : (unitCfg s.cfg u).hasPsq = true
  · cases hq : s.psq u with
    | nil => simp [h]
    | cons x rest =>
      simp only [h, if_true, Option.some.injEq, Prod.mk.injEq, List.cons.injEq, true_and]
      constructor
      · rintro ⟨rfl, rfl⟩; exact ⟨rest, ⟨rfl, rfl⟩, rfl⟩
      · rintro ⟨_, ⟨rfl, rfl⟩, rfl⟩; exact ⟨rfl, rfl⟩
  · simp [h]

/-- `dequeue` answers nothing exactly where the unit has no queue or an empty one. -/
theorem dequeue_eq_none (u : UnitId) :
    dequeue u s = none ↔ (unitCfg s.cfg u).hasPsq = false ∨ s.psq u = [] := by
  unfold dequeue
  split
  · split <;> simp_all
  · simp_all

/-! ### `onChannelLevel` -/

@[simp] theorem onChannelLevel_cfg (ch : Nat) (f : Level → Level) : (s.onChannelLevel ch f).cfg = s.cfg := by
  unfold State.onChannelLevel; split <;> [split; skip] <;> rfl
@[simp] theorem onChannelLevel_mem (ch : Nat) (f : Level → Level) : (s.onChannelLevel ch f).mem = s.mem := by
  unfold State.onChannelLevel; split <;> [split; skip] <;> rfl
@[simp] theorem onChannelLevel_ctxs (ch : Nat) (f : Level → Level) : (s.onChannelLevel ch f).ctxs = s.ctxs := by
  unfold State.onChannelLevel; split <;> [split; skip] <;> rfl
@[simp] theorem onChannelLevel_psqs (ch : Nat) (f : Level → Level) : (s.onChannelLevel ch f).psqs = s.psqs := by
  unfold State.onChannelLevel; split <;> [split; skip] <;> rfl
@[simp] theorem onChannelLevel_chans (ch : Nat) (f : Level → Level) : (s.onChannelLevel ch f).chans = s.chans := by
  unfold State.onChannelLevel; split <;> [split; skip] <;> rfl
@[simp] theorem onChannelLevel_stack (ch : Nat) (f : Level → Level) : (s.onChannelLevel ch f).stack = s.stack := by
  unfold State.onChannelLevel; split <;> [split; skip] <;> rfl
@[simp] theorem onChannelLevel_inputs (ch : Nat) (f : Level → Level) : (s.onChannelLevel ch f).inputs = s.inputs := by
  unfold State.onChannelLevel; split <;> [split; skip] <;> rfl
@[simp] theorem onChannelLevel_outputs (ch : Nat) (f : Level → Level) : (s.onChannelLevel ch f).outputs = s.outputs := by
  unfold State.onChannelLevel; split <;> [split; skip] <;> rfl
@[simp] theorem onChannelLevel_readByte (ch : Nat) (f : Level → Level) (k : Nat) : (s.onChannelLevel ch f).readByte k = s.readByte k :=
  congrArg (tableGet _ _) (onChannelLevel_mem s ch f)
@[simp] theorem onChannelLevel_ctx (ch : Nat) (f : Level → Level) (v : UnitId) : (s.onChannelLevel ch f).ctx v = s.ctx v :=
  congrArg (tableGet _ _) (onChannelLevel_ctxs s ch f)
@[simp] theorem onChannelLevel_psq (ch : Nat) (f : Level → Level) (v : UnitId) : (s.onChannelLevel ch f).psq v = s.psq v :=
  congrArg (tableGet _ _) (onChannelLevel_psqs s ch f)
@[simp] theorem onChannelLevel_chan (ch : Nat) (f : Level → Level) (k : Nat) : (s.onChannelLevel ch f).chan k = s.chan k :=
  congrArg (tableGet _ _) (onChannelLevel_chans s ch f)

/-! ### `dropRecord` -/

@[simp] theorem dropRecord_cfg (ch : Nat) : (s.dropRecord ch).cfg = s.cfg := by
  rfl
@[simp] theorem dropRecord_mem (ch : Nat) : (s.dropRecord ch).mem = s.mem := by
  rfl
@[simp] theorem dropRecord_ctxs (ch : Nat) : (s.dropRecord ch).ctxs = s.ctxs := by
  rfl
@[simp] theorem dropRecord_psqs (ch : Nat) : (s.dropRecord ch).psqs = s.psqs := by
  rfl
@[simp] theorem dropRecord_levels (ch : Nat) : (s.dropRecord ch).levels = s.levels := by
  rfl
@[simp] theorem dropRecord_stack (ch : Nat) : (s.dropRecord ch).stack = s.stack := by
  rfl
@[simp] theorem dropRecord_inputs (ch : Nat) : (s.dropRecord ch).inputs = s.inputs := by
  rfl
@[simp] theorem dropRecord_outputs (ch : Nat) : (s.dropRecord ch).outputs = s.outputs := by
  rfl
@[simp] theorem dropRecord_readByte (ch : Nat) (k : Nat) : (s.dropRecord ch).readByte k = s.readByte k :=
  congrArg (tableGet _ _) (dropRecord_mem s ch)
@[simp] theorem dropRecord_ctx (ch : Nat) (v : UnitId) : (s.dropRecord ch).ctx v = s.ctx v :=
  congrArg (tableGet _ _) (dropRecord_ctxs s ch)
@[simp] theorem dropRecord_psq (ch : Nat) (v : UnitId) : (s.dropRecord ch).psq v = s.psq v :=
  congrArg (tableGet _ _) (dropRecord_psqs s ch)
@[simp] theorem dropRecord_lvl (ch : Nat) (k : Nat) : (s.dropRecord ch).lvl k = s.lvl k :=
  congrArg (tableGet _ _) (dropRecord_levels s ch)

/-! ### `storeStatus` -/

@[simp] theorem storeStatus_cfg (ch : Nat) (r : Record) : (storeStatus ch r s).2.cfg = s.cfg := by
  unfold storeStatus; split <;> simp
@[simp] theorem storeStatus_mem (ch : Nat) (r : Record) : (storeStatus ch r s).2.mem = s.mem := by
  unfold storeStatus; split <;> simp
@[simp] theorem storeStatus_ctxs (ch : Nat) (r : Record) : (storeStatus ch r s).2.ctxs = s.ctxs := by
  unfold storeStatus; split <;> simp
@[simp] theorem storeStatus_psqs (ch : Nat) (r : Record) : (storeStatus ch r s).2.psqs = s.psqs := by
  unfold storeStatus; split <;> simp
@[simp] theorem storeStatus_stack (ch : Nat) (r : Record) : (storeStatus ch r s).2.stack = s.stack := by
  unfold storeStatus; split <;> simp
@[simp] theorem storeStatus_inputs (ch : Nat) (r : Record) : (storeStatus ch r s).2.inputs = s.inputs := by
  unfold storeStatus; split <;> simp
@[simp] theorem storeStatus_outputs (ch : Nat) (r : Record) : (storeStatus ch r s).2.outputs = s.outputs := by
  unfold storeStatus; split <;> simp
@[simp] theorem storeStatus_readByte (ch : Nat) (r : Record) (k : Nat) : (storeStatus ch r s).2.readByte k = s.readByte k :=
  congrArg (tableGet _ _) (storeStatus_mem s ch r)
@[simp] theorem storeStatus_ctx (ch : Nat) (r : Record) (v : UnitId) : (storeStatus ch r s).2.ctx v = s.ctx v :=
  congrArg (tableGet _ _) (storeStatus_ctxs s ch r)
@[simp] theorem storeStatus_psq (ch : Nat) (r : Record) (v : UnitId) : (storeStatus ch r s).2.psq v = s.psq v :=
  congrArg (tableGet _ _) (storeStatus_psqs s ch r)

/-! ### `pushStatusFront` -/

@[simp] theorem pushStatusFront_cfg (ch : Nat) (r : Record) : (pushStatusFront ch r s).2.cfg = s.cfg := by
  unfold pushStatusFront; split <;> simp
@[simp] theorem pushStatusFront_mem (ch : Nat) (r : Record) : (pushStatusFront ch r s).2.mem = s.mem := by
  unfold pushStatusFront; split <;> simp
@[simp] theorem pushStatusFront_ctxs (ch : Nat) (r : Record) : (pushStatusFront ch r s).2.ctxs = s.ctxs := by
  unfold pushStatusFront; split <;> simp
@[simp] theorem pushStatusFront_psqs (ch : Nat) (r : Record) : (pushStatusFront ch r s).2.psqs = s.psqs := by
  unfold pushStatusFront; split <;> simp
@[simp] theorem pushStatusFront_stack (ch : Nat) (r : Record) : (pushStatusFront ch r s).2.stack = s.stack := by
  unfold pushStatusFront; split <;> simp
@[simp] theorem pushStatusFront_inputs (ch : Nat) (r : Record) : (pushStatusFront ch r s).2.inputs = s.inputs := by
  unfold pushStatusFront; split <;> simp
@[simp] theorem pushStatusFront_outputs (ch : Nat) (r : Record) : (pushStatusFront ch r s).2.outputs = s.outputs := by
  unfold pushStatusFront; split <;> simp
@[simp] theorem pushStatusFront_readByte (ch : Nat) (r : Record) (k : Nat) : (pushStatusFront ch r s).2.readByte k = s.readByte k :=
  congrArg (tableGet _ _) (pushStatusFront_mem s ch r)
@[simp] theorem pushStatusFront_ctx (ch : Nat) (r : Record) (v : UnitId) : (pushStatusFront ch r s).2.ctx v = s.ctx v :=
  congrArg (tableGet _ _) (pushStatusFront_ctxs s ch r)
@[simp] theorem pushStatusFront_psq (ch : Nat) (r : Record) (v : UnitId) : (pushStatusFront ch r s).2.psq v = s.psq v :=
  congrArg (tableGet _ _) (pushStatusFront_psqs s ch r)

/-! ### `takePreCheck` -/

@[simp] theorem takePreCheck_cfg : (takePreCheck s).2.cfg = s.cfg := by
  unfold takePreCheck; split <;> rfl
@[simp] theorem takePreCheck_mem : (takePreCheck s).2.mem = s.mem := by
  unfold takePreCheck; split <;> rfl
@[simp] theorem takePreCheck_ctxs : (takePreCheck s).2.ctxs = s.ctxs := by
  unfold takePreCheck; split <;> rfl
@[simp] theorem takePreCheck_psqs : (takePreCheck s).2.psqs = s.psqs := by
  unfold takePreCheck; split <;> rfl
@[simp] theorem takePreCheck_chans : (takePreCheck s).2.chans = s.chans := by
  unfold takePreCheck; split <;> rfl
@[simp] theorem takePreCheck_levels : (takePreCheck s).2.levels = s.levels := by
  unfold takePreCheck; split <;> rfl
@[simp] theorem takePreCheck_stack : (takePreCheck s).2.stack = s.stack := by
  unfold takePreCheck; split <;> rfl
@[simp] theorem takePreCheck_outputs : (takePreCheck s).2.outputs = s.outputs := by
  unfold takePreCheck; split <;> rfl
@[simp] theorem takePreCheck_readByte (k : Nat) : (takePreCheck s).2.readByte k = s.readByte k :=
  congrArg (tableGet _ _) (takePreCheck_mem s)
@[simp] theorem takePreCheck_ctx (v : UnitId) : (takePreCheck s).2.ctx v = s.ctx v :=
  congrArg (tableGet _ _) (takePreCheck_ctxs s)
@[simp] theorem takePreCheck_psq (v : UnitId) : (takePreCheck s).2.psq v = s.psq v :=
  congrArg (tableGet _ _) (takePreCheck_psqs s)
@[simp] theorem takePreCheck_chan (k : Nat) : (takePreCheck s).2.chan k = s.chan k :=
  congrArg (tableGet _ _) (takePreCheck_chans s)
@[simp] theorem takePreCheck_lvl (k : Nat) : (takePreCheck s).2.lvl k = s.lvl k :=
  congrArg (tableGet _ _) (takePreCheck_levels s)

/-! ### `takeStart` -/

@[simp] theorem takeStart_cfg : (takeStart s).2.cfg = s.cfg := by
  unfold takeStart; split <;> rfl
@[simp] theorem takeStart_mem : (takeStart s).2.mem = s.mem := by
  unfold takeStart; split <;> rfl
@[simp] theorem takeStart_ctxs : (takeStart s).2.ctxs = s.ctxs := by
  unfold takeStart; split <;> rfl
@[simp] theorem takeStart_psqs : (takeStart s).2.psqs = s.psqs := by
  unfold takeStart; split <;> rfl
@[simp] theorem takeStart_chans : (takeStart s).2.chans = s.chans := by
  unfold takeStart; split <;> rfl
@[simp] theorem takeStart_levels : (takeStart s).2.levels = s.levels := by
  unfold takeStart; split <;> rfl
@[simp] theorem takeStart_stack : (takeStart s).2.stack = s.stack := by
  unfold takeStart; split <;> rfl
@[simp] theorem takeStart_outputs : (takeStart s).2.outputs = s.outputs := by
  unfold takeStart; split <;> rfl
@[simp] theorem takeStart_readByte (k : Nat) : (takeStart s).2.readByte k = s.readByte k :=
  congrArg (tableGet _ _) (takeStart_mem s)
@[simp] theorem takeStart_ctx (v : UnitId) : (takeStart s).2.ctx v = s.ctx v :=
  congrArg (tableGet _ _) (takeStart_ctxs s)
@[simp] theorem takeStart_psq (v : UnitId) : (takeStart s).2.psq v = s.psq v :=
  congrArg (tableGet _ _) (takeStart_psqs s)
@[simp] theorem takeStart_chan (k : Nat) : (takeStart s).2.chan k = s.chan k :=
  congrArg (tableGet _ _) (takeStart_chans s)
@[simp] theorem takeStart_lvl (k : Nat) : (takeStart s).2.lvl k = s.lvl k :=
  congrArg (tableGet _ _) (takeStart_levels s)

/-! ### `takeHalt` -/

@[simp] theorem takeHalt_cfg : (takeHalt s).2.cfg = s.cfg := by
  unfold takeHalt; split <;> rfl
@[simp] theorem takeHalt_mem : (takeHalt s).2.mem = s.mem := by
  unfold takeHalt; split <;> rfl
@[simp] theorem takeHalt_ctxs : (takeHalt s).2.ctxs = s.ctxs := by
  unfold takeHalt; split <;> rfl
@[simp] theorem takeHalt_psqs : (takeHalt s).2.psqs = s.psqs := by
  unfold takeHalt; split <;> rfl
@[simp] theorem takeHalt_chans : (takeHalt s).2.chans = s.chans := by
  unfold takeHalt; split <;> rfl
@[simp] theorem takeHalt_levels : (takeHalt s).2.levels = s.levels := by
  unfold takeHalt; split <;> rfl
@[simp] theorem takeHalt_stack : (takeHalt s).2.stack = s.stack := by
  unfold takeHalt; split <;> rfl
@[simp] theorem takeHalt_outputs : (takeHalt s).2.outputs = s.outputs := by
  unfold takeHalt; split <;> rfl
@[simp] theorem takeHalt_readByte (k : Nat) : (takeHalt s).2.readByte k = s.readByte k :=
  congrArg (tableGet _ _) (takeHalt_mem s)
@[simp] theorem takeHalt_ctx (v : UnitId) : (takeHalt s).2.ctx v = s.ctx v :=
  congrArg (tableGet _ _) (takeHalt_ctxs s)
@[simp] theorem takeHalt_psq (v : UnitId) : (takeHalt s).2.psq v = s.psq v :=
  congrArg (tableGet _ _) (takeHalt_psqs s)
@[simp] theorem takeHalt_chan (k : Nat) : (takeHalt s).2.chan k = s.chan k :=
  congrArg (tableGet _ _) (takeHalt_chans s)
@[simp] theorem takeHalt_lvl (k : Nat) : (takeHalt s).2.lvl k = s.lvl k :=
  congrArg (tableGet _ _) (takeHalt_levels s)

/-! ### `takeStop` -/

@[simp] theorem takeStop_cfg : (takeStop s).2.cfg = s.cfg := by
  unfold takeStop; split <;> rfl
@[simp] theorem takeStop_mem : (takeStop s).2.mem = s.mem := by
  unfold takeStop; split <;> rfl
@[simp] theorem takeStop_ctxs : (takeStop s).2.ctxs = s.ctxs := by
  unfold takeStop; split <;> rfl
@[simp] theorem takeStop_psqs : (takeStop s).2.psqs = s.psqs := by
  unfold takeStop; split <;> rfl
@[simp] theorem takeStop_chans : (takeStop s).2.chans = s.chans := by
  unfold takeStop; split <;> rfl
@[simp] theorem takeStop_levels : (takeStop s).2.levels = s.levels := by
  unfold takeStop; split <;> rfl
@[simp] theorem takeStop_stack : (takeStop s).2.stack = s.stack := by
  unfold takeStop; split <;> rfl
@[simp] theorem takeStop_outputs : (takeStop s).2.outputs = s.outputs := by
  unfold takeStop; split <;> rfl
@[simp] theorem takeStop_readByte (k : Nat) : (takeStop s).2.readByte k = s.readByte k :=
  congrArg (tableGet _ _) (takeStop_mem s)
@[simp] theorem takeStop_ctx (v : UnitId) : (takeStop s).2.ctx v = s.ctx v :=
  congrArg (tableGet _ _) (takeStop_ctxs s)
@[simp] theorem takeStop_psq (v : UnitId) : (takeStop s).2.psq v = s.psq v :=
  congrArg (tableGet _ _) (takeStop_psqs s)
@[simp] theorem takeStop_chan (k : Nat) : (takeStop s).2.chan k = s.chan k :=
  congrArg (tableGet _ _) (takeStop_chans s)
@[simp] theorem takeStop_lvl (k : Nat) : (takeStop s).2.lvl k = s.lvl k :=
  congrArg (tableGet _ _) (takeStop_levels s)

/-! ### `takeOverride` -/

@[simp] theorem takeOverride_cfg : (takeOverride s).2.cfg = s.cfg := by
  unfold takeOverride; split <;> rfl
@[simp] theorem takeOverride_mem : (takeOverride s).2.mem = s.mem := by
  unfold takeOverride; split <;> rfl
@[simp] theorem takeOverride_ctxs : (takeOverride s).2.ctxs = s.ctxs := by
  unfold takeOverride; split <;> rfl
@[simp] theorem takeOverride_psqs : (takeOverride s).2.psqs = s.psqs := by
  unfold takeOverride; split <;> rfl
@[simp] theorem takeOverride_chans : (takeOverride s).2.chans = s.chans := by
  unfold takeOverride; split <;> rfl
@[simp] theorem takeOverride_levels : (takeOverride s).2.levels = s.levels := by
  unfold takeOverride; split <;> rfl
@[simp] theorem takeOverride_stack : (takeOverride s).2.stack = s.stack := by
  unfold takeOverride; split <;> rfl
@[simp] theorem takeOverride_outputs : (takeOverride s).2.outputs = s.outputs := by
  unfold takeOverride; split <;> rfl
@[simp] theorem takeOverride_readByte (k : Nat) : (takeOverride s).2.readByte k = s.readByte k :=
  congrArg (tableGet _ _) (takeOverride_mem s)
@[simp] theorem takeOverride_ctx (v : UnitId) : (takeOverride s).2.ctx v = s.ctx v :=
  congrArg (tableGet _ _) (takeOverride_ctxs s)
@[simp] theorem takeOverride_psq (v : UnitId) : (takeOverride s).2.psq v = s.psq v :=
  congrArg (tableGet _ _) (takeOverride_psqs s)
@[simp] theorem takeOverride_chan (k : Nat) : (takeOverride s).2.chan k = s.chan k :=
  congrArg (tableGet _ _) (takeOverride_chans s)
@[simp] theorem takeOverride_lvl (k : Nat) : (takeOverride s).2.lvl k = s.lvl k :=
  congrArg (tableGet _ _) (takeOverride_levels s)

/-! ### `setTransfer` -/

@[simp] theorem setTransfer_cfg (u : UnitId) (t : TransferState) : (s.setTransfer u t).cfg = s.cfg := by
  rfl
@[simp] theorem setTransfer_mem (u : UnitId) (t : TransferState) : (s.setTransfer u t).mem = s.mem := by
  rfl
@[simp] theorem setTransfer_psqs (u : UnitId) (t : TransferState) : (s.setTransfer u t).psqs = s.psqs := by
  rfl
@[simp] theorem setTransfer_chans (u : UnitId) (t : TransferState) : (s.setTransfer u t).chans = s.chans := by
  rfl
@[simp] theorem setTransfer_levels (u : UnitId) (t : TransferState) : (s.setTransfer u t).levels = s.levels := by
  rfl
@[simp] theorem setTransfer_stack (u : UnitId) (t : TransferState) : (s.setTransfer u t).stack = s.stack := by
  rfl
@[simp] theorem setTransfer_inputs (u : UnitId) (t : TransferState) : (s.setTransfer u t).inputs = s.inputs := by
  rfl
@[simp] theorem setTransfer_outputs (u : UnitId) (t : TransferState) : (s.setTransfer u t).outputs = s.outputs := by
  rfl
@[simp] theorem setTransfer_readByte (u : UnitId) (t : TransferState) (k : Nat) : (s.setTransfer u t).readByte k = s.readByte k :=
  congrArg (tableGet _ _) (setTransfer_mem s u t)
@[simp] theorem setTransfer_psq (u : UnitId) (t : TransferState) (v : UnitId) : (s.setTransfer u t).psq v = s.psq v :=
  congrArg (tableGet _ _) (setTransfer_psqs s u t)
@[simp] theorem setTransfer_chan (u : UnitId) (t : TransferState) (k : Nat) : (s.setTransfer u t).chan k = s.chan k :=
  congrArg (tableGet _ _) (setTransfer_chans s u t)
@[simp] theorem setTransfer_lvl (u : UnitId) (t : TransferState) (k : Nat) : (s.setTransfer u t).lvl k = s.lvl k :=
  congrArg (tableGet _ _) (setTransfer_levels s u t)

/-! ### `answer` -/

@[simp] theorem answer_cfg (o : XioOutcome) : (s.answer o).cfg = s.cfg := by
  rfl
@[simp] theorem answer_mem (o : XioOutcome) : (s.answer o).mem = s.mem := by
  rfl
@[simp] theorem answer_ctxs (o : XioOutcome) : (s.answer o).ctxs = s.ctxs := by
  rfl
@[simp] theorem answer_psqs (o : XioOutcome) : (s.answer o).psqs = s.psqs := by
  rfl
@[simp] theorem answer_chans (o : XioOutcome) : (s.answer o).chans = s.chans := by
  rfl
@[simp] theorem answer_levels (o : XioOutcome) : (s.answer o).levels = s.levels := by
  rfl
@[simp] theorem answer_stack (o : XioOutcome) : (s.answer o).stack = s.stack := by
  rfl
@[simp] theorem answer_inputs (o : XioOutcome) : (s.answer o).inputs = s.inputs := by
  rfl
@[simp] theorem answer_readByte (o : XioOutcome) (k : Nat) : (s.answer o).readByte k = s.readByte k :=
  congrArg (tableGet _ _) (answer_mem s o)
@[simp] theorem answer_ctx (o : XioOutcome) (v : UnitId) : (s.answer o).ctx v = s.ctx v :=
  congrArg (tableGet _ _) (answer_ctxs s o)
@[simp] theorem answer_psq (o : XioOutcome) (v : UnitId) : (s.answer o).psq v = s.psq v :=
  congrArg (tableGet _ _) (answer_psqs s o)
@[simp] theorem answer_chan (o : XioOutcome) (k : Nat) : (s.answer o).chan k = s.chan k :=
  congrArg (tableGet _ _) (answer_chans s o)
@[simp] theorem answer_lvl (o : XioOutcome) (k : Nat) : (s.answer o).lvl k = s.lvl k :=
  congrArg (tableGet _ _) (answer_levels s o)

/-! ### `enterEngine` -/

@[simp] theorem enterEngine_cfg (u : UnitId) (allow : Bool) : (enterEngine u allow s).cfg = s.cfg := by
  unfold enterEngine; split <;> simp
@[simp] theorem enterEngine_mem (u : UnitId) (allow : Bool) : (enterEngine u allow s).mem = s.mem := by
  unfold enterEngine; split <;> simp
@[simp] theorem enterEngine_psqs (u : UnitId) (allow : Bool) : (enterEngine u allow s).psqs = s.psqs := by
  unfold enterEngine; split <;> simp
@[simp] theorem enterEngine_chans (u : UnitId) (allow : Bool) : (enterEngine u allow s).chans = s.chans := by
  unfold enterEngine; split <;> simp
@[simp] theorem enterEngine_levels (u : UnitId) (allow : Bool) : (enterEngine u allow s).levels = s.levels := by
  unfold enterEngine; split <;> simp
@[simp] theorem enterEngine_readByte (u : UnitId) (allow : Bool) (k : Nat) : (enterEngine u allow s).readByte k = s.readByte k :=
  congrArg (tableGet _ _) (enterEngine_mem s u allow)
@[simp] theorem enterEngine_psq (u : UnitId) (allow : Bool) (v : UnitId) : (enterEngine u allow s).psq v = s.psq v :=
  congrArg (tableGet _ _) (enterEngine_psqs s u allow)
@[simp] theorem enterEngine_chan (u : UnitId) (allow : Bool) (k : Nat) : (enterEngine u allow s).chan k = s.chan k :=
  congrArg (tableGet _ _) (enterEngine_chans s u allow)
@[simp] theorem enterEngine_lvl (u : UnitId) (allow : Bool) (k : Nat) : (enterEngine u allow s).lvl k = s.lvl k :=
  congrArg (tableGet _ _) (enterEngine_levels s u allow)

/-! ### `finishProgram` -/

@[simp] theorem finishProgram_cfg (u : UnitId) (c : Context) : (finishProgram u c s).1.cfg = s.cfg := by
  unfold finishProgram; dsimp only; split
  · obtain ⟨_, rest, _, rfl⟩ := (dequeue_eq_some _ _).1 ‹_›; simp
  · simp
@[simp] theorem finishProgram_mem (u : UnitId) (c : Context) : (finishProgram u c s).1.mem = s.mem := by
  unfold finishProgram; dsimp only; split
  · obtain ⟨_, rest, _, rfl⟩ := (dequeue_eq_some _ _).1 ‹_›; simp
  · simp
@[simp] theorem finishProgram_stack (u : UnitId) (c : Context) : (finishProgram u c s).1.stack = s.stack := by
  unfold finishProgram; dsimp only; split
  · obtain ⟨_, rest, _, rfl⟩ := (dequeue_eq_some _ _).1 ‹_›; simp
  · simp
@[simp] theorem finishProgram_inputs (u : UnitId) (c : Context) : (finishProgram u c s).1.inputs = s.inputs := by
  unfold finishProgram; dsimp only; split
  · obtain ⟨_, rest, _, rfl⟩ := (dequeue_eq_some _ _).1 ‹_›; simp
  · simp
@[simp] theorem finishProgram_outputs (u : UnitId) (c : Context) : (finishProgram u c s).1.outputs = s.outputs := by
  unfold finishProgram; dsimp only; split
  · obtain ⟨_, rest, _, rfl⟩ := (dequeue_eq_some _ _).1 ‹_›; simp
  · simp
@[simp] theorem finishProgram_readByte (u : UnitId) (c : Context) (k : Nat) : (finishProgram u c s).1.readByte k = s.readByte k :=
  congrArg (tableGet _ _) (finishProgram_mem s u c)

/-! ### `programCheckData` -/

@[simp] theorem programCheckData_cfg (u : UnitId) : (programCheckData u s).cfg = s.cfg := by
  rfl
@[simp] theorem programCheckData_mem (u : UnitId) : (programCheckData u s).mem = s.mem := by
  rfl
@[simp] theorem programCheckData_psqs (u : UnitId) : (programCheckData u s).psqs = s.psqs := by
  rfl
@[simp] theorem programCheckData_chans (u : UnitId) : (programCheckData u s).chans = s.chans := by
  rfl
@[simp] theorem programCheckData_levels (u : UnitId) : (programCheckData u s).levels = s.levels := by
  rfl
@[simp] theorem programCheckData_stack (u : UnitId) : (programCheckData u s).stack = s.stack := by
  rfl
@[simp] theorem programCheckData_inputs (u : UnitId) : (programCheckData u s).inputs = s.inputs := by
  rfl
@[simp] theorem programCheckData_outputs (u : UnitId) : (programCheckData u s).outputs = s.outputs := by
  rfl
@[simp] theorem programCheckData_readByte (u : UnitId) (k : Nat) : (programCheckData u s).readByte k = s.readByte k :=
  congrArg (tableGet _ _) (programCheckData_mem s u)
@[simp] theorem programCheckData_psq (u : UnitId) (v : UnitId) : (programCheckData u s).psq v = s.psq v :=
  congrArg (tableGet _ _) (programCheckData_psqs s u)
@[simp] theorem programCheckData_chan (u : UnitId) (k : Nat) : (programCheckData u s).chan k = s.chan k :=
  congrArg (tableGet _ _) (programCheckData_chans s u)
@[simp] theorem programCheckData_lvl (u : UnitId) (k : Nat) : (programCheckData u s).lvl k = s.lvl k :=
  congrArg (tableGet _ _) (programCheckData_levels s u)

/-! ### `releaseLevel` -/

@[simp] theorem releaseLevel_cfg (l : Nat) : (releaseLevel l s).cfg = s.cfg := by
  rfl
@[simp] theorem releaseLevel_mem (l : Nat) : (releaseLevel l s).mem = s.mem := by
  rfl
@[simp] theorem releaseLevel_ctxs (l : Nat) : (releaseLevel l s).ctxs = s.ctxs := by
  rfl
@[simp] theorem releaseLevel_psqs (l : Nat) : (releaseLevel l s).psqs = s.psqs := by
  rfl
@[simp] theorem releaseLevel_chans (l : Nat) : (releaseLevel l s).chans = s.chans := by
  rfl
@[simp] theorem releaseLevel_stack (l : Nat) : (releaseLevel l s).stack = s.stack := by
  rfl
@[simp] theorem releaseLevel_inputs (l : Nat) : (releaseLevel l s).inputs = s.inputs := by
  rfl
@[simp] theorem releaseLevel_outputs (l : Nat) : (releaseLevel l s).outputs = s.outputs := by
  rfl
@[simp] theorem releaseLevel_readByte (l : Nat) (k : Nat) : (releaseLevel l s).readByte k = s.readByte k :=
  congrArg (tableGet _ _) (releaseLevel_mem s l)
@[simp] theorem releaseLevel_ctx (l : Nat) (v : UnitId) : (releaseLevel l s).ctx v = s.ctx v :=
  congrArg (tableGet _ _) (releaseLevel_ctxs s l)
@[simp] theorem releaseLevel_psq (l : Nat) (v : UnitId) : (releaseLevel l s).psq v = s.psq v :=
  congrArg (tableGet _ _) (releaseLevel_psqs s l)
@[simp] theorem releaseLevel_chan (l : Nat) (k : Nat) : (releaseLevel l s).chan k = s.chan k :=
  congrArg (tableGet _ _) (releaseLevel_chans s l)

/-! ### `enableLevel` -/

@[simp] theorem enableLevel_cfg (l : Nat) : (enableLevel l s).cfg = s.cfg := by
  rfl
@[simp] theorem enableLevel_mem (l : Nat) : (enableLevel l s).mem = s.mem := by
  rfl
@[simp] theorem enableLevel_ctxs (l : Nat) : (enableLevel l s).ctxs = s.ctxs := by
  rfl
@[simp] theorem enableLevel_psqs (l : Nat) : (enableLevel l s).psqs = s.psqs := by
  rfl
@[simp] theorem enableLevel_chans (l : Nat) : (enableLevel l s).chans = s.chans := by
  rfl
@[simp] theorem enableLevel_stack (l : Nat) : (enableLevel l s).stack = s.stack := by
  rfl
@[simp] theorem enableLevel_inputs (l : Nat) : (enableLevel l s).inputs = s.inputs := by
  rfl
@[simp] theorem enableLevel_outputs (l : Nat) : (enableLevel l s).outputs = s.outputs := by
  rfl
@[simp] theorem enableLevel_readByte (l : Nat) (k : Nat) : (enableLevel l s).readByte k = s.readByte k :=
  congrArg (tableGet _ _) (enableLevel_mem s l)
@[simp] theorem enableLevel_ctx (l : Nat) (v : UnitId) : (enableLevel l s).ctx v = s.ctx v :=
  congrArg (tableGet _ _) (enableLevel_ctxs s l)
@[simp] theorem enableLevel_psq (l : Nat) (v : UnitId) : (enableLevel l s).psq v = s.psq v :=
  congrArg (tableGet _ _) (enableLevel_psqs s l)
@[simp] theorem enableLevel_chan (l : Nat) (k : Nat) : (enableLevel l s).chan k = s.chan k :=
  congrArg (tableGet _ _) (enableLevel_chans s l)

/-! ### `disableLevel` -/

@[simp] theorem disableLevel_cfg (l : Nat) : (disableLevel l s).cfg = s.cfg := by
  rfl
@[simp] theorem disableLevel_mem (l : Nat) : (disableLevel l s).mem = s.mem := by
  rfl
@[simp] theorem disableLevel_ctxs (l : Nat) : (disableLevel l s).ctxs = s.ctxs := by
  rfl
@[simp] theorem disableLevel_psqs (l : Nat) : (disableLevel l s).psqs = s.psqs := by
  rfl
@[simp] theorem disableLevel_chans (l : Nat) : (disableLevel l s).chans = s.chans := by
  rfl
@[simp] theorem disableLevel_stack (l : Nat) : (disableLevel l s).stack = s.stack := by
  rfl
@[simp] theorem disableLevel_inputs (l : Nat) : (disableLevel l s).inputs = s.inputs := by
  rfl
@[simp] theorem disableLevel_outputs (l : Nat) : (disableLevel l s).outputs = s.outputs := by
  rfl
@[simp] theorem disableLevel_readByte (l : Nat) (k : Nat) : (disableLevel l s).readByte k = s.readByte k :=
  congrArg (tableGet _ _) (disableLevel_mem s l)
@[simp] theorem disableLevel_ctx (l : Nat) (v : UnitId) : (disableLevel l s).ctx v = s.ctx v :=
  congrArg (tableGet _ _) (disableLevel_ctxs s l)
@[simp] theorem disableLevel_psq (l : Nat) (v : UnitId) : (disableLevel l s).psq v = s.psq v :=
  congrArg (tableGet _ _) (disableLevel_psqs s l)
@[simp] theorem disableLevel_chan (l : Nat) (k : Nat) : (disableLevel l s).chan k = s.chan k :=
  congrArg (tableGet _ _) (disableLevel_chans s l)

/-! ### `activateLevel` -/

@[simp] theorem activateLevel_cfg (l : Nat) : (activateLevel l s).cfg = s.cfg := by
  rfl
@[simp] theorem activateLevel_mem (l : Nat) : (activateLevel l s).mem = s.mem := by
  rfl
@[simp] theorem activateLevel_ctxs (l : Nat) : (activateLevel l s).ctxs = s.ctxs := by
  rfl
@[simp] theorem activateLevel_psqs (l : Nat) : (activateLevel l s).psqs = s.psqs := by
  rfl
@[simp] theorem activateLevel_chans (l : Nat) : (activateLevel l s).chans = s.chans := by
  rfl
@[simp] theorem activateLevel_stack (l : Nat) : (activateLevel l s).stack = s.stack := by
  rfl
@[simp] theorem activateLevel_inputs (l : Nat) : (activateLevel l s).inputs = s.inputs := by
  rfl
@[simp] theorem activateLevel_outputs (l : Nat) : (activateLevel l s).outputs = s.outputs := by
  rfl
@[simp] theorem activateLevel_readByte (l : Nat) (k : Nat) : (activateLevel l s).readByte k = s.readByte k :=
  congrArg (tableGet _ _) (activateLevel_mem s l)
@[simp] theorem activateLevel_ctx (l : Nat) (v : UnitId) : (activateLevel l s).ctx v = s.ctx v :=
  congrArg (tableGet _ _) (activateLevel_ctxs s l)
@[simp] theorem activateLevel_psq (l : Nat) (v : UnitId) : (activateLevel l s).psq v = s.psq v :=
  congrArg (tableGet _ _) (activateLevel_psqs s l)
@[simp] theorem activateLevel_chan (l : Nat) (k : Nat) : (activateLevel l s).chan k = s.chan k :=
  congrArg (tableGet _ _) (activateLevel_chans s l)

/-! ### `raiseLevel` -/

@[simp] theorem raiseLevel_cfg (l : Nat) : (raiseLevel l s).cfg = s.cfg := by
  unfold raiseLevel; split <;> rfl
@[simp] theorem raiseLevel_mem (l : Nat) : (raiseLevel l s).mem = s.mem := by
  unfold raiseLevel; split <;> rfl
@[simp] theorem raiseLevel_ctxs (l : Nat) : (raiseLevel l s).ctxs = s.ctxs := by
  unfold raiseLevel; split <;> rfl
@[simp] theorem raiseLevel_psqs (l : Nat) : (raiseLevel l s).psqs = s.psqs := by
  unfold raiseLevel; split <;> rfl
@[simp] theorem raiseLevel_chans (l : Nat) : (raiseLevel l s).chans = s.chans := by
  unfold raiseLevel; split <;> rfl
@[simp] theorem raiseLevel_stack (l : Nat) : (raiseLevel l s).stack = s.stack := by
  unfold raiseLevel; split <;> rfl
@[simp] theorem raiseLevel_inputs (l : Nat) : (raiseLevel l s).inputs = s.inputs := by
  unfold raiseLevel; split <;> rfl
@[simp] theorem raiseLevel_outputs (l : Nat) : (raiseLevel l s).outputs = s.outputs := by
  unfold raiseLevel; split <;> rfl
@[simp] theorem raiseLevel_readByte (l : Nat) (k : Nat) : (raiseLevel l s).readByte k = s.readByte k :=
  congrArg (tableGet _ _) (raiseLevel_mem s l)
@[simp] theorem raiseLevel_ctx (l : Nat) (v : UnitId) : (raiseLevel l s).ctx v = s.ctx v :=
  congrArg (tableGet _ _) (raiseLevel_ctxs s l)
@[simp] theorem raiseLevel_psq (l : Nat) (v : UnitId) : (raiseLevel l s).psq v = s.psq v :=
  congrArg (tableGet _ _) (raiseLevel_psqs s l)
@[simp] theorem raiseLevel_chan (l : Nat) (k : Nat) : (raiseLevel l s).chan k = s.chan k :=
  congrArg (tableGet _ _) (raiseLevel_chans s l)

/-! ### `loadInchRange` -/

@[simp] theorem loadInchRange_cfg (u : UnitId) : (loadInchRange u s).cfg = s.cfg := by
  rfl
@[simp] theorem loadInchRange_mem (u : UnitId) : (loadInchRange u s).mem = s.mem := by
  rfl
@[simp] theorem loadInchRange_ctxs (u : UnitId) : (loadInchRange u s).ctxs = s.ctxs := by
  rfl
@[simp] theorem loadInchRange_psqs (u : UnitId) : (loadInchRange u s).psqs = s.psqs := by
  rfl
@[simp] theorem loadInchRange_levels (u : UnitId) : (loadInchRange u s).levels = s.levels := by
  rfl
@[simp] theorem loadInchRange_stack (u : UnitId) : (loadInchRange u s).stack = s.stack := by
  rfl
@[simp] theorem loadInchRange_inputs (u : UnitId) : (loadInchRange u s).inputs = s.inputs := by
  rfl
@[simp] theorem loadInchRange_outputs (u : UnitId) : (loadInchRange u s).outputs = s.outputs := by
  rfl
@[simp] theorem loadInchRange_readByte (u : UnitId) (k : Nat) : (loadInchRange u s).readByte k = s.readByte k :=
  congrArg (tableGet _ _) (loadInchRange_mem s u)
@[simp] theorem loadInchRange_ctx (u : UnitId) (v : UnitId) : (loadInchRange u s).ctx v = s.ctx v :=
  congrArg (tableGet _ _) (loadInchRange_ctxs s u)
@[simp] theorem loadInchRange_psq (u : UnitId) (v : UnitId) : (loadInchRange u s).psq v = s.psq v :=
  congrArg (tableGet _ _) (loadInchRange_psqs s u)
@[simp] theorem loadInchRange_lvl (u : UnitId) (k : Nat) : (loadInchRange u s).lvl k = s.lvl k :=
  congrArg (tableGet _ _) (loadInchRange_levels s u)

/-! ### `haltPrepare` -/

@[simp] theorem haltPrepare_cfg (u : UnitId) : (haltPrepare u s).cfg = s.cfg := by
  rfl
@[simp] theorem haltPrepare_mem (u : UnitId) : (haltPrepare u s).mem = s.mem := by
  rfl
@[simp] theorem haltPrepare_psqs (u : UnitId) : (haltPrepare u s).psqs = s.psqs := by
  rfl
@[simp] theorem haltPrepare_chans (u : UnitId) : (haltPrepare u s).chans = s.chans := by
  rfl
@[simp] theorem haltPrepare_levels (u : UnitId) : (haltPrepare u s).levels = s.levels := by
  rfl
@[simp] theorem haltPrepare_stack (u : UnitId) : (haltPrepare u s).stack = s.stack := by
  rfl
@[simp] theorem haltPrepare_inputs (u : UnitId) : (haltPrepare u s).inputs = s.inputs := by
  rfl
@[simp] theorem haltPrepare_readByte (u : UnitId) (k : Nat) : (haltPrepare u s).readByte k = s.readByte k :=
  congrArg (tableGet _ _) (haltPrepare_mem s u)
@[simp] theorem haltPrepare_psq (u : UnitId) (v : UnitId) : (haltPrepare u s).psq v = s.psq v :=
  congrArg (tableGet _ _) (haltPrepare_psqs s u)
@[simp] theorem haltPrepare_chan (u : UnitId) (k : Nat) : (haltPrepare u s).chan k = s.chan k :=
  congrArg (tableGet _ _) (haltPrepare_chans s u)
@[simp] theorem haltPrepare_lvl (u : UnitId) (k : Nat) : (haltPrepare u s).lvl k = s.lvl k :=
  congrArg (tableGet _ _) (haltPrepare_levels s u)

/-! ### `clearUnit` -/

@[simp] theorem clearUnit_cfg (u : UnitId) : (clearUnit s u).cfg = s.cfg := by
  unfold clearUnit; dsimp only; split <;> rfl
@[simp] theorem clearUnit_mem (u : UnitId) : (clearUnit s u).mem = s.mem := by
  unfold clearUnit; dsimp only; split <;> rfl
@[simp] theorem clearUnit_chans (u : UnitId) : (clearUnit s u).chans = s.chans := by
  unfold clearUnit; dsimp only; split <;> rfl
@[simp] theorem clearUnit_levels (u : UnitId) : (clearUnit s u).levels = s.levels := by
  unfold clearUnit; dsimp only; split <;> rfl
@[simp] theorem clearUnit_stack (u : UnitId) : (clearUnit s u).stack = s.stack := by
  unfold clearUnit; dsimp only; split <;> rfl
@[simp] theorem clearUnit_inputs (u : UnitId) : (clearUnit s u).inputs = s.inputs := by
  unfold clearUnit; dsimp only; split <;> rfl
@[simp] theorem clearUnit_readByte (u : UnitId) (k : Nat) : (clearUnit s u).readByte k = s.readByte k :=
  congrArg (tableGet _ _) (clearUnit_mem s u)
@[simp] theorem clearUnit_chan (u : UnitId) (k : Nat) : (clearUnit s u).chan k = s.chan k :=
  congrArg (tableGet _ _) (clearUnit_chans s u)
@[simp] theorem clearUnit_lvl (u : UnitId) (k : Nat) : (clearUnit s u).lvl k = s.lvl k :=
  congrArg (tableGet _ _) (clearUnit_levels s u)

/-! ### `clearUnits` -/

@[simp] theorem clearUnits_cfg (us : List UnitId) : (clearUnits us s).cfg = s.cfg := by
  unfold clearUnits; induction us generalizing s with
  | nil => rfl
  | cons u us ih => rw [List.foldl_cons, ih]; simp
@[simp] theorem clearUnits_mem (us : List UnitId) : (clearUnits us s).mem = s.mem := by
  unfold clearUnits; induction us generalizing s with
  | nil => rfl
  | cons u us ih => rw [List.foldl_cons, ih]; simp
@[simp] theorem clearUnits_chans (us : List UnitId) : (clearUnits us s).chans = s.chans := by
  unfold clearUnits; induction us generalizing s with
  | nil => rfl
  | cons u us ih => rw [List.foldl_cons, ih]; simp
@[simp] theorem clearUnits_levels (us : List UnitId) : (clearUnits us s).levels = s.levels := by
  unfold clearUnits; induction us generalizing s with
  | nil => rfl
  | cons u us ih => rw [List.foldl_cons, ih]; simp
@[simp] theorem clearUnits_stack (us : List UnitId) : (clearUnits us s).stack = s.stack := by
  unfold clearUnits; induction us generalizing s with
  | nil => rfl
  | cons u us ih => rw [List.foldl_cons, ih]; simp
@[simp] theorem clearUnits_inputs (us : List UnitId) : (clearUnits us s).inputs = s.inputs := by
  unfold clearUnits; induction us generalizing s with
  | nil => rfl
  | cons u us ih => rw [List.foldl_cons, ih]; simp
@[simp] theorem clearUnits_readByte (us : List UnitId) (k : Nat) : (clearUnits us s).readByte k = s.readByte k :=
  congrArg (tableGet _ _) (clearUnits_mem s us)
@[simp] theorem clearUnits_chan (us : List UnitId) (k : Nat) : (clearUnits us s).chan k = s.chan k :=
  congrArg (tableGet _ _) (clearUnits_chans s us)
@[simp] theorem clearUnits_lvl (us : List UnitId) (k : Nat) : (clearUnits us s).lvl k = s.lvl k :=
  congrArg (tableGet _ _) (clearUnits_levels s us)

/-! ### `emitFor` -/

@[simp] theorem emitFor_cfg (us : List UnitId) (f : UnitId → Output) : (emitFor us f s).cfg = s.cfg := by
  unfold emitFor; induction us generalizing s with
  | nil => rfl
  | cons u us ih => rw [List.foldl_cons, ih]; simp
@[simp] theorem emitFor_mem (us : List UnitId) (f : UnitId → Output) : (emitFor us f s).mem = s.mem := by
  unfold emitFor; induction us generalizing s with
  | nil => rfl
  | cons u us ih => rw [List.foldl_cons, ih]; simp
@[simp] theorem emitFor_ctxs (us : List UnitId) (f : UnitId → Output) : (emitFor us f s).ctxs = s.ctxs := by
  unfold emitFor; induction us generalizing s with
  | nil => rfl
  | cons u us ih => rw [List.foldl_cons, ih]; simp
@[simp] theorem emitFor_psqs (us : List UnitId) (f : UnitId → Output) : (emitFor us f s).psqs = s.psqs := by
  unfold emitFor; induction us generalizing s with
  | nil => rfl
  | cons u us ih => rw [List.foldl_cons, ih]; simp
@[simp] theorem emitFor_chans (us : List UnitId) (f : UnitId → Output) : (emitFor us f s).chans = s.chans := by
  unfold emitFor; induction us generalizing s with
  | nil => rfl
  | cons u us ih => rw [List.foldl_cons, ih]; simp
@[simp] theorem emitFor_levels (us : List UnitId) (f : UnitId → Output) : (emitFor us f s).levels = s.levels := by
  unfold emitFor; induction us generalizing s with
  | nil => rfl
  | cons u us ih => rw [List.foldl_cons, ih]; simp
@[simp] theorem emitFor_stack (us : List UnitId) (f : UnitId → Output) : (emitFor us f s).stack = s.stack := by
  unfold emitFor; induction us generalizing s with
  | nil => rfl
  | cons u us ih => rw [List.foldl_cons, ih]; simp
@[simp] theorem emitFor_inputs (us : List UnitId) (f : UnitId → Output) : (emitFor us f s).inputs = s.inputs := by
  unfold emitFor; induction us generalizing s with
  | nil => rfl
  | cons u us ih => rw [List.foldl_cons, ih]; simp
@[simp] theorem emitFor_readByte (us : List UnitId) (f : UnitId → Output) (k : Nat) : (emitFor us f s).readByte k = s.readByte k :=
  congrArg (tableGet _ _) (emitFor_mem s us f)
@[simp] theorem emitFor_ctx (us : List UnitId) (f : UnitId → Output) (v : UnitId) : (emitFor us f s).ctx v = s.ctx v :=
  congrArg (tableGet _ _) (emitFor_ctxs s us f)
@[simp] theorem emitFor_psq (us : List UnitId) (f : UnitId → Output) (v : UnitId) : (emitFor us f s).psq v = s.psq v :=
  congrArg (tableGet _ _) (emitFor_psqs s us f)
@[simp] theorem emitFor_chan (us : List UnitId) (f : UnitId → Output) (k : Nat) : (emitFor us f s).chan k = s.chan k :=
  congrArg (tableGet _ _) (emitFor_chans s us f)
@[simp] theorem emitFor_lvl (us : List UnitId) (f : UnitId → Output) (k : Nat) : (emitFor us f s).lvl k = s.lvl k :=
  congrArg (tableGet _ _) (emitFor_levels s us f)

end Sys2Proof.Machine
end

