-- ==== Sys2Proof/Laws/Ops.lean ====
section
/-! SUPPORT. For each shared operation, one lemma that says once everything it can do. -/

namespace Sys2Proof.Machine

variable (s : State)

/-- A change of the level that owns a channel changes that level, where it is configured. -/
theorem lvl_onChannelLevel (ch k : Nat) (f : Level → Level) :
    (s.onChannelLevel ch f).lvl k =
      if channelOwns s.cfg ch k then f (s.lvl k) else s.lvl k := by
  unfold State.onChannelLevel channelOwns
  cases h : chanLevel s.cfg ch with
  | none => simp
  | some l =>
    by_cases hk : l = k
    · subst hk
      by_cases hc : (levelCfg s.cfg l).configured = true <;> simp [hc]
    · have hk' : ¬ k = l := fun e => hk e.symm
      by_cases hc : (levelCfg s.cfg l).configured = true <;> simp [hc, hk, hk', lvl_setLvl]

/-- What a push at the tail leaves of every channel (R178, R179). -/
theorem chan_storeStatus (ch k : Nat) (r : Record) :
    (storeStatus ch r s).2.chan k =
      if k = ch then
        (if (s.chan ch).fifo.length < s.cfg.fifoCap then
          { s.chan ch with fifo := (s.chan ch).fifo ++ [r] }
        else { s.chan ch with overflow := (s.chan ch).overflow + 1 })
      else s.chan k := by
  unfold storeStatus State.dropRecord
  split <;> simp [chan_setChan]

/-- What a push at the front leaves of every channel (R182, R179). -/
theorem chan_pushStatusFront (ch k : Nat) (r : Record) :
    (pushStatusFront ch r s).2.chan k =
      if k = ch then
        (if (s.chan ch).fifo.length < s.cfg.fifoCap then
          { s.chan ch with fifo := r :: (s.chan ch).fifo }
        else { s.chan ch with overflow := (s.chan ch).overflow + 1 })
      else s.chan k := by
  unfold pushStatusFront State.dropRecord
  split <;> simp [chan_setChan]

/-- What a push at the tail leaves of every level (R231). -/
theorem lvl_storeStatus (ch k : Nat) (r : Record) :
    (storeStatus ch r s).2.lvl k =
      if decide ((s.chan ch).fifo.length < s.cfg.fifoCap) && channelOwns s.cfg ch k then
        requestUnlessActive (s.lvl k)
      else s.lvl k := by
  unfold storeStatus
  split
  · rename_i h
    simp only [lvl_onChannelLevel, setChan_cfg, setChan_lvl, h, decide_true, Bool.true_and]
    rfl
  · rename_i h
    simp [h, State.dropRecord]

/-- What a push at the front leaves of every level (R231). -/
theorem lvl_pushStatusFront (ch k : Nat) (r : Record) :
    (pushStatusFront ch r s).2.lvl k =
      if decide ((s.chan ch).fifo.length < s.cfg.fifoCap) && channelOwns s.cfg ch k then
        requestUnlessActive (s.lvl k)
      else s.lvl k := by
  unfold pushStatusFront
  split
  · rename_i h
    simp only [lvl_onChannelLevel, setChan_cfg, setChan_lvl, h, decide_true, Bool.true_and]
    rfl
  · rename_i h
    simp [h, State.dropRecord]

/-- Everything a successful post does (R180). -/
theorem postStatus_some {ch : Nat} {mask : Half} {s t : State} (h : postStatus ch mask s = some t) :
    ∃ r rest, (s.chan ch).fifo = r :: rest ∧ slotUsable s.cfg (s.chan ch) = true ∧
      t.cfg = s.cfg ∧ t.ctxs = s.ctxs ∧ t.psqs = s.psqs ∧ t.stack = s.stack ∧ t.inputs = s.inputs ∧
      t.outputs = s.outputs ∧
      t.mem = ((s.writeWord (s.chan ch).inchCur.toNat r.w1).writeWord
        ((s.chan ch).inchCur.toNat + 4) (maskStatus mask r.w2)).mem ∧
      t.chans = (s.setChan ch
        { s.chan ch with fifo := rest, inchCur := nextSlot (s.chan ch) }).chans ∧
      ∀ k, t.lvl k =
        if rest.isEmpty && channelOwns s.cfg ch k then withdrawRequest (s.lvl k)
        else s.lvl k := by
  unfold postStatus at h
  dsimp only at h
  split at h
  · cases h
  · rename_i r rest hf
    split at h
    · rename_i hs
      refine ⟨r, rest, hf, hs, ?_⟩
      cases rest with
      | nil =>
        simp only [List.isEmpty_nil, if_true, Option.some.injEq] at h
        subst h
        refine ⟨by simp, by simp, by simp, by simp, by simp, by simp, by simp, by simp; rfl, ?_⟩
        intro k
        simp only [lvl_onChannelLevel, List.isEmpty_nil, Bool.true_and]
        rfl
      | cons q qs =>
        simp only [List.isEmpty_cons, Option.some.injEq] at h
        subst h
        refine ⟨rfl, rfl, rfl, rfl, rfl, rfl, rfl, rfl, ?_⟩
        intro k
        simp
    · cases h

/-- A post fails exactly where nothing is queued or the slot cannot be used (R180). -/
theorem postStatus_none {ch : Nat} {mask : Half} :
    postStatus ch mask s = none ↔
      (s.chan ch).fifo = [] ∨ slotUsable s.cfg (s.chan ch) = false := by
  unfold postStatus
  dsimp only
  cases hf : (s.chan ch).fifo with
  | nil => simp
  | cons r rest =>
    by_cases hs : slotUsable s.cfg (s.chan ch) = true <;> simp [hs]

/-- The contexts after the engine is entered: the unit is Busy, unless a walker takes over (R120). -/
theorem ctx_enterEngine (u v : UnitId) (allow : Bool) :
    (enterEngine u allow s).ctx v =
      if v = u ∧ (unitCfg s.cfg u).hasOverride = false then { s.ctx v with state := .busy }
      else s.ctx v := by
  unfold enterEngine
  by_cases h : (unitCfg s.cfg u).hasOverride = true
  · simp [h]
  · by_cases hv : v = u
    · subst hv; simp [h, State.setTransfer]
    · simp [h, hv, State.setTransfer, ctx_setCtx]

/-- Where no walker takes over, the engine's entry pushes the generic loop and nothing else changes but
the transfer-state. -/
theorem enterEngine_plain {u : UnitId} (allow : Bool) (h : (unitCfg s.cfg u).hasOverride = false) :
    enterEngine u allow s = (s.setTransfer u .busy).push (.engine u allow) := by
  simp [enterEngine, h]

/-- Everything the end of a program does: one record is stored, and the unit has either a queued start
loaded or an Empty context (R175, R176). -/
theorem finishProgram_cases (u : UnitId) (c : Context) :
    ((finishProgram u c s).2 = none ∧ ((unitCfg s.cfg u).hasPsq = false ∨ s.psq u = []) ∧
      (finishProgram u c s).1.ctx u = { c with state := .empty } ∧
      (finishProgram u c s).1.psqs = s.psqs) ∨
    (∃ a rest, (finishProgram u c s).2 = some false ∧ (unitCfg s.cfg u).hasPsq = true ∧
      s.psq u = a :: rest ∧ (finishProgram u c s).1.ctx u = freshContext a .posted ∧
      (finishProgram u c s).1.psqs = (s.setPsq u rest).psqs) := by
  unfold finishProgram
  dsimp only
  split
  · rename_i a s4 h
    obtain ⟨hp, rest, hq, rfl⟩ := (dequeue_eq_some _ _).1 h
    refine .inr ⟨a, rest, rfl, by simpa using hp, by simpa using hq, by simp, ?_⟩
    simp [State.setPsq]
  · rename_i h
    refine .inl ⟨rfl, by simpa using (dequeue_eq_none _ _).1 h, ?_, by simp⟩
    simp [State.setTransfer]

/-- The end of a program leaves every other unit's context. -/
theorem finishProgram_ctx_other {u v : UnitId} (c : Context) (h : v ≠ u) :
    (finishProgram u c s).1.ctx v = s.ctx v := by
  unfold finishProgram
  dsimp only
  split
  · obtain ⟨-, rest, -, rfl⟩ := (dequeue_eq_some _ _).1 ‹_›
    have := storeStatus_ctx (s.setCtx u { c with state := .done }) u.ch (recordOf u c) v
    simp [ctx_setCtx, h]
  · simp [State.setTransfer, ctx_setCtx, h]

/-- The end of a program leaves every other unit's queue. -/
theorem finishProgram_psq_other {u v : UnitId} (c : Context) (h : v ≠ u) :
    (finishProgram u c s).1.psq v = s.psq v := by
  rcases finishProgram_cases s u c with ⟨-, -, -, hq⟩ | ⟨a, rest, -, -, -, -, hq⟩
  · exact congrArg (tableGet [] v.key) hq
  · have : (finishProgram u c s).1.psq v = (s.setPsq u rest).psq v := congrArg (tableGet [] v.key) hq
    rw [this, psq_setPsq, if_neg h]

/-- The end of a program stores its record and touches no other part of any channel (R175). -/
theorem finishProgram_chan (u : UnitId) (c : Context) (k : Nat) :
    (finishProgram u c s).1.chan k = (storeStatus u.ch (recordOf u c) s).2.chan k := by
  unfold finishProgram
  dsimp only
  split
  · obtain ⟨-, rest, -, rfl⟩ := (dequeue_eq_some _ _).1 ‹_›
    simp only [setCtx_chan, setPsq_chan]
    rw [chan_storeStatus, chan_storeStatus]
    rfl
  · simp only [State.setTransfer, setCtx_chan]
    rw [chan_storeStatus, chan_storeStatus]
    rfl

/-- The end of a program notifies the level as the store does. -/
theorem finishProgram_lvl (u : UnitId) (c : Context) (k : Nat) :
    (finishProgram u c s).1.lvl k = (storeStatus u.ch (recordOf u c) s).2.lvl k := by
  unfold finishProgram
  dsimp only
  split
  · obtain ⟨-, rest, -, rfl⟩ := (dequeue_eq_some _ _).1 ‹_›
    simp only [setCtx_lvl, setPsq_lvl]
    rw [lvl_storeStatus, lvl_storeStatus]
    rfl
  · simp only [State.setTransfer, setCtx_lvl]
    rw [lvl_storeStatus, lvl_storeStatus]
    rfl

/-- The three ways a channel end goes on (R173 to R176). -/
theorem channelEndFrom_cases (u : UnitId) (c : Context) :
    (anyBit c.status stDe = false ∧
      channelEndFrom u c s = (s.setCtx u { c with state := .channelEndPending }, none)) ∨
    (anyBit c.status stDe = true ∧ c.flags.cc = true ∧ anyBit c.status chainAbort = false ∧
      channelEndFrom u c s = (s.setCtx u { c with
        state := .awaitingNext, status := c.status &&& stPci,
        flags := { c.flags with dc := false } }, some true)) ∨
    (anyBit c.status stDe = true ∧ (c.flags.cc = false ∨ anyBit c.status chainAbort = true) ∧
      channelEndFrom u c s = finishProgram u c s) := by
  unfold channelEndFrom
  by_cases h1 : anyBit c.status stDe = true
  · by_cases h2 : c.flags.cc = true
    · by_cases h3 : anyBit c.status chainAbort = true
      · exact .inr (.inr ⟨h1, .inr h3, by simp [h1, h3]⟩)
      · exact .inr (.inl ⟨h1, h2, by simpa using h3, by simp [h1, h2, h3]⟩)
    · exact .inr (.inr ⟨h1, .inl (by simpa using h2), by simp [h1, h2]⟩)
  · exact .inl ⟨by simpa using h1, by simp [h1]⟩

/-- A channel end by the transfer-state it finds (R170). -/
theorem channelEndCore_cases (u : UnitId) (extra : Half) :
    ((s.ctx u).state = .empty ∧ channelEndCore u extra s = .ok (s, none)) ∨
    (((s.ctx u).state = .busy ∨ (s.ctx u).state = .channelEndPending) ∧
      channelEndCore u extra s =
        .ok (channelEndFrom u (lengthCheck (mergeStatus (extra ||| stCe) (s.ctx u))) s)) ∨
    (((s.ctx u).state = .awaitingNext ∨ (s.ctx u).state = .done ∨ (s.ctx u).state = .posted) ∧
      channelEndCore u extra s = .error .deviceContract) := by
  unfold channelEndCore
  cases (s.ctx u).state <;> simp

/-- The fetch of a descriptor (R121). -/
theorem fetchDescriptor_some {u : UnitId} {w1 w2 : Word} {s t : State}
    (h : fetchDescriptor u s = some (w1, w2, t)) :
    wordAligned (s.ctx u).listAddr = true ∧ memOk s.cfg (s.ctx u).listAddr.toNat 8 = true ∧
      w1 = s.readWord (s.ctx u).listAddr.toNat ∧ w2 = s.readWord ((s.ctx u).listAddr.toNat + 4) ∧
      t = s.setCtx u { s.ctx u with listAddr := (s.ctx u).listAddr + 8 } := by
  unfold fetchDescriptor at h
  dsimp only at h
  split at h
  · rename_i hc
    simp only [Bool.and_eq_true] at hc
    simp only [Option.some.injEq, Prod.mk.injEq] at h
    exact ⟨hc.1, hc.2, h.1.symm, h.2.1.symm, h.2.2.symm⟩
  · cases h

/-- The acceptance of a descriptor (R124 to R130). -/
theorem acceptDescriptor_some {u : UnitId} {code c : Byte} {addr : Addr} {w2 : CommandWord} {cont : Bool}
    {s t : State} (h : acceptDescriptor u code addr w2 s = some (cont, c, t)) :
    cont = (s.ctx u).flags.dc ∧ c = (if cont then (s.ctx u).cmd else code) ∧
      descriptorBad s.cfg c addr w2 = false ∧
      t = s.setCtx u (loadedContext c addr w2 (s.ctx u)) := by
  unfold acceptDescriptor at h
  dsimp only at h
  by_cases hb : descriptorBad s.cfg (if (s.ctx u).flags.dc = true then (s.ctx u).cmd else code) addr w2 = true
  · rw [if_pos hb] at h
    cases h
  · rw [if_neg hb] at h
    simp only [Option.some.injEq, Prod.mk.injEq] at h
    obtain ⟨rfl, rfl, rfl⟩ := h
    exact ⟨rfl, rfl, by simpa using hb, rfl⟩

end Sys2Proof.Machine
end

