-- ==== Sys2Proof/Laws/Bytes.lean ====
section
/-! SUPPORT. What one pass of the data-chain loop does, and what the re-entry and the byte helpers can change:
the unit's own context, and, for the write helper, memory (spec/40_engine.md R121 to R141, R150 to R154). -/

namespace Sys2Proof.Machine

/-- From `s` to `t` nothing has changed but the context of `u` and memory. -/
structure OnlyContext (u : UnitId) (s t : State) : Prop where
  cfg : t.cfg = s.cfg
  ctx : ∀ v, v ≠ u → t.ctx v = s.ctx v
  psqs : t.psqs = s.psqs
  chans : t.chans = s.chans
  levels : t.levels = s.levels
  stack : t.stack = s.stack
  inputs : t.inputs = s.inputs
  outputs : t.outputs = s.outputs

variable {u : UnitId} {s t r : State}

theorem OnlyContext.psq (h : OnlyContext u s t) (v : UnitId) : t.psq v = s.psq v :=
  congrArg (tableGet [] v.key) h.psqs

theorem OnlyContext.chan (h : OnlyContext u s t) (k : Nat) : t.chan k = s.chan k :=
  congrArg (tableGet Channel.powerOn k) h.chans

theorem OnlyContext.lvl (h : OnlyContext u s t) (k : Nat) : t.lvl k = s.lvl k :=
  congrArg (tableGet Level.powerOn k) h.levels

theorem onlyContext_refl (u : UnitId) (s : State) : OnlyContext u s s :=
  ⟨rfl, fun _ _ => rfl, rfl, rfl, rfl, rfl, rfl, rfl⟩

theorem OnlyContext.trans (h : OnlyContext u s t) (k : OnlyContext u t r) : OnlyContext u s r :=
  ⟨k.cfg.trans h.cfg, fun v hv => (k.ctx v hv).trans (h.ctx v hv), k.psqs.trans h.psqs,
    k.chans.trans h.chans, k.levels.trans h.levels, k.stack.trans h.stack, k.inputs.trans h.inputs,
    k.outputs.trans h.outputs⟩

theorem onlyContext_setCtx (u : UnitId) (s : State) (c : Context) : OnlyContext u s (s.setCtx u c) :=
  ⟨rfl, fun _ hv => ctx_setCtx_other s c hv, rfl, rfl, rfl, rfl, rfl, rfl⟩

theorem onlyContext_writeByte (u : UnitId) (s : State) (a : Nat) (b : Byte) :
    OnlyContext u s (s.writeByte a b) := ⟨rfl, fun _ _ => rfl, rfl, rfl, rfl, rfl, rfl, rfl⟩

theorem onlyContext_programCheckData (u : UnitId) (s : State) :
    OnlyContext u s (programCheckData u s) := onlyContext_setCtx u s _

/-! ### One pass of the data-chain loop -/

theorem wordAligned_iff (a : Addr) : wordAligned a = true ↔ a.toNat % 4 = 0 := by
  have h : (a.extractLsb' 0 2).toNat = a.toNat % 4 := by simp [BitVec.extractLsb'_toNat]
  unfold wordAligned
  rw [beq_iff_eq, ← BitVec.toNat_inj, h]
  simp

/-- A fetch succeeds exactly at an aligned address that exists (R121). -/
theorem fetchable_iff (s : State) (a : Addr) :
    s.fetchable a ↔ (wordAligned a && memOk s.cfg a.toNat 8) = true := by
  simp [State.fetchable, wordAligned_iff, memOk]

/-- A pass that cannot fetch leaves the failing address in the context (R121, R141). -/
theorem chainPass_unfetchable {k : Option (State → Bool × State)} (h : ¬s.fetchable (s.ctx u).listAddr) :
    chainPass u k s = (false, programCheckData u s) := by
  rw [fetchable_iff] at h
  simp [chainPass, fetchDescriptor, h]

/-- A pass that finds a Transfer-In-List replaces the list address and goes on as `next` does (R122, R123). -/
theorem chainPass_tic (next : State → Bool × State) (h : s.ticAt (s.ctx u).listAddr) :
    chainPass u (some next) s =
      next ((s.setCtx u { s.ctx u with listAddr := (s.ctx u).listAddr + 8 }).setCtx u
        { s.ctx u with listAddr := addrOf (s.readWord (s.ctx u).listAddr.toNat) }) := by
  have hf := (fetchable_iff _ _).1 h.1
  simp [chainPass, fetchDescriptor, hf, h.2]

/-- A pass in which a Transfer-In-List is not allowed marks one as a program check (R122, R141). -/
theorem chainPass_secondTic (h : s.ticAt (s.ctx u).listAddr) :
    chainPass u none s = (false, programCheckData u
      (s.setCtx u { s.ctx u with listAddr := (s.ctx u).listAddr + 8 })) := by
  have hf := (fetchable_iff _ _).1 h.1
  simp [chainPass, fetchDescriptor, hf, h.2]

/-- A pass that finds a descriptor that fails a check marks a program check (R125 to R129, R141). -/
theorem chainPass_bad {k : Option (State → Bool × State)} (hd : (s.ctx u).flags.dc = true)
    (h : s.continuationAt u (s.ctx u).listAddr true) :
    chainPass u k s = (false, programCheckData u
      (s.setCtx u { s.ctx u with listAddr := (s.ctx u).listAddr + 8 })) := by
  have hf := (fetchable_iff _ _).1 h.1
  simp [chainPass, fetchDescriptor, acceptDescriptor, hf, h.2.1, hd, h.2.2]

/-- A pass that finds a descriptor that passes the checks loads it, with the code in progress (R124, R130,
R131). -/
theorem chainPass_good {k : Option (State → Bool × State)} (hd : (s.ctx u).flags.dc = true)
    (h : s.continuationAt u (s.ctx u).listAddr false) :
    chainPass u k s = (true, (s.setCtx u { s.ctx u with listAddr := (s.ctx u).listAddr + 8 }).setCtx u
      (loadedContext (s.ctx u).cmd (addrOf (s.readWord (s.ctx u).listAddr.toNat))
        (decodeCommandWord (s.readWord ((s.ctx u).listAddr.toNat + 4)))
        { s.ctx u with listAddr := (s.ctx u).listAddr + 8 })) := by
  have hf := (fetchable_iff _ _).1 h.1
  simp [chainPass, fetchDescriptor, acceptDescriptor, hf, h.2.1, hd, h.2.2]

/-- What a pass can find at an address: nothing that can be fetched, a Transfer-In-List, or a descriptor
that fails or passes the checks. -/
theorem descriptorAt_cases (s : State) (u : UnitId) (a : Addr) :
    ¬s.fetchable a ∨ s.ticAt a ∨ s.continuationAt u a true ∨ s.continuationAt u a false := by
  by_cases hf : s.fetchable a
  · by_cases ht : classOf (codeOf (s.readWord a.toNat)) = .tic
    · exact .inr (.inl ⟨hf, ht⟩)
    · cases hb : descriptorBad s.cfg (s.ctx u).cmd (addrOf (s.readWord a.toNat))
        (decodeCommandWord (s.readWord (a.toNat + 4)))
      · exact .inr (.inr (.inr ⟨hf, ht, hb⟩))
      · exact .inr (.inr (.inl ⟨hf, ht, hb⟩))
  · exact .inl hf

/-! ### What the re-entry and the helpers can change -/

/-- One pass of the data-chain loop changes the context alone, if what follows a TIC does. -/
theorem onlyContext_chainPass {k : Option (State → Bool × State)}
    (hk : ∀ f ∈ k, ∀ x, OnlyContext u x (f x).2) (s : State) : OnlyContext u s (chainPass u k s).2 := by
  unfold chainPass
  split
  · exact onlyContext_programCheckData u s
  · rename_i w1 w2 s1 hf
    have h1 : OnlyContext u s s1 := by
      rw [(fetchDescriptor_some hf).2.2.2.2]; exact onlyContext_setCtx u s _
    split
    · split
      · exact h1.trans (onlyContext_programCheckData u s1)
      · exact (h1.trans (onlyContext_setCtx u s1 _)).trans (hk _ rfl _)
    · split
      · exact h1.trans (onlyContext_programCheckData u s1)
      · rename_i ha
        rw [(acceptDescriptor_some ha).2.2.2]
        exact h1.trans (onlyContext_setCtx u s1 _)

theorem onlyContext_execDataChain (u : UnitId) (s : State) : OnlyContext u s (execDataChain u s).2 := by
  refine (onlyContext_setCtx u s _).trans (onlyContext_chainPass ?_ _)
  rintro f hf x
  cases hf
  exact onlyContext_chainPass (by rintro f hf; cases hf) x

theorem onlyContext_moveByteOut (u : UnitId) (s : State) : OnlyContext u s (moveByteOut u s).2 := by
  unfold moveByteOut
  dsimp only
  split
  · exact onlyContext_setCtx u s _
  · exact onlyContext_programCheckData u s

theorem onlyContext_moveByteIn (u : UnitId) (b : Byte) (s : State) :
    OnlyContext u s (moveByteIn u b s).2 := by
  unfold moveByteIn
  dsimp only
  split
  · exact onlyContext_setCtx u s _
  · split
    · exact (onlyContext_writeByte u s _ _).trans (onlyContext_setCtx u _ _)
    · exact onlyContext_programCheckData u s

theorem onlyContext_readNextByte (u : UnitId) (s : State) : OnlyContext u s (readNextByte u s).2 := by
  have hc := onlyContext_execDataChain u s
  unfold readNextByte
  split_ifs
  · exact onlyContext_refl u s
  · exact onlyContext_moveByteOut u s
  · exact onlyContext_refl u s
  · split
    · rename_i e; rw [e] at hc; exact hc
    · rename_i e
      rw [e] at hc
      split_ifs
      · exact hc.trans (onlyContext_moveByteOut u _)
      · exact hc

theorem onlyContext_writeNextByte (u : UnitId) (b : Byte) (s : State) :
    OnlyContext u s (writeNextByte u b s).2 := by
  have hc := onlyContext_execDataChain u s
  unfold writeNextByte
  split_ifs
  · exact onlyContext_refl u s
  · exact onlyContext_moveByteIn u b s
  · exact onlyContext_refl u s
  · split
    · rename_i e; rw [e] at hc; exact hc
    · rename_i e
      rw [e] at hc
      split_ifs
      · exact hc.trans (onlyContext_moveByteIn u b _)
      · exact hc

/-- One pass of the data-chain loop leaves memory and the transfer-state, if what follows a TIC does. -/
theorem chainPass_keeps {k : Option (State → Bool × State)}
    (hk : ∀ f ∈ k, ∀ x, (f x).2.mem = x.mem ∧ ((f x).2.ctx u).state = (x.ctx u).state) (s : State) :
    (chainPass u k s).2.mem = s.mem ∧ ((chainPass u k s).2.ctx u).state = (s.ctx u).state := by
  unfold chainPass
  split
  · simp [programCheckData, stopChaining, mergeStatus]
  · rename_i w1 w2 s1 hf
    have h1 : s1.mem = s.mem ∧ (s1.ctx u).state = (s.ctx u).state := by
      rw [(fetchDescriptor_some hf).2.2.2.2]; simp
    rw [← h1.1, ← h1.2]
    split
    · split
      · simp [programCheckData, stopChaining, mergeStatus]
      · have := hk _ rfl (s1.setCtx u { s1.ctx u with listAddr := addrOf w1 })
        simpa using this
    · split
      · simp [programCheckData, stopChaining, mergeStatus]
      · rename_i ha
        rw [(acceptDescriptor_some ha).2.2.2]
        simp [loadedContext]

/-- The re-entry sets Busy and leaves memory (R120, R152). -/
theorem execDataChain_keeps (u : UnitId) (s : State) :
    (execDataChain u s).2.mem = s.mem ∧ ((execDataChain u s).2.ctx u).state = .busy := by
  have := chainPass_keeps (u := u) (k := some (chainPass u none)) (by
    rintro f hf x
    cases hf
    exact chainPass_keeps (by rintro f hf; cases hf) x) (s.setTransfer u .busy)
  simpa [execDataChain, State.setTransfer] using this

/-- The read helper leaves memory and the transfer-state (R150). -/
theorem readNextByte_keeps (u : UnitId) (s : State) :
    (readNextByte u s).2.mem = s.mem ∧ ((readNextByte u s).2.ctx u).state = (s.ctx u).state := by
  have mb : ∀ x : State, (moveByteOut u x).2.mem = x.mem ∧
      ((moveByteOut u x).2.ctx u).state = (x.ctx u).state := by
    intro x
    unfold moveByteOut
    dsimp only
    split <;> simp [programCheckData, stopChaining, mergeStatus]
  have hc := execDataChain_keeps u s
  unfold readNextByte
  split_ifs with h
  · exact ⟨rfl, rfl⟩
  · exact mb s
  · exact ⟨rfl, rfl⟩
  · simp only [ne_eq, not_not] at h
    rw [h]
    split
    · rename_i e; rw [e] at hc; exact hc
    · rename_i e
      rw [e] at hc
      split_ifs
      · exact ⟨(mb _).1.trans hc.1, (mb _).2.trans hc.2⟩
      · exact hc

/-- The write helper leaves the transfer-state (R151). -/
theorem writeNextByte_state (u : UnitId) (b : Byte) (s : State) :
    ((writeNextByte u b s).2.ctx u).state = (s.ctx u).state := by
  have mb : ∀ x : State, ((moveByteIn u b x).2.ctx u).state = (x.ctx u).state := by
    intro x
    unfold moveByteIn
    dsimp only
    split
    · simp
    · split <;> simp [programCheckData, stopChaining, mergeStatus]
  have hc := execDataChain_keeps u s
  unfold writeNextByte
  split_ifs with h
  · rfl
  · exact mb s
  · rfl
  · simp only [ne_eq, not_not] at h
    rw [h]
    split
    · rename_i e; rw [e] at hc; exact hc.2
    · rename_i e
      rw [e] at hc
      split_ifs
      · exact (mb _).trans hc.2
      · exact hc.2

end Sys2Proof.Machine
end

