-- ==== Sys2Proof/Laws/Ends.lean ====
section
/-! SUPPORT. What the end of a program does, in the words of Safety.lean (spec/41_status_posting.md R170 to
R179). -/

namespace Sys2Proof.Machine

variable (s : State)

/-- Some bit of a mask is set. -/
theorem anyBit_eq_true (a m : Half) : anyBit a m = true ↔ a &&& m ≠ 0 := by simp [anyBit]

/-- No bit of a mask is set. -/
theorem anyBit_eq_false (a m : Half) : anyBit a m = false ↔ a &&& m = 0 := by simp [anyBit]

/-- The context a channel end decides on is `endedContext` (R170, R172). -/
theorem lengthCheck_eq (extra : Half) (c : Context) :
    lengthCheck (mergeStatus (extra ||| stCe) c) = endedContext extra c := by
  have h : c.status ||| (extra ||| stCe) = c.status ||| extra ||| stCe := by
    rw [BitVec.or_assoc]
  unfold lengthCheck endedContext mergeStatus
  simp only [h]
  by_cases h1 : isTransfer c.cmd = true ∧ c.count ≠ 0 ∧ c.flags.sli = false
  · rw [if_pos h1, if_pos (by simp only [Bool.and_eq_true, bne_iff_ne, Bool.not_eq_true']; tauto)]
    congr 1
    by_cases h2 : (c.status ||| extra ||| stCe) &&& stPchk = 0
    · rw [if_pos h2, if_neg (by rw [anyBit_eq_true]; exact fun h => h h2)]
    · rw [if_neg h2, if_pos ((anyBit_eq_true _ _).2 h2)]
  · rw [if_neg h1, if_neg (by simp only [Bool.and_eq_true, bne_iff_ne, Bool.not_eq_true']; tauto)]

/-- The store of a record notifies the level where there is room (R178, R231). -/
theorem storeStatus_notifies (ch : Nat) (r : Record) (h : (s.chan ch).fifo.length < s.cfg.fifoCap) :
    s.LevelNotified (storeStatus ch r s).2 ch := by
  intro l
  rw [lvl_storeStatus]
  by_cases ho : channelOwns s.cfg ch l = true
  · simp only [h, ho, true_and, requestUnlessActive]
    cases (s.lvl l).active <;> simp
  · simp [ho]

/-- Everything the end of a program changes (R175, R176). -/
theorem finishProgram_ended (u : UnitId) (c : Context) :
    s.ProgramEnded (finishProgram u c s).1 u c where
  stored h := by
    refine ⟨?_, fun l => ?_⟩
    · rw [finishProgram_chan, chan_storeStatus]; simp [h]
    · rw [finishProgram_lvl]; exact storeStatus_notifies s _ _ h l
  dropped h := by
    have h' : ¬(s.chan u.ch).fifo.length < s.cfg.fifoCap := by omega
    refine ⟨?_, fun l => ?_⟩
    · rw [finishProgram_chan, chan_storeStatus]; simp [h']
    · rw [finishProgram_lvl, lvl_storeStatus]; simp [h']
  idle h := by
    rcases finishProgram_cases s u c with ⟨-, -, hx, hq⟩ | ⟨a, q, -, hp, hq, -, -⟩
    · exact ⟨hx, congrArg (tableGet [] u.key) hq⟩
    · rcases h with h | h
      · rw [hp] at h; cases h
      · rw [hq] at h; cases h
  queued a q hp hq := by
    rcases finishProgram_cases s u c with ⟨-, h, -, -⟩ | ⟨b, r, -, -, hq', hx, hps⟩
    · rcases h with h | h
      · rw [hp] at h; cases h
      · rw [hq] at h; cases h
    · rw [hq] at hq'
      cases hq'
      refine ⟨hx, (congrArg (tableGet [] u.key) hps).trans ?_⟩
      exact psq_setPsq_same s u _
  frame := by
    refine ⟨by simp, fun a _ => by simp, fun v hv => finishProgram_ctx_other s c hv,
      fun v hv => finishProgram_psq_other s c hv, fun k hk => ?_, fun l hl => ?_⟩
    · rw [finishProgram_chan, chan_storeStatus]; simp [hk]
    · rw [finishProgram_lvl, lvl_storeStatus]; simp [hl]
  stack := by simp
  inputs := by simp

/-- Whether the engine is entered after the end of a program (R176). -/
theorem resume_finishProgram (u : UnitId) (c : Context) :
    resume u (finishProgram u c s) = s.afterEnd u (finishProgram u c s).1 := by
  unfold State.afterEnd
  rcases finishProgram_cases s u c with ⟨h2, h, -, -⟩ | ⟨a, q, h2, hp, hq, -, -⟩
  · have e : finishProgram u c s = ((finishProgram u c s).1, none) := by rw [← h2]
    rw [if_neg (by rcases h with h | h <;> simp [h])]
    rw [e]
    rfl
  · have e : finishProgram u c s = ((finishProgram u c s).1, some false) := by rw [← h2]
    rw [if_pos (by simp [hp, hq])]
    rw [e]
    rfl

/-- A channel end that finishes the program (R175, R176). -/
theorem channelEnd_finishes {u : UnitId} {extra : Half}
    (hs : (s.ctx u).state = .busy ∨ (s.ctx u).state = .channelEndPending)
    (hd : (endedContext extra (s.ctx u)).status &&& stDe ≠ 0)
    (hc : (endedContext extra (s.ctx u)).flags.cc = false ∨
      (endedContext extra (s.ctx u)).status &&& chainAbort ≠ 0) :
    channelEnd u extra s =
      .ok (s.afterEnd u (finishProgram u (endedContext extra (s.ctx u)) s).1) := by
  rcases channelEndCore_cases s u extra with ⟨h, -⟩ | ⟨-, e⟩ | ⟨h, -⟩
  · rcases hs with hs | hs <;> (rw [h] at hs; cases hs)
  · unfold channelEnd
    rw [e, lengthCheck_eq]
    rcases channelEndFrom_cases s u (endedContext extra (s.ctx u)) with ⟨h, -⟩ | ⟨-, h, h', -⟩ | ⟨-, -, e'⟩
    · rw [anyBit_eq_false] at h; exact absurd h hd
    · rw [anyBit_eq_false] at h'
      rcases hc with hc | hc
      · rw [hc] at h; cases h
      · exact absurd h' hc
    · rw [e', ← resume_finishProgram]; rfl
  · rcases hs with hs | hs <;> (rw [hs] at h; simp at h)

/-- A channel end that resumes the chain (R174). -/
theorem channelEnd_chains {u : UnitId} {extra : Half}
    (hs : (s.ctx u).state = .busy ∨ (s.ctx u).state = .channelEndPending)
    (hd : (endedContext extra (s.ctx u)).status &&& stDe ≠ 0)
    (hc : (endedContext extra (s.ctx u)).flags.cc = true)
    (ha : (endedContext extra (s.ctx u)).status &&& chainAbort = 0) :
    channelEnd u extra s =
      .ok (enterEngine u true (s.setCtx u { endedContext extra (s.ctx u) with
        state := .awaitingNext,
        status := (endedContext extra (s.ctx u)).status &&& stPci,
        flags := { (endedContext extra (s.ctx u)).flags with dc := false } })) := by
  rcases channelEndCore_cases s u extra with ⟨h, -⟩ | ⟨-, e⟩ | ⟨h, -⟩
  · rcases hs with hs | hs <;> (rw [h] at hs; cases hs)
  · unfold channelEnd
    rw [e, lengthCheck_eq]
    rcases channelEndFrom_cases s u (endedContext extra (s.ctx u)) with ⟨h, -⟩ | ⟨-, -, -, e'⟩ | ⟨-, h, -⟩
    · rw [anyBit_eq_false] at h; exact absurd h hd
    · rw [e']; rfl
    · rw [anyBit_eq_true] at h
      rcases h with h | h
      · rw [hc] at h; cases h
      · exact absurd ha h
  · rcases hs with hs | hs <;> (rw [hs] at h; simp at h)

end Sys2Proof.Machine
end

