-- ==== Sys2Proof/Laws/Commands.lean ====
section
/-! SUPPORT. What the meanings of the descriptors come down to: the program check, the dispatch of an
accepted command, and how a statement about the end of a program carries over to a state that differs in
the unit's own context and the outputs alone (spec/40_engine.md R124 to R142). -/

namespace Sys2Proof.Machine

/-- From `s` to `t` nothing has changed but the context of `u` and the outputs. -/
structure SameBut (u : UnitId) (s t : State) : Prop where
  cfg : t.cfg = s.cfg
  mem : t.mem = s.mem
  ctx : ∀ v, v ≠ u → t.ctx v = s.ctx v
  psqs : t.psqs = s.psqs
  chans : t.chans = s.chans
  levels : t.levels = s.levels
  stack : t.stack = s.stack
  inputs : t.inputs = s.inputs

variable {u : UnitId} {s t r m : State} {c : Context}

theorem SameBut.trans (h : SameBut u s t) (k : SameBut u t r) : SameBut u s r :=
  ⟨k.cfg.trans h.cfg, k.mem.trans h.mem, fun v hv => (k.ctx v hv).trans (h.ctx v hv),
    k.psqs.trans h.psqs, k.chans.trans h.chans, k.levels.trans h.levels, k.stack.trans h.stack,
    k.inputs.trans h.inputs⟩

theorem sameBut_setCtx (u : UnitId) (s : State) (c : Context) : SameBut u s (s.setCtx u c) :=
  ⟨rfl, rfl, fun _ hv => ctx_setCtx_other s c hv, rfl, rfl, rfl, rfl, rfl⟩

theorem sameBut_emit (u : UnitId) (s : State) (o : Output) : SameBut u s (s.emit o) :=
  ⟨rfl, rfl, fun _ _ => rfl, rfl, rfl, rfl, rfl, rfl⟩

/-- The frame of such a change. -/
theorem SameBut.frame (h : SameBut u s t) : s.Frame t nothing (· = u) nothing nothing nothing :=
  ⟨h.cfg, fun _ _ => congrArg (tableGet _ _) h.mem, h.ctx, fun v _ => congrArg (tableGet _ v.key) h.psqs,
    fun v _ => congrArg (tableGet _ v) h.chans, fun v _ => congrArg (tableGet _ v) h.levels⟩

/-- A program that ends from `t` ends from `s` in the same way. -/
theorem SameBut.ended (h : SameBut u s t) (k : t.ProgramEnded m u c) : s.ProgramEnded m u c := by
  have f := h.frame
  have hc : ∀ ch, t.chan ch = s.chan ch := fun ch => f.channels ch id
  have hp : ∀ v, t.psq v = s.psq v := fun v => f.queues v id
  have hl : ∀ l, t.lvl l = s.lvl l := fun l => f.levels l id
  constructor
  · intro q
    have := k.stored (by rwa [hc, h.cfg])
    rw [hc] at this
    refine ⟨this.1, fun l => ?_⟩
    have := this.2 l
    rwa [hl, h.cfg] at this
  · intro q
    have := k.dropped (by rwa [hc, h.cfg])
    rw [hc] at this
    exact ⟨this.1, fun l => (this.2 l).trans (hl l)⟩
  · intro q
    have := k.idle (by rwa [hp, h.cfg])
    rwa [hp] at this
  · intro a q x y
    exact k.queued a q (by rwa [h.cfg]) (by rwa [hp])
  · refine ⟨k.frame.config.trans h.cfg, fun a ha => (k.frame.memory a ha).trans (f.memory a ha),
      fun v hv => (k.frame.contexts v hv).trans (f.contexts v hv),
      fun v hv => (k.frame.queues v hv).trans (hp v),
      fun ch hk => (k.frame.channels ch hk).trans (hc ch), fun l hk => ?_⟩
    rw [k.frame.levels l (by rwa [h.cfg])]
    exact hl l
  · exact k.stack.trans h.stack
  · exact k.inputs.trans h.inputs

/-- What follows the end is the same too. -/
theorem SameBut.after (h : SameBut u s t) : t.afterEnd u m = s.afterEnd u m := by
  unfold State.afterEnd
  rw [h.cfg, show t.psq u = s.psq u from h.frame.queues _ id]

/-- A program check of a Busy unit ends its program with PCHK and both ends in the record (R140). -/
theorem programCheckCmd_ended (hb : (s.ctx u).state = .busy) :
    ∃ m c, programCheckCmd u s = .ok (s.afterEnd u m) ∧ s.ProgramEnded m u c ∧
      m.outputs = .engineOutcome u .error :: s.outputs ∧ c.listAddr = (s.ctx u).listAddr ∧
      c.count = (s.ctx u).count ∧ c.status = (s.ctx u).status ||| stPchk ||| stEnds := by
  unfold programCheckCmd forceEnd
  simp only [emit_ctx, ctx_setCtx_same]
  set x := ((s.setCtx u (mergeStatus stPchk (s.ctx u))).emit (.engineOutcome u .error)).setCtx u
    (stopChaining (mergeStatus stPchk (s.ctx u))) with hx
  have xc : x.ctx u = stopChaining (mergeStatus stPchk (s.ctx u)) := by simp [hx]
  have nx : SameBut u s x :=
    ((sameBut_setCtx u s _).trans (sameBut_emit u _ _)).trans (sameBut_setCtx u _ _)
  have st : (endedContext stEnds (x.ctx u)).status = (s.ctx u).status ||| stPchk ||| stEnds := by
    rw [xc]
    unfold endedContext stopChaining mergeStatus
    have hp : ((s.ctx u).status ||| stPchk ||| stEnds ||| stCe) &&& stPchk ≠ 0 := by
      intro e
      have := congrArg (fun v => v.getLsbD 12) e
      simp [stPchk] at this
    dsimp only
    rw [if_neg hp]
    have : (s.ctx u).status ||| stPchk ||| stEnds ||| stCe = (s.ctx u).status ||| stPchk ||| stEnds := by
      rw [BitVec.or_assoc, show stEnds ||| stCe = stEnds by decide]
    split <;> exact this
  have la : (endedContext stEnds (x.ctx u)).listAddr = (s.ctx u).listAddr ∧
      (endedContext stEnds (x.ctx u)).count = (s.ctx u).count ∧
      (endedContext stEnds (x.ctx u)).flags.cc = false := by
    rw [xc]
    unfold endedContext stopChaining mergeStatus
    dsimp only
    split <;> simp [Flags.none]
  have hd : (endedContext stEnds (x.ctx u)).status &&& stDe ≠ 0 := by
    rw [st]
    intro e
    have := congrArg (fun v => v.getLsbD 2) e
    simp [stEnds, stDe, stCe] at this
  rw [channelEnd_finishes x (by rw [xc]; simp [stopChaining, mergeStatus, hb]) hd (.inl la.2.2)]
  refine ⟨(finishProgram u (endedContext stEnds (x.ctx u)) x).1, _, ?_, ?_, ?_, la.1, la.2.1, st⟩
  · rw [nx.after]
  · exact nx.ended (finishProgram_ended x u _)
  · simp [hx]

/-- The meaning of a descriptor that is not a TIC. -/
theorem exec_eq_beginCommand {i : Instr} {code : Byte} {addr : Addr} {w2 : CommandWord}
    (hi : commandOperands i = some (code, addr, w2)) (s : State) :
    exec i s = beginCommand code addr w2 s := by
  cases i <;> simp only [commandOperands, Option.some.injEq, Prod.mk.injEq, reduceCtorEq] at hi <;>
    (obtain ⟨rfl, rfl, rfl⟩ := hi; rfl)

/-- A descriptor that fails a check (R125 to R129). -/
theorem beginCommand_bad {ticOk : Bool} {rest : List Activation} {code : Byte} {addr : Addr}
    {w2 : CommandWord} (ha : s.atDescriptor u ticOk rest) (hb : descriptorBad s.cfg code addr w2 = true) :
    beginCommand code addr w2 s = outcomeOf (programCheckCmd u (s.withStack rest)) := by
  unfold beginCommand acceptDescriptor
  rw [ha.1]
  simp [ha.2.2, hb]

/-- The device's next run depends on the inputs alone. -/
theorem takeStart_eq {s t : State} (h : s.inputs = t.inputs) :
    (takeStart s).1 = (takeStart t).1 ∧ (takeStart s).2.inputs = (takeStart t).2.inputs := by
  unfold takeStart
  rw [h]
  split <;> exact ⟨rfl, rfl⟩

theorem takeStart_withInputs (s : State) : ∃ i, (takeStart s).2 = s.withInputs i := by
  unfold takeStart
  split <;> exact ⟨_, rfl⟩

/-! ## The calls a device makes inside `start_command` -/

/-- What such calls leave as it is: everything but the unit's own context, memory, the FIFOs with their
levels, and the outputs; of the context, the transfer-state (R303 item 1). -/
structure Kept (u : UnitId) (s t : State) : Prop where
  cfg : t.cfg = s.cfg
  state : (t.ctx u).state = (s.ctx u).state
  ctx : ∀ v, v ≠ u → t.ctx v = s.ctx v
  psqs : t.psqs = s.psqs
  inch : ∀ ch, (t.chan ch).inchValid = (s.chan ch).inchValid ∧
    (t.chan ch).inchBase = (s.chan ch).inchBase ∧ (t.chan ch).inchCur = (s.chan ch).inchCur ∧
    (t.chan ch).inchHwm = (s.chan ch).inchHwm
  stack : t.stack = s.stack
  inputs : t.inputs = s.inputs

theorem kept_refl (u : UnitId) (s : State) : Kept u s s :=
  ⟨rfl, rfl, fun _ _ => rfl, rfl, fun _ => ⟨rfl, rfl, rfl, rfl⟩, rfl, rfl⟩

theorem Kept.trans (h : Kept u s t) (k : Kept u t r) : Kept u s r :=
  ⟨k.cfg.trans h.cfg, k.state.trans h.state, fun v hv => (k.ctx v hv).trans (h.ctx v hv),
    k.psqs.trans h.psqs,
    fun ch => ⟨(k.inch ch).1.trans (h.inch ch).1, (k.inch ch).2.1.trans (h.inch ch).2.1,
      (k.inch ch).2.2.1.trans (h.inch ch).2.2.1, (k.inch ch).2.2.2.trans (h.inch ch).2.2.2⟩,
    k.stack.trans h.stack, k.inputs.trans h.inputs⟩

/-- A byte helper and the record of its answer. -/
theorem OnlyContext.kept (h : OnlyContext u s t) (hs : (t.ctx u).state = (s.ctx u).state) (o : Output) :
    Kept u s (t.emit o) :=
  ⟨h.cfg, hs, h.ctx, h.psqs, fun ch => by simp [h.chan ch], h.stack, h.inputs⟩

/-- A push to the front and the record of its answer. -/
theorem kept_pushStatusFront (u : UnitId) (ch : Nat) (x : Record) (s : State) (o : Output) :
    Kept u s ((pushStatusFront ch x s).2.emit o) := by
  refine ⟨by simp, by simp, fun v _ => by simp, by simp, fun k => ?_, by simp, by simp⟩
  rw [emit_chan, chan_pushStatusFront]
  split_ifs with h1 h2
  · subst h1; exact ⟨rfl, rfl, rfl, rfl⟩
  · subst h1; exact ⟨rfl, rfl, rfl, rfl⟩
  · exact ⟨rfl, rfl, rfl, rfl⟩

/-- A call other than a signal. -/
theorem kept_deviceCall {d : DevCall} (hd : ∀ extra, d ≠ .signal extra) (h : deviceCall u d s = .ok t) :
    Kept u s t := by
  cases d with
  | signal extra => exact absurd rfl (hd extra)
  | readByte =>
    cases h
    exact (onlyContext_readNextByte u s).kept (readNextByte_keeps u s).2 _
  | writeByte b =>
    cases h
    exact (onlyContext_writeNextByte u b s).kept (writeNextByte_state u b s) _
  | pushFront ch x =>
    simp only [deviceCall] at h
    split at h
    · cases h; exact kept_pushStatusFront u ch x s _
    · cases h

theorem CallsRun.kept {ds : List DevCall} (h : CallsRun u ds s t) : Kept u s t := by
  induction ds generalizing s with
  | nil => cases h; exact kept_refl u t
  | cons d ds ih =>
    obtain ⟨hd, x, hx, hr⟩ := h
    exact (kept_deviceCall hd hx).trans (ih hr)

/-- The calls of a run inside the contract are made in order. -/
theorem CallsRun.startCalls {ds : List DevCall} (h : CallsRun u ds s t) : startCalls u ds s = .ok t := by
  induction ds generalizing s with
  | nil => cases h; rfl
  | cons d ds ih =>
    obtain ⟨hd, x, hx, hr⟩ := h
    cases d with
    | signal extra => exact absurd rfl (hd extra)
    | readByte => simp only [Machine.startCalls, hx]; exact ih hr
    | writeByte b => simp only [Machine.startCalls, hx]; exact ih hr
    | pushFront ch y => simp only [Machine.startCalls, hx]; exact ih hr

/-- Calls that the contract allows can be made (R303 item 1). -/
theorem exists_callsRun (u : UnitId) {ds : List DevCall} (h : ds.all (callAllowedInStart s.cfg) = true) :
    ∃ t, CallsRun u ds s t := by
  induction ds generalizing s with
  | nil => exact ⟨s, rfl⟩
  | cons d ds ih =>
    simp only [List.all_cons, Bool.and_eq_true] at h
    obtain ⟨x, hd, hx⟩ : ∃ x, (∀ extra, d ≠ .signal extra) ∧ deviceCall u d s = .ok x := by
      cases d with
      | signal extra => cases h.1
      | readByte => exact ⟨_, fun _ e => (by cases e), rfl⟩
      | writeByte b => exact ⟨_, fun _ e => (by cases e), rfl⟩
      | pushFront ch y =>
        have hc : ch < s.cfg.numChan := by simpa [callAllowedInStart] using h.1
        exact ⟨_, fun _ e => (by cases e), if_pos hc⟩
    obtain ⟨t, ht⟩ := ih (by rw [(kept_deviceCall hd hx).cfg]; exact h.2)
    exact ⟨t, hd, x, hx, ht⟩

/-- A signal among the calls is a breach of the contract (R311). -/
theorem startCalls_signal {ds : List DevCall} (extra : Half) (es : List DevCall) (h : CallsRun u ds s t) :
    startCalls u (ds ++ .signal extra :: es) s = .error .signalInsideStart := by
  induction ds generalizing s with
  | nil => rfl
  | cons d ds ih =>
    obtain ⟨hd, x, hx, hr⟩ := h
    cases d with
    | signal e => exact absurd rfl (hd e)
    | readByte => simp only [List.cons_append, Machine.startCalls, hx]; exact ih hr
    | writeByte b => simp only [List.cons_append, Machine.startCalls, hx]; exact ih hr
    | pushFront ch y => simp only [List.cons_append, Machine.startCalls, hx]; exact ih hr

/-! ## The dispatch -/

/-- An accepted descriptor is loaded and its device called in the state `dispatched`; the rest follows
from the calls and the answer of the device's run (R130, R132, R135). -/
theorem beginCommand_dispatches {ticOk : Bool} {rest : List Activation} {code : Byte} {addr : Addr}
    {w2 : CommandWord} (ha : s.atDescriptor u ticOk rest) (hb : descriptorBad s.cfg code addr w2 = false) :
    beginCommand code addr w2 s =
      outcomeOf (match startCalls u (takeStart s).1.calls (s.dispatched u rest code addr w2) with
        | .ok x => afterAnswer u (takeStart s).1.answer x
        | .error f => .error f) := by
  have hacc : acceptDescriptor u code addr w2 (s.withStack rest) =
      some (false, code, (s.withStack rest).setCtx u (loadedContext code addr w2 (s.ctx u))) := by
    unfold acceptDescriptor
    simp [ha.2.2, hb]
  set y := (s.withStack rest).setCtx u (loadedContext code addr w2 (s.ctx u)) with hy
  set z := (if classOf code = .inch then loadInchRange u y else y) with hz
  have zin : z.inputs = s.inputs := by rw [hz]; split <;> rfl
  have tz := takeStart_eq zin
  obtain ⟨i, hi⟩ := takeStart_withInputs s
  obtain ⟨j, hj⟩ := takeStart_withInputs z
  have ij : j = i := by
    have h := tz.2
    rw [hi, hj] at h
    exact h
  subst ij
  have hd : (takeStart z).2.emit (.startCommand u code) = s.dispatched u rest code addr w2 := by
    unfold State.dispatched State.dispatchBase
    rw [hi, hj, hz]
    by_cases hc : classOf code = .inch
    · simp only [hc, if_true]
      have d1 : (y.ctx u).dataAddr = addr := by simp [hy, loadedContext]
      have d2 : (y.ctx u).count = w2.count := by simp [hy, loadedContext]
      unfold loadInchRange
      rw [d1, d2]
      rfl
    · simp only [hc, if_false]
      rfl
  unfold beginCommand
  rw [ha.1]
  dsimp only
  rw [hacc]
  dsimp only
  have key : ∀ (r : StartRun) (x : State), r = (takeStart s).1 → x = s.dispatched u rest code addr w2 →
      (match startCalls u r.calls x with
        | .ok x => afterAnswer u r.answer x
        | .error f => .error f) =
      match startCalls u (takeStart s).1.calls (s.dispatched u rest code addr w2) with
        | .ok x => afterAnswer u (takeStart s).1.answer x
        | .error f => .error f := by
    rintro r x rfl rfl
    cases startCalls u (takeStart s).1.calls (s.dispatched u rest code addr w2) <;> rfl
  exact congrArg outcomeOf (key _ _ tz.1 hd)

/-- An accepted descriptor whose device has made its calls and answers `st` in the state `x`. -/
theorem beginCommand_answered {x : State} {ticOk : Bool} {rest : List Activation} {code : Byte}
    {addr : Addr} {w2 : CommandWord} {st : Half} (ha : s.atDescriptor u ticOk rest)
    (hb : descriptorBad s.cfg code addr w2 = false) (hx : s.CommandAnswered x u rest code addr w2 st) :
    beginCommand code addr w2 s = outcomeOf (afterAnswer u st x) := by
  rw [beginCommand_dispatches ha hb, hx.2.startCalls, hx.1]

/-- What the dispatch itself changes: the status buffer where the command is INCH, the unit's context, the
inputs and the outputs (R130, R132, R135). -/
theorem dispatched_frame (s : State) (u : UnitId) (rest : List Activation) (code : Byte) (addr : Addr)
    (w2 : CommandWord) :
    s.Frame (s.dispatched u rest code addr w2) nothing (· = u) nothing
      (fun ch => classOf code = .inch ∧ ch = u.ch) nothing ∧
    (s.dispatched u rest code addr w2).ctx u = startedContext (s.ctx u) code addr w2 ∧
    (s.dispatched u rest code addr w2).psqs = s.psqs ∧
    (s.dispatched u rest code addr w2).stack = rest ∧
    (s.dispatched u rest code addr w2).inputs = (takeStart s).2.inputs ∧
    (s.dispatched u rest code addr w2).outputs = .startCommand u code :: s.outputs := by
  obtain ⟨i, hi⟩ := takeStart_withInputs s
  unfold State.dispatched State.dispatchBase
  rw [hi]
  split
  · rename_i hc
    refine ⟨⟨rfl, fun _ _ => rfl, fun v hv => ctx_setCtx_other _ _ hv, fun _ _ => rfl, fun ch hn => ?_,
      fun _ _ => rfl⟩, ctx_setCtx_same _ _ _, rfl, rfl, rfl, rfl⟩
    have : ch ≠ u.ch := fun e => hn ⟨hc, e⟩
    show (State.setChan (s.withInputs i) u.ch _).chan ch = s.chan ch
    rw [chan_setChan, if_neg this]
    rfl
  · exact ⟨⟨rfl, fun _ _ => rfl, fun v hv => ctx_setCtx_other _ _ hv, fun _ _ => rfl, fun _ _ => rfl,
      fun _ _ => rfl⟩, ctx_setCtx_same _ _ _, rfl, rfl, rfl, rfl⟩

end Sys2Proof.Machine
end

