-- ==== Sys2Proof/Laws/Encoding.lean ====
section
/-! SUPPORT. The encoded words as numbers: where each field stands (spec/30_encoding.md R80, R83, R95). -/

namespace Sys2Proof

/-- Appending puts the first part above the second. -/
theorem toNat_append {n m : Nat} (x : BitVec n) (y : BitVec m) :
    (x ++ y).toNat = x.toNat * 2 ^ m + y.toNat := by
  rw [BitVec.toNat_append, ← Nat.shiftLeft_add_eq_or_of_lt y.isLt, Nat.shiftLeft_eq]

/-- Word 1 of a descriptor: the code above the address (R80). -/
theorem descriptorWord_toNat (code : Byte) (addr : Addr) :
    (code ++ addr : BitVec (8 + 24)).toNat = code.toNat * 2 ^ 24 + addr.toNat := toNat_append code addr

/-- Word 2 of a descriptor as a number (R83). -/
theorem encodeCommandWord_toNat (c : CommandWord) :
    (encodeCommandWord c).toNat =
      c.flags.dc.toNat * 2 ^ 31 + c.flags.cc.toNat * 2 ^ 30 + c.flags.sli.toNat * 2 ^ 29 +
        c.flags.skip.toNat * 2 ^ 28 + c.flags.pci.toNat * 2 ^ 27 + c.reserved.toNat * 2 ^ 16 +
        c.count.toNat := by
  unfold encodeCommandWord
  rw [toNat_append, toNat_append, toNat_append, toNat_append, toNat_append, toNat_append,
    BitVec.toNat_ofBool, BitVec.toNat_ofBool, BitVec.toNat_ofBool, BitVec.toNat_ofBool,
    BitVec.toNat_ofBool]
  ring

/-- A request word as a number (R95). -/
theorem requestWord_toNat (fn : BitVec 4) (lchan : BitVec 7) (sa : Byte) :
    (0#12 ++ fn ++ 0#1 ++ lchan ++ sa : BitVec (12 + 4 + 1 + 7 + 8)).toNat =
      fn.toNat * 2 ^ 16 + lchan.toNat * 2 ^ 8 + sa.toNat := by
  rw [toNat_append, toNat_append, toNat_append, toNat_append]
  simp only [BitVec.toNat_ofNat, Nat.zero_mod, Nat.zero_mul, Nat.zero_add, Nat.add_zero]
  ring

/-- The reserved bits of a request are zero: bits 31 to 20 and bit 15 (R95, R97). -/
theorem requestReservedOk_iff (req : Word) :
    requestReservedOk req = true ↔ req.toNat / 2 ^ 20 = 0 ∧ req.toNat / 2 ^ 15 % 2 = 0 := by
  have h := req.isLt
  unfold requestReservedOk
  rw [Bool.and_eq_true, beq_iff_eq, Bool.not_eq_true', ← BitVec.toNat_inj]
  have hz : (0 : BitVec 12).toNat = 0 := rfl
  simp only [BitVec.extractLsb'_toNat, Nat.shiftRight_eq_div_pow, hz, BitVec.getLsbD, Nat.testBit_eq_decide_div_mod_eq, decide_eq_false_iff_not]
  omega

end Sys2Proof
end

