-- ==== Sys2Proof/Laws/Invariant.lean ====
section
/-! SUPPORT. Each shared operation keeps the invariant of the stored state (`State.Inv`). -/

namespace Sys2Proof.Machine

variable {s : State}

/-- The two flag invariants of one level (R37, R38). -/
def levelSound (x : Level) : Prop :=
  (x.active = true → x.requested = false) ∧ (x.extPending = true → x.active = true)

theorem State.Inv.levelSound (h : s.Inv) (l : Nat) : levelSound (s.lvl l) :=
  ⟨h.activeXorRequested l, h.pendingOnlyActive l⟩

theorem inv_emit (h : s.Inv) (o : Output) : (s.emit o).Inv :=
  ⟨h.1, h.2, h.3, h.4, h.5, h.6, h.7, h.8, h.9, h.10, h.11, h.12, h.13, h.14⟩

theorem inv_push (h : s.Inv) (a : Activation) : (s.push a).Inv :=
  ⟨h.1, h.2, h.3, h.4, h.5, h.6, h.7, h.8, h.9, h.10, h.11, h.12, h.13, h.14⟩

theorem inv_withStack (h : s.Inv) (st : List Activation) : (s.withStack st).Inv :=
  ⟨h.1, h.2, h.3, h.4, h.5, h.6, h.7, h.8, h.9, h.10, h.11, h.12, h.13, h.14⟩

theorem inv_withInputs (h : s.Inv) (i : Inputs) : (s.withInputs i).Inv :=
  ⟨h.1, h.2, h.3, h.4, h.5, h.6, h.7, h.8, h.9, h.10, h.11, h.12, h.13, h.14⟩

theorem inv_answer (h : s.Inv) (o : XioOutcome) : (s.answer o).Inv := inv_emit h _

theorem inv_setCtx (h : s.Inv) (u : UnitId) (c : Context) : (s.setCtx u c).Inv :=
  ⟨h.1, h.2, h.3, setCtx_ok s u c h.4, h.5, h.6, h.7, h.8, h.9, h.10, h.11, h.12, h.13, h.14⟩

theorem inv_setTransfer (h : s.Inv) (u : UnitId) (t : TransferState) : (s.setTransfer u t).Inv :=
  inv_setCtx h _ _

theorem inv_setPsq (h : s.Inv) {u : UnitId} {q : List Addr} (hl : q.length ≤ s.cfg.psqCap)
    (hq : (unitCfg s.cfg u).hasPsq = false → q = []) : (s.setPsq u q).Inv := by
  refine ⟨h.1, h.2, h.3, h.4, setPsq_ok s u q h.5, h.6, h.7, h.8, ?_, ?_, h.11, h.12, h.13, h.14⟩
  · intro v
    rw [psq_setPsq]
    split
    · exact hl
    · exact h.psqBound v
  · intro v hv
    rw [psq_setPsq]
    split
    · subst_vars; exact hq hv
    · exact h.psqOwned v hv

theorem inv_setChan (h : s.Inv) {ch : Nat} {c : Channel} (hl : c.fifo.length ≤ s.cfg.fifoCap)
    (hi : inchRangeOk s.cfg.memSize c) : (s.setChan ch c).Inv := by
  refine ⟨h.1, h.2, h.3, h.4, h.5, setChan_ok s ch c h.6, h.7, ?_, h.9, h.10, ?_, h.12, h.13, h.14⟩
  · intro k
    rw [chan_setChan]
    split
    · exact hl
    · exact h.fifoBound k
  · intro k
    rw [chan_setChan]
    split
    · exact hi
    · exact h.inchOk k

theorem inv_setLvl (h : s.Inv) {l : Nat} {x : Level} (hx : levelSound x)
    (hc : (levelCfg s.cfg l).configured = true) : (s.setLvl l x).Inv := by
  refine ⟨h.1, h.2, h.3, h.4, h.5, h.6, setLvl_ok s l x h.7, h.8, h.9, h.10, h.11, ?_, ?_, ?_⟩
  · intro k
    rw [lvl_setLvl]
    split
    · exact hx.1
    · exact h.activeXorRequested k
  · intro k
    rw [lvl_setLvl]
    split
    · exact hx.2
    · exact h.pendingOnlyActive k
  · intro k hk
    rw [lvl_setLvl]
    split
    · rename_i e
      rw [setLvl_cfg, e, hc] at hk
      cases hk
    · exact h.unusedLevels k hk

theorem inv_writeByte (h : s.Inv) {a : Nat} (b : Byte) (ha : a < s.cfg.memSize) :
    (s.writeByte a b).Inv := by
  refine ⟨h.1, writeByte_wf s a b h.2, ?_, h.4, h.5, h.6, h.7, h.8, h.9, h.10, h.11, h.12, h.13,
    h.14⟩
  intro k hk
  rw [readByte_writeByte]
  split
  · rename_i e
    rw [writeByte_cfg] at hk
    omega
  · exact h.memBound k hk

theorem inv_storeByte (h : s.Inv) (a : Addr) (b : Byte) : (s.storeByte a b).Inv := by
  obtain ⟨ha, hs⟩ | ⟨-, hs⟩ := storeByte_cases s a b <;> rw [hs]
  · exact inv_writeByte h b ha
  · exact h

theorem inv_writeWord (h : s.Inv) {a : Nat} (v : Word) (ha : a + 4 ≤ s.cfg.memSize) :
    (s.writeWord a v).Inv := by
  unfold State.writeWord
  refine inv_writeByte (inv_writeByte (inv_writeByte (inv_writeByte h _ ?_) _ ?_) _ ?_) _ ?_ <;>
    first | omega | (simp only [writeByte_cfg]; omega)

theorem inv_onChannelLevel (h : s.Inv) (ch : Nat) {f : Level → Level}
    (hf : ∀ x, levelSound x → levelSound (f x)) : (s.onChannelLevel ch f).Inv := by
  unfold State.onChannelLevel
  split
  · split
    · exact inv_setLvl h (hf _ (h.levelSound _)) ‹_›
    · exact h
  · exact h

theorem levelSound_request (x : Level) (h : levelSound x) : levelSound (requestUnlessActive x) := by
  unfold requestUnlessActive levelSound at *
  split <;> simp_all

theorem levelSound_withdraw (x : Level) (h : levelSound x) : levelSound (withdrawRequest x) := by
  unfold withdrawRequest levelSound at *
  simp_all

theorem levelSound_clear (w : Bool) (x : Level) : levelSound (clearLevel w x) := by
  simp [clearLevel, levelSound]

theorem inv_dropRecord (h : s.Inv) (ch : Nat) : (s.dropRecord ch).Inv :=
  inv_setChan h (h.fifoBound ch) (h.inchOk ch)

theorem inv_storeStatus (h : s.Inv) (ch : Nat) (r : Record) : (storeStatus ch r s).2.Inv := by
  unfold storeStatus
  split
  · refine inv_onChannelLevel (inv_setChan (c := { s.chan ch with fifo := (s.chan ch).fifo ++ [r] })
      h ?_ (h.inchOk ch)) ch levelSound_request
    simp only [List.length_append, List.length_singleton]
    omega
  · exact inv_dropRecord h ch

theorem inv_pushStatusFront (h : s.Inv) (ch : Nat) (r : Record) : (pushStatusFront ch r s).2.Inv := by
  unfold pushStatusFront
  split
  · refine inv_onChannelLevel (inv_setChan (c := { s.chan ch with fifo := r :: (s.chan ch).fifo })
      h ?_ (h.inchOk ch)) ch levelSound_request
    simp only [List.length_cons]
    omega
  · exact inv_dropRecord h ch

theorem inchRangeOk_nextSlot {n : Nat} {c : Channel} (q : List Record) (h : inchRangeOk n c)
    (hn : n ≤ 2 ^ 24) : inchRangeOk n { c with fifo := q, inchCur := nextSlot c } := by
  intro hv
  obtain ⟨h1, h2, h3, h4, h5, h6, h7⟩ := h hv
  refine ⟨h1, h2, h3, ?_⟩
  unfold nextSlot
  split
  · exact ⟨le_refl _, h2, by simp, h7⟩
  · have : (c.inchCur + 8).toNat = c.inchCur.toNat + 8 := by
      simp only [BitVec.toNat_add]
      have : (8 : BitVec 24).toNat = 8 := rfl
      omega
    simp only [this]
    omega

theorem memSize_le (h : s.cfg.wf = true) : s.cfg.memSize ≤ 2 ^ 24 := by
  simp only [Config.wf, Config.sizesOk, Bool.and_eq_true, decide_eq_true_eq] at h
  exact h.1.1.1.1.1.1.1.1.1.1.1.2

theorem inv_postStatus {t : State} (h : s.Inv) {ch : Nat} {mask : Half}
    (hp : postStatus ch mask s = some t) : t.Inv := by
  unfold postStatus at hp
  dsimp only at hp
  split at hp
  · cases hp
  · rename_i r rest hf
    split at hp
    · rename_i hs
      have hl : rest.length ≤ s.cfg.fifoCap := by
        have := h.fifoBound ch
        rw [hf] at this
        simp only [List.length_cons] at this
        omega
      have hm : (s.chan ch).inchCur.toNat + 8 ≤ s.cfg.memSize := by
        simp only [slotUsable, memOk, Bool.and_eq_true, decide_eq_true_eq] at hs
        exact hs.2
      have h2 : (((s.writeWord (s.chan ch).inchCur.toNat r.w1).writeWord
          ((s.chan ch).inchCur.toNat + 4) (maskStatus mask r.w2)).setChan ch
            { s.chan ch with fifo := rest, inchCur := nextSlot (s.chan ch) }).Inv := by
        refine inv_setChan (inv_writeWord (inv_writeWord h _ (by omega)) _ ?_) ?_ ?_
        · simp only [writeWord_cfg]; omega
        · exact hl
        · exact inchRangeOk_nextSlot rest (h.inchOk ch) (memSize_le h.cfgWf)
      simp only [Option.some.injEq] at hp
      subst hp
      split
      · exact inv_onChannelLevel h2 ch levelSound_withdraw
      · exact h2
    · cases hp

theorem inv_takePreCheck (h : s.Inv) : (takePreCheck s).2.Inv := by
  unfold takePreCheck; split <;> exact inv_withInputs h _

theorem inv_takeStart (h : s.Inv) : (takeStart s).2.Inv := by
  unfold takeStart; split <;> exact inv_withInputs h _

theorem inv_takeHalt (h : s.Inv) : (takeHalt s).2.Inv := by
  unfold takeHalt; split <;> exact inv_withInputs h _

theorem inv_takeStop (h : s.Inv) : (takeStop s).2.Inv := by
  unfold takeStop; split <;> exact inv_withInputs h _

theorem inv_takeOverride (h : s.Inv) : (takeOverride s).2.Inv := by
  unfold takeOverride; split <;> exact inv_withInputs h _

theorem inv_enterEngine (h : s.Inv) (u : UnitId) (allow : Bool) : (enterEngine u allow s).Inv := by
  unfold enterEngine
  split
  · exact inv_push (inv_emit (inv_takeOverride h) _) _
  · exact inv_push (inv_setTransfer h _ _) _

theorem inv_finishProgram (h : s.Inv) (u : UnitId) (c : Context) : (finishProgram u c s).1.Inv := by
  have h3 := inv_setCtx (inv_storeStatus (inv_setCtx h u { c with state := .done }) u.ch
    (recordOf u c)) u { c with state := .posted }
  unfold finishProgram
  dsimp only
  split
  · obtain ⟨hp, rest, hq, rfl⟩ := (dequeue_eq_some _ _).1 ‹_›
    refine inv_setCtx (inv_setPsq h3 ?_ ?_) _ _
    · have := h3.psqBound u
      rw [hq] at this
      simp only [List.length_cons] at this
      omega
    · intro e; rw [hp] at e; cases e
  · exact inv_setTransfer h3 _ _

theorem inv_channelEndFrom (h : s.Inv) (u : UnitId) (c : Context) :
    (channelEndFrom u c s).1.Inv := by
  rcases channelEndFrom_cases s u c with ⟨-, e⟩ | ⟨-, -, -, e⟩ | ⟨-, -, e⟩ <;> rw [e]
  · exact inv_setCtx h _ _
  · exact inv_setCtx h _ _
  · exact inv_finishProgram h u c

theorem inv_channelEndCore (h : s.Inv) {u : UnitId} {extra : Half} {r : State × Option Bool}
    (hr : channelEndCore u extra s = .ok r) : r.1.Inv := by
  rcases channelEndCore_cases s u extra with ⟨-, e⟩ | ⟨-, e⟩ | ⟨-, e⟩ <;> rw [e] at hr
  · cases hr; exact h
  · cases hr; exact inv_channelEndFrom h _ _
  · cases hr

theorem inv_resume {r : State × Option Bool} (h : r.1.Inv) (u : UnitId) : (resume u r).Inv := by
  obtain ⟨t, _ | allow⟩ := r
  · exact h
  · exact inv_enterEngine h u allow

theorem inv_channelEnd {t : State} (h : s.Inv) {u : UnitId} {extra : Half}
    (ht : channelEnd u extra s = .ok t) : t.Inv := by
  unfold channelEnd at ht
  cases e : channelEndCore u extra s with
  | error f => rw [e] at ht; cases ht
  | ok r =>
    rw [e] at ht
    cases ht
    exact inv_resume (inv_channelEndCore h e) u

theorem inv_forceEnd {t : State} (h : s.Inv) {u : UnitId} {bits : Half}
    (ht : forceEnd u bits s = .ok t) : t.Inv := inv_channelEnd (inv_setCtx h _ _) ht

theorem inv_programCheckCmd {t : State} (h : s.Inv) {u : UnitId}
    (ht : programCheckCmd u s = .ok t) : t.Inv := inv_forceEnd (inv_emit (inv_setCtx h _ _) _) ht

theorem inv_programCheckData (h : s.Inv) (u : UnitId) : (programCheckData u s).Inv :=
  inv_setCtx h _ _

theorem inv_chainPass (h : s.Inv) (u : UnitId) {k : Option (State → Bool × State)}
    (hk : ∀ f ∈ k, ∀ t : State, t.Inv → (f t).2.Inv) : (chainPass u k s).2.Inv := by
  unfold chainPass
  split
  · exact inv_programCheckData h u
  · rename_i w1 w2 s1 hf
    have h1 : s1.Inv := by
      rw [(fetchDescriptor_some hf).2.2.2.2]; exact inv_setCtx h _ _
    split
    · split
      · exact inv_programCheckData h1 u
      · exact hk _ rfl _ (inv_setCtx h1 _ _)
    · split
      · exact inv_programCheckData h1 u
      · rename_i ha
        rw [(acceptDescriptor_some ha).2.2.2]; exact inv_setCtx h1 _ _

theorem inv_execDataChain (h : s.Inv) (u : UnitId) : (execDataChain u s).2.Inv := by
  refine inv_chainPass (inv_setTransfer h _ _) u ?_
  rintro f hf t ht
  cases hf
  exact inv_chainPass ht u (by rintro f hf; cases hf)

theorem inv_moveByteOut (h : s.Inv) (u : UnitId) : (moveByteOut u s).2.Inv := by
  unfold moveByteOut
  dsimp only
  split
  · exact inv_setCtx h _ _
  · exact inv_programCheckData h u

theorem inv_readNextByte (h : s.Inv) (u : UnitId) : (readNextByte u s).2.Inv := by
  have hc := inv_execDataChain h u
  unfold readNextByte
  split_ifs
  · exact h
  · exact inv_moveByteOut h u
  · exact h
  · split
    · rename_i e; rw [e] at hc; exact hc
    · rename_i e
      rw [e] at hc
      split_ifs
      · exact inv_moveByteOut hc u
      · exact hc

theorem inv_moveByteIn (h : s.Inv) (u : UnitId) (b : Byte) : (moveByteIn u b s).2.Inv := by
  unfold moveByteIn
  dsimp only
  split
  · exact inv_setCtx h _ _
  · split
    · rename_i hm
      refine inv_setCtx (inv_writeByte h _ ?_) _ _
      simp only [memOk, decide_eq_true_eq] at hm
      omega
    · exact inv_programCheckData h u

theorem inv_writeNextByte (h : s.Inv) (u : UnitId) (b : Byte) : (writeNextByte u b s).2.Inv := by
  have hc := inv_execDataChain h u
  unfold writeNextByte
  split_ifs
  · exact h
  · exact inv_moveByteIn h u b
  · exact h
  · split
    · rename_i e; rw [e] at hc; exact hc
    · rename_i e
      rw [e] at hc
      split_ifs
      · exact inv_moveByteIn hc u b
      · exact hc

theorem inv_deviceCall {t : State} (h : s.Inv) {u : UnitId} {d : DevCall}
    (ht : deviceCall u d s = .ok t) : t.Inv := by
  cases d with
  | signal extra => exact inv_channelEnd h ht
  | readByte => cases ht; exact inv_emit (inv_readNextByte h u) _
  | writeByte b => cases ht; exact inv_emit (inv_writeNextByte h u b) _
  | pushFront ch r =>
    simp only [deviceCall] at ht
    split at ht
    · cases ht; exact inv_emit (inv_pushStatusFront h ch r) _
    · cases ht

/-- A range loaded from operands that pass the check of R129 is sound (R33, R135). -/
theorem inv_loadInchRange (h : s.Inv) {u : UnitId}
    (hi : inchOperandBad s.cfg (s.ctx u).dataAddr (s.ctx u).count = false) :
    (loadInchRange u s).Inv := by
  refine inv_setChan h (h.fifoBound u.ch) ?_
  simp only [inchOperandBad, memOk, Bool.or_eq_false_iff, Bool.not_eq_false', decide_eq_false_iff_not,
    decide_eq_true_eq, not_lt] at hi
  obtain ⟨⟨ha, hc⟩, hm⟩ := hi
  have hms := memSize_le h.cfgWf
  have hb : 8 ≤ inchBytes (s.ctx u).count := by unfold inchBytes; omega
  have hw : (BitVec.ofNat 24 ((s.ctx u).dataAddr.toNat + inchBytes (s.ctx u).count - 8)).toNat =
      (s.ctx u).dataAddr.toNat + inchBytes (s.ctx u).count - 8 := by
    rw [BitVec.toNat_ofNat]; exact Nat.mod_eq_of_lt (by omega)
  intro _
  refine ⟨ha, ?_, ?_, le_refl _, ?_, by simp, ?_⟩ <;> simp only [hw]
  · omega
  · unfold inchBytes; omega
  · omega
  · omega

end Sys2Proof.Machine
end

