-- ==== Sys2Proof/Laws/PerInstr.lean ====
section
/-! SUPPORT. The family RowMatch: the encoding of a well-formed instruction matches its row of
spec/opcode_table.json (spec/30_encoding.md R82, R95, R96). -/

namespace Sys2Proof.Laws

/-- The first word of an encoding: a descriptor's word 1, or the request word. -/
def RowMatch.firstWord : Encoded → Word
  | .descriptor w1 _ => w1
  | .request req _ => req

/-- The mask and the match of an instruction's row. -/
def RowMatch.row : Instr → Word × Word
  | .inch .. => (0xFF000000, 0x00000000)
  | .invalid .. => (0x0F000000, 0x00000000)
  | .write .. => (0x03000000, 0x01000000)
  | .read .. => (0x03000000, 0x02000000)
  | .control .. => (0x03000000, 0x03000000)
  | .sense .. => (0x0F000000, 0x04000000)
  | .tic .. => (0x0F000000, 0x08000000)
  | .rdbwd .. => (0x0F000000, 0x0C000000)
  | .sio .. => (0xFFFF8000, 0x00020000)
  | .tio .. => (0xFFFF8000, 0x00030000)
  | .stpio .. => (0xFFFF8000, 0x00040000)
  | .rschnl .. => (0xFFFF8000, 0x00050000)
  | .hio .. => (0xFFFF8000, 0x00060000)
  | .grio .. => (0xFFFF8000, 0x00070000)
  | .rsctl .. => (0xFFFF8000, 0x00080000)
  | .eci .. => (0xFFFF8000, 0x000C0000)
  | .dci .. => (0xFFFF8000, 0x000D0000)
  | .aci .. => (0xFFFF8000, 0x000E0000)
  | .daci .. => (0xFFFF8000, 0x000F0000)
  | .unassigned0 .. => (0xFFFF8000, 0x00000000)
  | .unassigned1 .. => (0xFFFF8000, 0x00010000)
  | .unassigned9 .. => (0xFFFF8000, 0x00090000)
  | .unassignedA .. => (0xFFFF8000, 0x000A0000)
  | .unassignedB .. => (0xFFFF8000, 0x000B0000)

/-- Under the mask of its row, the first word of the encoding is the row's match. -/
def RowMatch.Statement (i : Instr) : Prop :=
  i.wellFormed = true → firstWord (encode i) &&& (row i).1 = (row i).2

/-- A word with a command code above an address, under a mask of its code. -/
theorem RowMatch.ofCode (code k v : Byte) (addr : Addr) (h : code &&& k = v) :
    (code ++ addr : BitVec (8 + 24)) &&& (k ++ 0#24 : BitVec (8 + 24)) = (v ++ 0#24 : BitVec (8 + 24)) := by
  rw [BitVec.and_append, h, BitVec.and_zero]

/-- A request word, under the mask of its reserved bits and its function code. -/
theorem RowMatch.ofFunction (fn : BitVec 4) (lchan : BitVec 7) (sa : Byte) :
    (0#12 ++ fn ++ 0#1 ++ lchan ++ sa : BitVec (12 + 4 + 1 + 7 + 8)) &&& 0xFFFF8000#32 =
      (0#12 ++ fn ++ 0#16 : BitVec (12 + 4 + 16)) := by
  have h : (0xFFFF8000#32 : BitVec (12 + 4 + 1 + 7 + 8)) =
      BitVec.allOnes 12 ++ BitVec.allOnes 4 ++ 1#1 ++ 0#7 ++ 0#8 := by decide
  rw [h, BitVec.and_append, BitVec.and_append, BitVec.and_append, BitVec.and_append]
  simp only [BitVec.and_zero, BitVec.and_allOnes]
  revert fn
  decide

theorem RowMatch.inch (addr : Addr) (w2 : CommandWord) :
    RowMatch.Statement (.inch addr w2) := fun _ =>
  RowMatch.ofCode _ 0xFF 0x00 addr rfl

theorem RowMatch.invalid (hi : BitVec 4) (addr : Addr) (w2 : CommandWord) :
    RowMatch.Statement (.invalid hi addr w2) := fun _ =>
  RowMatch.ofCode _ 0x0F 0x00 addr (by rename_i h; clear h; revert hi; decide)

theorem RowMatch.write (m : BitVec 6) (addr : Addr) (w2 : CommandWord) :
    RowMatch.Statement (.write m addr w2) := fun _ =>
  RowMatch.ofCode _ 0x03 0x01 addr (by rename_i h; clear h; revert m; decide)

theorem RowMatch.read (m : BitVec 6) (addr : Addr) (w2 : CommandWord) :
    RowMatch.Statement (.read m addr w2) := fun _ =>
  RowMatch.ofCode _ 0x03 0x02 addr (by rename_i h; clear h; revert m; decide)

theorem RowMatch.control (m : BitVec 6) (addr : Addr) (w2 : CommandWord) :
    RowMatch.Statement (.control m addr w2) := fun _ =>
  RowMatch.ofCode _ 0x03 0x03 addr (by rename_i h; clear h; revert m; decide)

theorem RowMatch.sense (m : BitVec 4) (addr : Addr) (w2 : CommandWord) :
    RowMatch.Statement (.sense m addr w2) := fun _ =>
  RowMatch.ofCode _ 0x0F 0x04 addr (by rename_i h; clear h; revert m; decide)

theorem RowMatch.tic (hi : BitVec 4) (addr : Addr) (w : Word) :
    RowMatch.Statement (.tic hi addr w) := fun _ =>
  RowMatch.ofCode _ 0x0F 0x08 addr (by rename_i h; clear h; revert hi; decide)

theorem RowMatch.rdbwd (m : BitVec 4) (addr : Addr) (w2 : CommandWord) :
    RowMatch.Statement (.rdbwd m addr w2) := fun _ =>
  RowMatch.ofCode _ 0x0F 0x0C addr (by rename_i h; clear h; revert m; decide)

theorem RowMatch.sio (lchan : BitVec 7) (sa : Byte) (a : Addr) :
    RowMatch.Statement (.sio lchan sa a) := fun _ =>
  RowMatch.ofFunction 0x2 lchan sa

theorem RowMatch.tio (lchan : BitVec 7) (sa : Byte) :
    RowMatch.Statement (.tio lchan sa) := fun _ =>
  RowMatch.ofFunction 0x3 lchan sa

theorem RowMatch.stpio (lchan : BitVec 7) (sa : Byte) :
    RowMatch.Statement (.stpio lchan sa) := fun _ =>
  RowMatch.ofFunction 0x4 lchan sa

theorem RowMatch.rschnl (lchan : BitVec 7) (sa : Byte) :
    RowMatch.Statement (.rschnl lchan sa) := fun _ =>
  RowMatch.ofFunction 0x5 lchan sa

theorem RowMatch.hio (lchan : BitVec 7) (sa : Byte) :
    RowMatch.Statement (.hio lchan sa) := fun _ =>
  RowMatch.ofFunction 0x6 lchan sa

theorem RowMatch.grio (lchan : BitVec 7) (sa : Byte) :
    RowMatch.Statement (.grio lchan sa) := fun _ =>
  RowMatch.ofFunction 0x7 lchan sa

theorem RowMatch.rsctl (lchan : BitVec 7) (sa : Byte) :
    RowMatch.Statement (.rsctl lchan sa) := fun _ =>
  RowMatch.ofFunction 0x8 lchan sa

theorem RowMatch.eci (lchan : BitVec 7) (sa : Byte) :
    RowMatch.Statement (.eci lchan sa) := fun _ =>
  RowMatch.ofFunction 0xC lchan sa

theorem RowMatch.dci (lchan : BitVec 7) (sa : Byte) :
    RowMatch.Statement (.dci lchan sa) := fun _ =>
  RowMatch.ofFunction 0xD lchan sa

theorem RowMatch.aci (lchan : BitVec 7) (sa : Byte) :
    RowMatch.Statement (.aci lchan sa) := fun _ =>
  RowMatch.ofFunction 0xE lchan sa

theorem RowMatch.daci (lchan : BitVec 7) (sa : Byte) :
    RowMatch.Statement (.daci lchan sa) := fun _ =>
  RowMatch.ofFunction 0xF lchan sa

theorem RowMatch.unassigned0 (lchan : BitVec 7) (sa : Byte) :
    RowMatch.Statement (.unassigned0 lchan sa) := fun _ =>
  RowMatch.ofFunction 0x0 lchan sa

theorem RowMatch.unassigned1 (lchan : BitVec 7) (sa : Byte) :
    RowMatch.Statement (.unassigned1 lchan sa) := fun _ =>
  RowMatch.ofFunction 0x1 lchan sa

theorem RowMatch.unassigned9 (lchan : BitVec 7) (sa : Byte) :
    RowMatch.Statement (.unassigned9 lchan sa) := fun _ =>
  RowMatch.ofFunction 0x9 lchan sa

theorem RowMatch.unassignedA (lchan : BitVec 7) (sa : Byte) :
    RowMatch.Statement (.unassignedA lchan sa) := fun _ =>
  RowMatch.ofFunction 0xA lchan sa

theorem RowMatch.unassignedB (lchan : BitVec 7) (sa : Byte) :
    RowMatch.Statement (.unassignedB lchan sa) := fun _ =>
  RowMatch.ofFunction 0xB lchan sa

end Sys2Proof.Laws
end

