-- ==== Sys2Proof/Laws/Xio.lean ====
section
/-! SUPPORT. What the loops of the two reset operations do, and that a post does not look at the inputs or
the outputs (spec/44_xio.md R268, R269, spec/41_status_posting.md R180). -/

namespace Sys2Proof.Machine

/-- The reset of one unit (R268). -/
theorem clearUnit_all (s : State) (x : UnitId) :
    (clearUnit s x).cfg = s.cfg ∧ (clearUnit s x).mem = s.mem ∧ (clearUnit s x).chans = s.chans ∧
      (clearUnit s x).levels = s.levels ∧ (clearUnit s x).stack = s.stack ∧
      (clearUnit s x).inputs = s.inputs ∧ (clearUnit s x).outputs = .cancel x :: s.outputs ∧
      (∀ u, (clearUnit s x).ctx u = if u = x then Context.powerOn else s.ctx u) ∧
      ∀ u, (clearUnit s x).psq u =
        if u = x ∧ (unitCfg s.cfg u).hasPsq = true then [] else s.psq u := by
  unfold clearUnit
  dsimp only
  split
  · rename_i h
    replace h : (unitCfg s.cfg x).hasPsq = true := h
    refine ⟨rfl, rfl, rfl, rfl, rfl, rfl, rfl, fun u => by simp [ctx_setCtx], fun u => ?_⟩
    simp only [setCtx_psq, psq_setPsq]
    by_cases hu : u = x
    · subst hu; simp [h]
    · simp [hu]
  · rename_i h
    replace h : ¬(unitCfg s.cfg x).hasPsq = true := h
    refine ⟨rfl, rfl, rfl, rfl, rfl, rfl, rfl, fun u => by simp [ctx_setCtx], fun u => ?_⟩
    by_cases hu : u = x
    · subst hu; simp [h]
    · simp [hu]

/-- The reset of a list of units (R268, R269). -/
theorem clearUnits_all (us : List UnitId) (s : State) :
    (clearUnits us s).cfg = s.cfg ∧ (clearUnits us s).mem = s.mem ∧
      (clearUnits us s).chans = s.chans ∧ (clearUnits us s).levels = s.levels ∧
      (clearUnits us s).stack = s.stack ∧ (clearUnits us s).inputs = s.inputs ∧
      (∀ u, (clearUnits us s).ctx u = if u ∈ us then Context.powerOn else s.ctx u) ∧
      (∀ u, (clearUnits us s).psq u =
        if u ∈ us ∧ (unitCfg s.cfg u).hasPsq = true then [] else s.psq u) ∧
      (clearUnits us s).outputs = (us.map .cancel).reverse ++ s.outputs := by
  induction us generalizing s with
  | nil => simp [clearUnits]
  | cons x xs ih =>
    have st : clearUnits (x :: xs) s = clearUnits xs (clearUnit s x) := rfl
    rw [st]
    obtain ⟨h1, h2, h3, h4, h5, h6, h7, h8, h9⟩ := ih (clearUnit s x)
    obtain ⟨d1, d2, d3, d4, d5, d6, d7, d8, d9⟩ := clearUnit_all s x
    refine ⟨h1.trans d1, h2.trans d2, h3.trans d3, h4.trans d4, h5.trans d5, h6.trans d6,
      fun u => ?_, fun u => ?_, ?_⟩
    · rw [h7, d8]
      by_cases a : u ∈ xs <;> by_cases b : u = x <;> simp [a, b]
    · rw [h8, d9, d1]
      by_cases a : u ∈ xs <;> by_cases b : u = x <;> by_cases c : (unitCfg s.cfg u).hasPsq = true <;>
        simp [a, b, c]
      all_goals (subst b; simp [c])
    · rw [h9, d7]; simp

/-- The callbacks of a reset only leave outputs, in order (R308). -/
theorem emitFor_eq (us : List UnitId) (f : UnitId → Output) (s : State) :
    emitFor us f s = { s with outputs := (us.map f).reverse ++ s.outputs } := by
  induction us generalizing s with
  | nil => rfl
  | cons x xs ih =>
    show emitFor xs f (s.emit (f x)) = _
    rw [ih]
    simp [State.emit]

/-- The units of a channel are the reachable ones of it. -/
theorem mem_unitsOfChannel (cfg : Config) (u : UnitId) (ch : Nat) :
    u ∈ unitsOfChannel cfg ch ↔ u.ch = ch ∧ reachable cfg u = true := by
  unfold unitsOfChannel
  simp only [List.mem_filter, List.mem_map, Bool.and_eq_true, beq_iff_eq]
  constructor
  · rintro ⟨-, h⟩
    exact h
  · intro h
    refine ⟨?_, h⟩
    have := h.2
    unfold reachable unitCfg at this
    split at this
    · rename_i e he
      have := List.find?_some he
      exact ⟨e, List.mem_of_find?_eq_some he, by simpa using this⟩
    · simp [UnitCfg.absent] at this

/-- A post neither reads nor writes the inputs or the outputs. -/
theorem postStatus_withIo (ch : Nat) (mask : Half) (s : State) (i : Inputs) (o : List Output) :
    postStatus ch mask { s with inputs := i, outputs := o } =
      (postStatus ch mask s).map fun p => { p with inputs := i, outputs := o } := by
  have hl : ∀ (x : State) (f : Level → Level),
      ({ x with inputs := i, outputs := o } : State).onChannelLevel ch f =
        { x.onChannelLevel ch f with inputs := i, outputs := o } := by
    intro x f
    unfold State.onChannelLevel
    dsimp only
    split <;> [split; skip] <;> rfl
  have hw : ∀ (x : State) (a : Nat) (v : Word),
      ({ x with inputs := i, outputs := o } : State).writeWord a v =
        { x.writeWord a v with inputs := i, outputs := o } := fun _ _ _ => rfl
  have hc : ∀ (x : State) (c : Channel),
      ({ x with inputs := i, outputs := o } : State).setChan ch c =
        { x.setChan ch c with inputs := i, outputs := o } := fun _ _ => rfl
  have hn : State.chan { s with inputs := i, outputs := o } ch = s.chan ch := rfl
  simp only [postStatus, hn, hw, hc]
  cases (s.chan ch).fifo with
  | nil => rfl
  | cons r rest =>
    dsimp only
    by_cases hs : slotUsable s.cfg (s.chan ch) = true
    · simp only [hs, if_true, Option.map_some]
      by_cases he : rest.isEmpty = true
      · simp only [he, if_true]
        rw [hl]
      · simp only [he]
        rfl
    · simp only [hs]
      rfl

end Sys2Proof.Machine
end

