-- ==== Sys2Proof/Tests/Slice0.lean ====
section
/-! SUPPORT. Tests of the model on small states. Expected values come from spec/95_test_vectors.md, whose
vector is named beside each, or from the words of the rule named; never from the model. -/

namespace Sys2Proof.Tests

open Sys2Proof.Machine

/-! ## Well-formedness: each check refuses a term that breaks it -/

/-- Code 0x00 is INCH, never INVALID (R82). -/
theorem test_wellFormed_invalid :
    (Instr.invalid 0 0 { flags := Flags.none, reserved := 0, count := 0 }).wellFormed = false := by decide
theorem test_wellFormed_config : Config.testVectors.wf = true := by decide
/-- FIFO_CAP is at least 1 (R9). -/
theorem test_sizesOk : { Config.testVectors with fifoCap := 0 }.sizesOk = false := by decide
/-- A route leads to a real channel (R9). -/
theorem test_routesOk : { Config.testVectors with route := [(0, 2)] }.routesOk = false := by decide
/-- A unit stands on a real channel. -/
theorem test_unitsOk :
    { Config.testVectors with units := [(⟨2, 1⟩, UnitCfg.absent)] }.unitsOk = false := by decide
/-- A channel owns exactly one level (R11): here channel 1 owns none. -/
theorem test_levelsOk_owned : { Config.testVectors with
    levels := [(5, { configured := true, owner := .chan 0, icb := 0 })] }.levelsOk = false := by decide
/-- The owner of a level exists (R42). -/
theorem test_levelsOk_owner : { Config.testVectors with
    levels := (9, { configured := true, owner := .chan 2, icb := 0 }) :: Config.testVectors.levels
    }.levelsOk = false := by decide

/-! ## Decoding: a word of every instruction, written field by field from R80, R83, R95 -/

/-- Word 2 with chain-command and suppress-length set and count 256 (vector E1). -/
def w2E1 : Word := (0b01100#5 ++ 0#11 ++ 256#16 : BitVec (5 + 11 + 16))

/-- What it stands for. -/
def cwE1 : CommandWord :=
  { flags := { dc := false, cc := true, sli := true, skip := false, pci := false }, reserved := 0,
    count := 256 }

/-- A descriptor's word 1. -/
def w1Of (code : Byte) (addr : Addr) : Word := (code ++ addr : BitVec (8 + 24))

/-- A request word: bits 31-20 zero, function code, bit 15 zero, bits 14-8, bits 7-0. -/
def reqOf (fn : BitVec 4) (hi : BitVec 7) (lo : Byte) : Word :=
  (0#12 ++ fn ++ 0#1 ++ hi ++ lo : BitVec (12 + 4 + 1 + 7 + 8))

/-- E1 itself. -/
theorem test_words_E1 : w1Of 0x02 0x001000 = 0x02001000 ∧ w2E1 = 0x60000100 := by decide
theorem test_decode_inch : decodeDescriptor (w1Of 0x00 0x2000) w2E1 = .inch 0x2000 cwE1 := by decide
theorem test_decode_invalid : decodeDescriptor (w1Of 0x80 0x2000) w2E1 = .invalid 8 0x2000 cwE1 := by decide
theorem test_decode_write : decodeDescriptor (w1Of 0xFD 0x1000) w2E1 = .write 63 0x1000 cwE1 := by decide
theorem test_decode_read : decodeDescriptor (w1Of 0x06 0x1000) w2E1 = .read 1 0x1000 cwE1 := by decide
theorem test_decode_control : decodeDescriptor (w1Of 0x0B 0x40) w2E1 = .control 2 0x40 cwE1 := by decide
theorem test_decode_sense : decodeDescriptor (w1Of 0xF4 0x3000) w2E1 = .sense 15 0x3000 cwE1 := by decide
theorem test_decode_tic : decodeDescriptor (w1Of 0x18 0x200) w2E1 = .tic 1 0x200 0x60000100 := by decide
theorem test_decode_rdbwd : decodeDescriptor (w1Of 0x1C 0x1003) w2E1 = .rdbwd 1 0x1003 cwE1 := by decide
theorem test_decode_sio : decodeRequest (reqOf 0x2 0 0x01) 0x100 = .ok (.sio 0 0x01 0x100) := by decide
theorem test_decode_tio : decodeRequest (reqOf 0x3 1 0x10) 0 = .ok (.tio 1 0x10) := by decide
theorem test_decode_stpio : decodeRequest (reqOf 0x4 0 1) 0 = .ok (.stpio 0 1) := by decide
theorem test_decode_rschnl : decodeRequest (reqOf 0x5 0 0x77) 0 = .ok (.rschnl 0 0x77) := by decide
theorem test_decode_hio : decodeRequest (reqOf 0x6 127 0xFF) 0 = .ok (.hio 127 0xFF) := by decide
theorem test_decode_grio : decodeRequest (reqOf 0x7 0 1) 0 = .ok (.grio 0 1) := by decide
theorem test_decode_rsctl : decodeRequest (reqOf 0x8 0 1) 0 = .ok (.rsctl 0 1) := by decide
theorem test_decode_eci : decodeRequest (reqOf 0xC 5 0xFF) 0 = .ok (.eci 5 0xFF) := by decide
theorem test_decode_dci : decodeRequest (reqOf 0xD 5 0) 0 = .ok (.dci 5 0) := by decide
theorem test_decode_aci : decodeRequest (reqOf 0xE 5 0) 0 = .ok (.aci 5 0) := by decide
theorem test_decode_daci : decodeRequest (reqOf 0xF 3 0) 0 = .ok (.daci 3 0) := by decide
theorem test_decode_unassigned0 : decodeRequest (reqOf 0x0 0 1) 0 = .ok (.unassigned0 0 1) := by decide
theorem test_decode_unassigned1 : decodeRequest (reqOf 0x1 0 1) 0 = .ok (.unassigned1 0 1) := by decide
theorem test_decode_unassigned9 : decodeRequest (reqOf 0x9 0 1) 0 = .ok (.unassigned9 0 1) := by decide
theorem test_decode_unassignedA : decodeRequest (reqOf 0xA 0 1) 0 = .ok (.unassignedA 0 1) := by decide
theorem test_decode_unassignedB : decodeRequest (reqOf 0xB 0 1) 0 = .ok (.unassignedB 0 1) := by decide
/-- Bit 15, and bit 20, of a request are reserved (vectors X4, X5; R97). -/
theorem test_decode_rejects : decodeRequest 0x00028001 0 = .error .reservedRequestBits ∧
    decodeRequest 0x00120001 0 = .error .reservedRequestBits := by decide
/-- The lowest and the highest reserved bit of word 2 (vectors G5, G6, E11). -/
theorem test_decode_reserved : (decodeCommandWord 0x00010000).reserved = 1 ∧
    (decodeCommandWord 0x04000000).reserved = 0x400 ∧ (decodeCommandWord 0x08010004).reserved = 1 := by
  decide

/-! ## One step of each instruction -/

/-- The unit of most tests, channel 0's unit with a queue, and a unit of another controller. -/
def u1 : UnitId := ⟨0, 0x01⟩
def u2 : UnitId := ⟨0, 0x02⟩
def u10 : UnitId := ⟨0, 0x10⟩

/-- A word 2 with no flag. -/
def plainWord (count : Half) : CommandWord := { flags := Flags.none, reserved := 0, count := count }

/-- Unit 1 has fetched a descriptor at 0x100; its device will answer `answer`. -/
def atDescriptor (ticOk : Bool) (answer : Half) : State :=
  { State.reset.setCtx u1 { Context.powerOn with state := .busy, listAddr := 0x108 } with
    stack := [.engine u1 ticOk],
    inputs := { Inputs.none with starts := [{ calls := [], answer := answer }] } }

/-- Unit `u` is in flight, in the middle of a READ of which 5 bytes remain. -/
def inFlight (u : UnitId) : State :=
  State.reset.setCtx u { Context.powerOn with
    state := .busy, listAddr := 0x108, cmd := 0x02, count := 5, dataAddr := 0x1003 }

/-- Channel 0 has one record and a status buffer of four slots at 0x2000. -/
def withRecord (s : State) : State :=
  (s.setChan 0 { Channel.powerOn with
    fifo := [{ w1 := 0x10000108, w2 := 0x000C0000 }], inchValid := true, inchBase := 0x2000,
    inchCur := 0x2000, inchHwm := 0x2018 }).setLvl 5 { Level.powerOn with requested := true }

/-- The device's pre-check will answer `a`, and makes no call. -/
def preChecked (a : PreCheck) (s : State) : State :=
  s.withInputs { s.inputs with preChecks := [{ calls := [], answer := a }] }

/-- Unit 1 has fetched a descriptor; its device will make these calls and answer `answer`. -/
def callsInStart (calls : List DevCall) (answer : Half) : State :=
  (atDescriptor false 0).withInputs { Inputs.none with starts := [{ calls := calls, answer := answer }] }

/-- CFG of the test vectors, but unit (0,0x01) has every callback and its own walker. -/
def callbackCfg : Config :=
  { Config.testVectors with
    units := [(u1, { UnitCfg.absent with
      present := true, enabled := true, hasHalt := true, hasStop := true, hasOverride := true,
      hasResetChannel := true, hasResetController := true })] }

/-- Reads `f` of the next state, `d` where there is none. -/
def nextOf {α : Type} (o : Host.Outcome State Fault Refusal) (d : α) (f : State → α) : α :=
  match o with
  | .next s => f s
  | .fault _ | .refused _ => d

/-- The fault a machine stops with. -/
def faultOf (o : Host.Outcome State Fault Refusal) : Option Fault :=
  match o with
  | .fault f => some f
  | .next _ | .refused _ => none

/-- Vector G19: an INCH of count 23 has two slots. -/
theorem test_inch : nextOf (exec (.inch 0x2000 (plainWord 23)) (atDescriptor false 0x000C)) none
    (fun t => some ((t.chan 0).inchBase, (t.chan 0).inchCur, (t.chan 0).inchHwm)) =
      some (0x2000, 0x2000, 0x2008) := by decide
/-- Vector G8: rec(0x01000108, 0x100C0000), and the device is not called. -/
theorem test_invalid : nextOf (exec (.invalid 1 0x1000 (plainWord 4)) (atDescriptor false 0x000C)) none
    (fun t => some ((t.chan 0).fifo, t.outputs)) =
      some ([{ w1 := 0x01000108, w2 := 0x100C0000 }], [.engineOutcome u1 .error]) := by decide
/-- R156: a WRITE waits for its device with its count and address loaded. -/
theorem test_write : nextOf (exec (.write 0 0x1000 (plainWord 3)) (atDescriptor false 0)) none
    (fun t => some ((t.ctx u1).count, (t.ctx u1).dataAddr, (t.ctx u1).state)) =
      some (3, 0x1000, .busy) := by decide
/-- R156's example, moved synchronously (R303 item 1): the device gets the bytes, then End; residual 0. -/
theorem test_write_synchronous : nextOf (exec (.write 0 0x1000 (plainWord 2))
      (((callsInStart [.readByte, .readByte, .readByte] 0x000C).writeByte 0x1000 0x41).writeByte 0x1001
        0x42)) none (fun t => some ((t.chan 0).fifo, t.outputs.filter (· != .engineOutcome u1 .done))) =
    some ([{ w1 := 0x01000108, w2 := 0x000C0000 }],
      [.readAnswer u1 .endOfData, .readAnswer u1 (.byte 0x42), .readAnswer u1 (.byte 0x41),
        .startCommand u1 0x01]) := by decide
/-- Vector G26: an immediate end of a READ of 8: rec(0x01000108, 0x201C0008). -/
theorem test_read_immediate : nextOf (exec (.read 0 0x1000 (plainWord 8)) (atDescriptor false 0x0010)) []
    (fun t => (t.chan 0).fifo) = [{ w1 := 0x01000108, w2 := 0x201C0008 }] := by decide
/-- Vector G13: READ with count 0 is a program check. -/
theorem test_read_zero : nextOf (exec (.read 0 0x1000 (plainWord 0)) (atDescriptor false 0)) []
    (fun t => (t.chan 0).fifo) = [{ w1 := 0x01000108, w2 := 0x100C0000 }] := by decide
/-- Vector G21: the device gets the whole command code. -/
theorem test_control : nextOf (exec (.control 1 0x40 (plainWord 0)) (atDescriptor false 0x000C)) none
    (fun t => some (t.outputs.getLast?, (t.chan 0).fifo)) =
      some (some (.startCommand u1 0x07), [{ w1 := 0x01000108, w2 := 0x000C0000 }]) := by decide
/-- Vector G29: SMOD does not stop chaining, and the chain boundary clears it. -/
theorem test_control_chains : nextOf (exec (.control 0 0
      { flags := { Flags.none with cc := true }, reserved := 0, count := 0 }) (atDescriptor false 0x004C))
    none (fun t => some ((t.ctx u1).status, t.stack)) = some (0, [.engine u1 true]) := by decide
/-- R159: a SENSE waits with its code. -/
theorem test_sense : nextOf (exec (.sense 0 0x3000 (plainWord 4)) (atDescriptor false 0)) none
    (fun t => some ((t.ctx u1).cmd, (t.ctx u1).count)) = some (0x04, 4) := by decide
/-- Vector K2: a TIC that is allowed; vector G4: one that is not. -/
theorem test_tic : nextOf (exec (.tic 0 0x200 0) (atDescriptor true 0)) none
    (fun t => some ((t.ctx u1).listAddr, t.stack)) = some (0x200, [.engine u1 false]) := by decide
theorem test_tic_first : nextOf (exec (.tic 0 0x200 0) (atDescriptor false 0)) []
    (fun t => (t.chan 0).fifo) = [{ w1 := 0x01000108, w2 := 0x100C0000 }] := by decide
/-- Vector H7: read backward stores at 0x1003 and lowers the address. -/
theorem test_rdbwd : nextOf (exec (.rdbwd 0 0x1003 (plainWord 4)) (atDescriptor false 0)) none
    (fun t => some ((writeNextByte u1 0x01 t).2.readByte 0x1003,
      ((writeNextByte u1 0x01 t).2.ctx u1).dataAddr)) = some (0x01, 0x1002) := by decide
/-- R262: Start enters the engine; vector S2: status is posted instead. -/
theorem test_sio : nextOf (exec (.sio 0 1 0x100) (preChecked .ready State.reset)) none
    (fun t => some ((t.ctx u1).listAddr, t.stack)) =
      some (0x100, [.engine u1 false, .xioReturn .acceptedNoStatus]) := by decide
theorem test_sio_posts : nextOf (exec (.sio 0 1 0x100) (preChecked .ready (withRecord State.reset))) none
    (fun t => some (t.readWord 0x2000, (t.chan 0).inchCur, (t.ctx u1).state, t.outputs.head?)) =
      some (0x10000108, 0x2008, .empty, some (.xio .statusStored 0x4)) := by decide
/-- Vector F9: Test posts the head, which belongs to another unit. -/
theorem test_tio : nextOf (exec (.tio 0 1) (withRecord State.reset)) none
    (fun t => some (t.readWord 0x2004, (t.lvl 5).requested)) = some (0x000C0000, false) := by decide
/-- R265: Stop clears the chain flags of a unit in flight. -/
theorem test_stpio : nextOf (exec (.stpio 0 1) (State.reset.setCtx u1
      { Context.powerOn with state := .busy, flags := { Flags.none with cc := true, sli := true } })) none
    (fun t => some ((t.ctx u1).flags, (t.ctx u1).state)) =
      some ({ Flags.none with sli := true }, .busy) := by decide
/-- Vector S6: Reset-Channel. -/
theorem test_rschnl : nextOf (exec (.rschnl 0 0x77) (withRecord (inFlight u2))) none
    (fun t => some (t.ctx u2, (t.chan 0).fifo, (t.chan 0).inchCur, t.lvl 5)) =
      some (Context.powerOn, [], 0x2000, Level.powerOn) := by decide
/-- Program P4: Halt of a running READ: rec(0x01000108, 0x200D0005). -/
theorem test_hio : nextOf (exec (.hio 0 1) (inFlight u1)) none
    (fun t => some ((t.chan 0).fifo, (t.ctx u1).state)) =
      some ([{ w1 := 0x01000108, w2 := 0x200D0005 }], .empty) := by decide
/-- R268, R269: one callback each, after the unit's completions are cancelled. -/
theorem test_rschnl_callback : nextOf (exec (.rschnl 0 0) { State.reset with cfg := callbackCfg }) []
    (fun t => t.outputs) = [.xio .acceptedNoStatus 0x0, .resetChannelCallback u1, .cancel u1] := by decide
theorem test_rsctl_callback : nextOf (exec (.rsctl 0 1) { State.reset with cfg := callbackCfg }) []
    (fun t => t.outputs) = [.xio .acceptedNoStatus 0x0, .resetControllerCallback u1, .cancel u1] := by decide
/-- Vector G28: Grab of a unit in flight answers Busy. -/
theorem test_grio : nextOf (exec (.grio 0 1) (withRecord (inFlight u1))) none
    (fun t => some (t.outputs, (t.chan 0).fifo.length)) = some ([.xio .busy 0x1], 1) := by decide
/-- R269: Reset-Controller of controller 0 keeps the record of unit 0x10, of controller 1. -/
theorem test_rsctl : nextOf (exec (.rsctl 0 1) (withRecord (inFlight u2))) none
    (fun t => some (t.ctx u2, (t.chan 0).fifo.length, (t.lvl 5).requested)) =
      some (Context.powerOn, 1, true) := by decide
/-- Vectors X12 and X10. -/
theorem test_eci : nextOf (exec (.eci 5 0xFF) State.reset) false (fun t => (t.lvl 5).enabled) = true := by
  decide
theorem test_eci_unused : nextOf (exec (.eci 9 0) State.reset) [] (fun t => t.outputs) =
    [.xio .unsupported 0x5] := by decide
/-- R271. -/
theorem test_dci : nextOf (exec (.dci 5 0) (State.reset.setLvl 5 { Level.powerOn with enabled := true }))
    none (fun t => some (t.lvl 5)) = some Level.powerOn := by decide
/-- R234: activation moves a request to `ext_pending`. -/
theorem test_aci : nextOf (exec (.aci 5 0) (withRecord State.reset)) none (fun t => some (t.lvl 5)) =
    some { enabled := false, requested := false, active := true, extPending := true } := by decide
/-- R236: the release of a level whose channel has a record requests it again. -/
theorem test_daci : nextOf (exec (.daci 5 0)
      ((withRecord State.reset).setLvl 5 { Level.powerOn with active := true })) none
    (fun t => some (t.lvl 5)) = some { Level.powerOn with requested := true } := by decide
/-- Vectors X2 and X3. -/
theorem test_unassigned0 : nextOf (exec (.unassigned0 0 1) State.reset) [] (fun t => t.outputs) =
    [.xio .unsupported 0x5] := by decide
theorem test_unassigned1 : nextOf (exec (.unassigned1 0 1) State.reset) [] (fun t => t.outputs) =
    [.xio .unsupported 0x5] := by decide
theorem test_unassigned9 : nextOf (exec (.unassigned9 0 1) State.reset) [] (fun t => t.outputs) =
    [.xio .unsupported 0x5] := by decide
theorem test_unassignedA : nextOf (exec (.unassignedA 0 1) State.reset) [] (fun t => t.outputs) =
    [.xio .unsupported 0x5] := by decide
theorem test_unassignedB : nextOf (exec (.unassignedB 0 1) State.reset) [] (fun t => t.outputs) =
    [.xio .unsupported 0x5] := by decide
/-- Vector S7: the scan dispatches level 5 and not level 3, which is disabled. -/
theorem test_scan : (scanLevels false (((withRecord State.reset).setLvl 3
      { Level.powerOn with requested := true }).setLvl 5
        { Level.powerOn with requested := true, enabled := true })).outputs =
    [.scan (.dispatch 5 0x000F00)] := by decide

/-- R310: a completion makes its next call, and its other calls are still to come. -/
theorem test_completion : nextOf (step (((inFlight u1).writeByte 0x1003 0xAB).push
      (.completion [(u1, .readByte), (u1, .signal 0x000C)]))) none (fun t => some (t.outputs, t.stack)) =
    some ([.readAnswer u1 (.byte 0xAB)], [.completion [(u1, .signal 0x000C)]]) := by decide
/-- R302, R303 item 5: a pre-check makes no call. -/
theorem test_callInsidePreCheck : faultOf (exec (.sio 0 1 0x100) (State.reset.withInputs { Inputs.none with
      preChecks := [{ calls := [.signal 0x000C], answer := .ready }] })) = some .callInsidePreCheck := by
  decide
/-- R305, R311: a walker leaves its unit Busy, ChannelEndPending or Empty. -/
theorem test_walkerReturns : faultOf (step (((inFlight u1).setTransfer u1 .posted).push
    (.override u1 [] .done))) = some .overrideIllegalState := by decide

/-! ## Every statement with hypotheses has a state that meets them, one for each clause -/

/-- The engine is about to fetch for unit 1 at `a`. -/
def fetchingAt (a : Addr) : State :=
  (State.reset.setCtx u1 { Context.powerOn with state := .busy, listAddr := a }).withStack
    [.engine u1 true]

/-- A port operation is next. -/
def receiving (op : PortOp) : State :=
  { State.reset with inputs := { Inputs.none with inbox := [op] } }

/-- Unit 1 with the given context. -/
def unitWith (c : Context) : State := State.reset.setCtx u1 c

/-- Unit 1 in flight in a data chain of which no byte remains, its next descriptor, a READ of 3 bytes to
0x2000, at 0x108 (vector H9). -/
def chaining : State :=
  ((unitWith { Context.powerOn with
    state := .busy, listAddr := 0x108, cmd := 0x02, flags := { Flags.none with dc := true } }).writeWord
      0x108 0x00002000).writeWord 0x10C 0x00000003

/-- As `chaining`, with memory of zeros at the list address: a descriptor of no bytes (vector H13). -/
def zeroChain : State :=
  unitWith { Context.powerOn with
    state := .busy, listAddr := 0x108, cmd := 0x02, flags := { Flags.none with dc := true } }

/-- As `chaining`, with a Transfer-In-List to 0x300 at the list address and the descriptor (w1, w2) there
(vectors H10, H11). -/
def chainingByTic (w1 w2 : Word) : State :=
  ((zeroChain.writeWord 0x108 0x08000300).writeWord 0x300 w1).writeWord 0x304 w2

/-- A step answers a next state. -/
def steps (s : State) : Bool :=
  match step s with
  | .next _ => true
  | .fault _ | .refused _ => false

theorem next_of_steps {s : State} (h : steps s = true) : ∃ t, step s = .next t := by
  unfold steps at h
  split at h
  · exact ⟨_, by assumption⟩
  · cases h
  · cases h

theorem forall_two {α : Type} {P : α → Prop} {a b : α} (ha : P a) (hb : P b) : ∀ x ∈ [a, b], P x := by
  simp [ha, hb]

theorem forall_three {α : Type} {P : α → Prop} {a b c : α} (ha : P a) (hb : P b) (hc : P c) :
    ∀ x ∈ [a, b, c], P x := by simp [ha, hb, hc]

theorem forall_four {α : Type} {P : α → Prop} {a b c d : α} (ha : P a) (hb : P b) (hc : P c) (hd : P d) :
    ∀ x ∈ [a, b, c, d], P x := by simp [ha, hb, hc, hd]

theorem test_meets_DecodeInvertsEncode : (Instr.invalid 15 0xFFFFFF
    { flags := ⟨true, true, true, true, true⟩, reserved := 0x7FF, count := 0xFFFF }).wellFormed = true := by
  decide
theorem test_meets_EncodeInvertsDecode :
    decodeRequest (reqOf 0x2 127 0xFF) 0xFFFFFF = .ok (.sio 127 0xFF 0xFFFFFF) ∧
      decodeRequest (reqOf 0xF 127 0xFF) 0 = .ok (.daci 127 0xFF) := by decide
theorem test_meets_EachChannelOwnsOneLevel :
    Config.testVectors.wf = true ∧ 0 < Config.testVectors.numChan ∧ 1 < Config.testVectors.numChan ∧
      ({ State.reset with cfg := { Config.testVectors with fifoCap := 0 } } : State).cfg.wf = false := by
  decide
theorem test_noOverride (u : UnitId) : (unitCfg Config.testVectors u).hasOverride = false := by
  unfold unitCfg
  split
  · rename_i e he
    have h := List.mem_of_find?_eq_some he
    clear he
    revert e
    decide
  · rfl
theorem test_meets_PowerOnMeetsBothInvariants :
    Config.testVectors.wf = true ∧ ∀ u, (unitCfg Config.testVectors u).hasOverride = false :=
  ⟨by decide, test_noOverride⟩
/-- An ECI is next. -/
theorem test_meets_StepKeepsStoredState :
    (receiving (.xio 0x000C0500 0)).Inv ∧ ∃ t, step (receiving (.xio 0x000C0500 0)) = .next t := by
  refine ⟨?_, next_of_steps (by decide)⟩
  constructor
  all_goals first
    | decide
    | (intros; rfl)
    | (intro x; exact Nat.zero_le _)
    | (intro x h; cases h)
/-- The engine is at a descriptor of zeros, an INCH of count 0. -/
theorem test_orderly : (fetchingAt 0x100).Orderly := by
  refine ⟨test_noOverride, by decide, by decide, ?_, ?_, fun _ _ => rfl, fun u h => absurd rfl h⟩
  · intro u t rest h
    cases h
    decide
  · intro u
    by_cases h : u = u1
    · subst h
      exact trivial
    · have e : (fetchingAt 0x100).ctx u = State.reset.ctx u := by
        rw [fetchingAt, withStack_ctx, ctx_setCtx_other _ _ h]
      rw [e]
      exact trivial
theorem test_meets_StepKeepsControl :
    (fetchingAt 0x100).Orderly ∧ ∃ t, step (fetchingAt 0x100) = .next t :=
  ⟨test_orderly, next_of_steps (by decide)⟩
theorem test_meets_OrderlyStepsKeepTheContract : (fetchingAt 0x100).Orderly := test_orderly
theorem test_meets_StepKeepsConfigurationAndOverflow :
    ∃ t, step ((receiving (.scan false)).setChan 0 { Channel.powerOn with overflow := 3 }) = .next t :=
  next_of_steps (by decide)
/-- The last two words of memory. -/
theorem test_meets_StepRunsTheFetchedDescriptor : (fetchingAt 0xFFF8).cfg.wf = true ∧
    (fetchingAt 0xFFF8).stack = [.engine u1 true] ∧
    wordAligned ((fetchingAt 0xFFF8).ctx u1).listAddr = true ∧
    memOk (fetchingAt 0xFFF8).cfg ((fetchingAt 0xFFF8).ctx u1).listAddr.toNat 8 = true := by decide
theorem test_meets_StepRunsTheRequest : ∀ req ∈ [0x000F7FFF#32, 0x00100000, 0x80000000, 0x00008000],
    (receiving (.xio req 0)).cfg.wf = true ∧ (receiving (.xio req 0)).stack = [] ∧
      (receiving (.xio req 0)).inputs.inbox = [.xio req 0] :=
  forall_four (by decide) (by decide) (by decide) (by decide)
theorem test_meets_StepRunsTheRequest_words :
    decodeRequest 0x000F7FFF 0 = .ok (.daci 127 0xFF) ∧
      (0x00100000#32).toNat / 2 ^ 20 ≠ 0 ∧ (0x00008000#32).toNat / 2 ^ 15 % 2 = 1 ∧
      (0x000F7FFF#32).toNat / 2 ^ 20 = 0 ∧ (0x000F7FFF#32).toNat / 2 ^ 15 % 2 = 0 := by decide
theorem test_meets_StepRunsThePortOperation :
    State.reset.cfg.wf = true ∧ State.reset.stack = [] ∧ State.reset.inputs.inbox = [] ∧
      (receiving (.scan true)).inputs.inbox = [.scan true] ∧
      (receiving (.raise 7)).inputs.inbox = [.raise 7] ∧
      (receiving (.device [(u10, .signal 0x0008), (u10, .signal 0x0004)])).inputs.inbox =
        [.device [(u10, .signal 0x0008), (u10, .signal 0x0004)]] ∧
      (0x00FFFF#24).toNat < State.reset.cfg.memSize ∧
      (receiving (.cpuStore 0xFFFF 1)).inputs.inbox = [.cpuStore 0xFFFF 1] ∧
      State.reset.cfg.memSize ≤ (0x010000#24).toNat ∧
      (receiving (.cpuStore 0x10000 1)).inputs.inbox = [.cpuStore 0x10000 1] ∧
      1 < State.reset.cfg.numChan ∧ State.reset.cfg.numChan ≤ 2 := by decide
/-- A store to the last byte of memory lands; one to the address after it writes nothing (R61). -/
theorem test_store_at_the_end_of_memory :
    nextOf (step (receiving (.cpuStore 0xFFFF 1))) none (fun t => some t.mem) =
        some [(0xFFFF, 1)] ∧
      nextOf (step (receiving (.cpuStore 0x10000 1))) none (fun t => some (t.mem, t.inputs.inbox)) =
        some ([], []) := by decide
/-- Every call has an answer. -/
theorem test_meets_StepRunsThePortOperation_calls : (∃ a t, readNextByte u1 (inFlight u1) = (a, t)) ∧
    (∃ a t, writeNextByte u1 0xFF (inFlight u1) = (a, t)) ∧
    ∃ a t, pushStatusFront 1 { w1 := 0, w2 := 0 } State.reset = (a, t) :=
  ⟨⟨_, _, rfl⟩, ⟨_, _, rfl⟩, ⟨_, _, rfl⟩⟩
/-- Misaligned, and beyond memory (vectors G1, G2). -/
theorem test_meets_FetchFailureEndsTheProgram : ∀ a ∈ [0x000102#24, 0x00FFFC],
    (fetchingAt a).cfg.wf = true ∧ (fetchingAt a).stack = [.engine u1 true] ∧
      ((fetchingAt a).ctx u1).state = .busy ∧
      (((fetchingAt a).ctx u1).listAddr.toNat % 4 ≠ 0 ∨
        (fetchingAt a).cfg.memSize < ((fetchingAt a).ctx u1).listAddr.toNat + 8) :=
  forall_two (by decide) (by decide)
theorem test_meets_EngineStepsLeaveOtherUnitsAlone :
    (fetchingAt 0x100).stack = [.engine u1 true] ∧ u2 ≠ u1 ∧ ∃ t, step (fetchingAt 0x100) = .next t :=
  ⟨rfl, by decide, next_of_steps (by decide)⟩
theorem test_meets_EnteredProceduresGoOn : State.reset.cfg.wf = true ∧
    (State.reset.push (.xioReturn .acceptedNoStatus)).stack = [.xioReturn .acceptedNoStatus] ∧
    (State.reset.push (.haltPost 0)).stack = [.haltPost 0] ∧
    (State.reset.push (.callback u1 [] .busy)).stack = [.callback u1 [] .busy] ∧
    (State.reset.push (.callback u1 [.readByte] .busy)).stack = [.callback u1 [.readByte] .busy] ∧
    (State.reset.push (.completion [])).stack = [.completion []] ∧
    (State.reset.push (.completion [(u10, .readByte)])).stack = [.completion [(u10, .readByte)]] ∧
    reachable State.reset.cfg u10 = true ∧ reachable State.reset.cfg ⟨0, 5⟩ = false := by decide

theorem test_meets_atDescriptor (ticOk : Bool) (st : Half) :
    (atDescriptor ticOk st).atDescriptor u1 ticOk [] ∧ (atDescriptor ticOk st).nextStartAllowed = true ∧
      (takeStart (atDescriptor ticOk st)).1.answer = st :=
  ⟨⟨rfl, by cases ticOk <;> rfl, by cases ticOk <;> rfl⟩, rfl, rfl⟩
/-- An INCH one byte too short, and a READ of no bytes (with `test_meets_atDescriptor`). -/
theorem test_meets_RejectedDescriptorEndsTheProgram :
    commandOperands (.inch 0x2000 (plainWord 7)) = some (0x00, 0x2000, plainWord 7) ∧
      descriptorBad (atDescriptor false 0).cfg 0x00 0x2000 (plainWord 7) = true ∧
      commandOperands (.read 0 0x1000 (plainWord 0)) = some (0x02, 0x1000, plainWord 0) ∧
      descriptorBad (atDescriptor false 0).cfg 0x02 0x1000 (plainWord 0) = true := by decide
theorem test_meets_InvalidCodeEndsTheProgram :
    (1 : BitVec 4) ≠ 0 ∧ (15 : BitVec 4) ≠ 0 ∧ (atDescriptor true 0).atDescriptor u1 true [] :=
  ⟨by decide, by decide, (test_meets_atDescriptor true 0).1⟩
/-- The answers 0 and CE, of a READ and of a CONTROL (with `test_meets_atDescriptor`, as in what follows). -/
theorem test_meets_CommandWaitsForItsDevice :
    commandOperands (.read 0 0x1000 (plainWord 1)) = some (0x02, 0x1000, plainWord 1) ∧
      classOf 0x02 ≠ .inch ∧ descriptorBad (atDescriptor false 0).cfg 0x02 0x1000 (plainWord 1) = false ∧
      commandOperands (.control 0 0x1000 (plainWord 1)) = some (0x03, 0x1000, plainWord 1) ∧
      classOf 0x03 ≠ .inch ∧ descriptorBad (atDescriptor false 0).cfg 0x03 0x1000 (plainWord 1) = false ∧
      (0 : Half) &&& immEnd = 0 ∧ (0 : Half) &&& stEnds ≠ stEnds ∧ stCe &&& immEnd = 0 ∧
      stCe &&& stEnds ≠ stEnds := by decide
/-- The last slot of memory (vector G18). -/
theorem test_meets_InchLoadsTheStatusBuffer : (atDescriptor false 0).cfg.wf = true ∧
    descriptorBad (atDescriptor false 0).cfg 0x00 0xFFF8 (plainWord 8) = false ∧
    (0 : Half) &&& immEnd = 0 ∧ (0 : Half) &&& stEnds ≠ stEnds := by decide
theorem test_meets_ImmediateEndStopsTheProgram :
    commandOperands (.sense 0 0x3000 (plainWord 4)) = some (0x04, 0x3000, plainWord 4) ∧
      descriptorBad (atDescriptor false 0).cfg 0x04 0x3000 (plainWord 4) = false ∧
      (0x0010 : Half) &&& immEnd ≠ 0 := by decide
/-- A device that makes no call answers in the state it is called in, and one that makes calls, in some
state. -/
theorem test_meets_CommandAnswered (code : Byte) (addr : Addr) (w2 : CommandWord) (st : Half) :
    (atDescriptor false st).CommandAnswered ((atDescriptor false st).dispatched u1 [] code addr w2) u1 []
      code addr w2 st := ⟨rfl, rfl⟩
theorem test_meets_CommandAnswered_calls : ∃ x, (callsInStart [.readByte, .readByte] 0x000C).CommandAnswered x
    u1 [] 0x01 0x1000 (plainWord 2) 0x000C :=
  ⟨_, rfl, (by simp), _, rfl, (by simp), _, rfl, rfl⟩
/-- Without chain-command (vector G30), and with it where the answer has LENGTH. -/
theorem test_meets_SynchronousEndFinishesTheProgram : ∀ p ∈ [((0x000C : Half), false), (0x200C, true)],
    p.1 &&& immEnd = 0 ∧ p.1 &&& stEnds = stEnds ∧
      descriptorBad State.reset.cfg 0x03 0 ⟨{ Flags.none with cc := p.2 }, 0, 0⟩ = false ∧
      ((endedContext 0 (answeredContext (((atDescriptor false p.1).dispatched u1 [] 0x03 0
          ⟨{ Flags.none with cc := p.2 }, 0, 0⟩).ctx u1) p.1)).flags.cc = false ∨
        (endedContext 0 (answeredContext (((atDescriptor false p.1).dispatched u1 [] 0x03 0
          ⟨{ Flags.none with cc := p.2 }, 0, 0⟩).ctx u1) p.1)).status &&& chainAbort ≠ 0) :=
  forall_two (by decide) (by decide)
/-- A CONTROL, and a READ with suppress-length, with chain-command. -/
theorem test_meets_SynchronousEndChains : ∀ p ∈ [((0x03 : Byte), false), (0x02, true)],
    descriptorBad State.reset.cfg p.1 0 ⟨{ Flags.none with cc := true, sli := p.2 }, 0, 4⟩ = false ∧
      (0x000C : Half) &&& stEnds = stEnds ∧
      (endedContext 0 (answeredContext (((atDescriptor false 0x000C).dispatched u1 [] p.1 0
        ⟨{ Flags.none with cc := true, sli := p.2 }, 0, 4⟩).ctx u1) 0x000C)).flags.cc = true ∧
      (endedContext 0 (answeredContext (((atDescriptor false 0x000C).dispatched u1 [] p.1 0
        ⟨{ Flags.none with cc := true, sli := p.2 }, 0, 4⟩).ctx u1) 0x000C)).status &&& chainAbort = 0 :=
  forall_two (by decide) (by decide)
/-- A device that calls both helpers and pushes a record to the last channel; and one that signals after
such a call. -/
theorem test_meets_EveryCommandCompletes :
    (callsInStart [.readByte, .writeByte 1, .pushFront 1 { w1 := 0, w2 := 0 }] 0xFFFF).nextStartAllowed =
      true ∧
    (takeStart (callsInStart [.readByte, .signal 0x000C, .readByte] 0)).1.calls =
      [.readByte] ++ .signal 0x000C :: [.readByte] ∧
    [DevCall.readByte].all (callAllowedInStart State.reset.cfg) = true := by decide
theorem test_meets_TransferInListIsFollowedOnce :
    (atDescriptor true 0).stack = [.engine u1 true] ∧ (atDescriptor false 0).atDescriptor u1 false [] :=
  ⟨rfl, (test_meets_atDescriptor false 0).1⟩

theorem test_meets_ChannelEndWithoutDeviceEndWaits : (State.reset.ctx u1).state = .empty ∧
    ∀ st ∈ [TransferState.busy, .channelEndPending],
      ((unitWith { Context.powerOn with state := st }).ctx u1).state = st ∧
      (((unitWith { Context.powerOn with state := st }).ctx u1).status ||| 0x0008) &&& stDe = 0 := by
  decide
theorem test_meets_ChannelEndResumesTheChain : ∀ st ∈ [TransferState.busy, .channelEndPending],
    (endedContext 0x000C { Context.powerOn with
      state := st, cmd := 0x02, flags := { Flags.none with cc := true } }).status &&& stDe ≠ 0 ∧
    (endedContext 0x000C { Context.powerOn with
      state := st, cmd := 0x02, flags := { Flags.none with cc := true } }).flags.cc = true ∧
    (endedContext 0x000C { Context.powerOn with
      state := st, cmd := 0x02, flags := { Flags.none with cc := true } }).status &&& chainAbort = 0 :=
  forall_two (by decide) (by decide)
/-- Without chain-command, and with it and CHECK (vector K8). -/
theorem test_meets_ChannelEndFinishesTheProgram : ∀ p ∈ [((0x000C : Half), false), (0x000E, true)],
    (endedContext p.1 { Context.powerOn with
      state := .busy, cmd := 0x02, flags := { Flags.none with cc := p.2 } }).status &&& stDe ≠ 0 ∧
    ((endedContext p.1 { Context.powerOn with
      state := .busy, cmd := 0x02, flags := { Flags.none with cc := p.2 } }).flags.cc = false ∨
     (endedContext p.1 { Context.powerOn with
      state := .busy, cmd := 0x02, flags := { Flags.none with cc := p.2 } }).status &&& chainAbort ≠ 0) :=
  forall_two (by decide) (by decide)
/-- A walker with each act to come, and one that returns, from each transfer-state. -/
theorem test_meets_EngineEntryAndWalker : (unitCfg State.reset.cfg u1).hasOverride = false ∧
    (unitCfg callbackCfg u1).hasOverride = true ∧ callbackCfg.wf = true ∧
    (∀ act ∈ [OverrideAct.setContext Context.powerOn, .store 0xFFFF 1, .store 0x10000 1, .call .readByte],
      (State.reset.push (.override u1 [act] .done)).stack = [.override u1 [act] .done]) ∧
    (0xFFFF : Addr).toNat < State.reset.cfg.memSize ∧ State.reset.cfg.memSize ≤ (0x10000 : Addr).toNat ∧
    (State.reset.push (.override u1 [] .done)).stack = [.override u1 [] .done] ∧
    ∀ st ∈ [TransferState.busy, .channelEndPending, .empty, .awaitingNext, .posted, .done],
      ((unitWith { Context.powerOn with state := st }).ctx u1).state = st := by decide

theorem test_meets_HelpersOutsideBusyChangeNothing : (State.reset.ctx u1).state ≠ .busy ∧
    ((unitWith { Context.powerOn with state := .channelEndPending }).ctx u1).state ≠ .busy := by decide
/-- The last byte of memory, the first absent one, and no byte left. -/
theorem test_meets_ReadHelperDeliversTheNextByte : ∀ p ∈ [((1 : Half), (0xFFFF : Addr)), (1, 0x10000), (0, 0)],
    ((unitWith { Context.powerOn with state := .busy, count := p.1, dataAddr := p.2 }).ctx u1) =
      { Context.powerOn with state := .busy, count := p.1, dataAddr := p.2 } :=
  forall_three (by decide) (by decide) (by decide)
theorem test_meets_ReadHelper_bounds : (0xFFFF : Addr).toNat < State.reset.cfg.memSize ∧
    State.reset.cfg.memSize ≤ (0x10000 : Addr).toNat := by decide
/-- Under SKIP; the other clauses' contexts are those of the read helper's witness, with SKIP clear. -/
theorem test_meets_WriteHelperStoresTheByte : ((unitWith { Context.powerOn with
      state := .busy, count := 1, flags := { Flags.none with skip := true } }).ctx u1) =
    { Context.powerOn with state := .busy, count := 1, flags := { Flags.none with skip := true } } := by
  decide
/-- No byte left in a chained descriptor: the next one is loaded (vector H9), or fails (vector H13). -/
theorem test_meets_Helpers_chained : (chaining.ctx u1).state = .busy ∧ (chaining.ctx u1).count = 0 ∧
    (chaining.ctx u1).flags.dc = true ∧ (∃ t, execDataChain u1 chaining = (true, t)) ∧
    (zeroChain.ctx u1).flags.dc = true ∧ ∃ t, execDataChain u1 zeroChain = (false, t) :=
  ⟨by decide, by decide, by decide, ⟨_, rfl⟩, by decide, ⟨_, rfl⟩⟩
/-- The next descriptor stands at the list address (vector H9). -/
theorem test_meets_DataChainKeepsTheCommand : (chaining.ctx u1).flags.dc = true ∧
    chaining.chainComesTo u1 0x108 ∧ chaining.continuationAt u1 0x108 false ∧
    chaining.readWord 0x108 = 0x00002000 ∧ chaining.readWord 0x10C = 0x00000003 := by
  unfold State.chainComesTo State.continuationAt State.fetchable
  exact ⟨by decide, .inl (by decide), by decide, by decide, by decide⟩
/-- It is found by one Transfer-In-List (vector H10). -/
theorem test_meets_DataChainKeepsTheCommand_tic : (chainingByTic 0x02002000 0x00000002).chainComesTo u1 0x300 ∧
    (chainingByTic 0x02002000 0x00000002).continuationAt u1 0x300 false := by
  unfold State.chainComesTo State.continuationAt State.ticAt State.fetchable
  exact ⟨.inr (by decide), by decide⟩
/-- Each way a chain stops: no descriptor can be fetched (R121), a descriptor of no bytes (vector H13), and a
second Transfer-In-List (vector H11). -/
theorem test_meets_DataChainFailure_fetch : ({ zeroChain with
    cfg := { Config.testVectors with memSize := 0x10C } } : State).chainStopsAt u1 0x108 := by
  unfold State.chainStopsAt State.chainComesTo State.fetchable
  exact .inl ⟨0x108, .inl (by decide), by decide, by decide⟩
theorem test_meets_DataChainFailure_check : zeroChain.chainStopsAt u1 0x110 := by
  unfold State.chainStopsAt State.chainComesTo State.continuationAt State.fetchable
  exact .inr (.inl ⟨0x108, .inl (by decide), by decide, by decide⟩)
theorem test_meets_DataChainFailure_tic : (chainingByTic 0x08000400 0).chainStopsAt u1 0x308 := by
  unfold State.chainStopsAt State.ticAt State.fetchable
  exact .inr (.inr (by decide))
theorem test_meets_DataChainFailureLeavesTheEndToTheDevice : (zeroChain.ctx u1).flags.dc = true ∧
    ∃ t, execDataChain u1 zeroChain = (false, t) := ⟨by decide, _, rfl⟩
/-- Vector H10: the third byte goes to the descriptor the Transfer-In-List leads to. -/
theorem test_chain_tic : ((writeNextByte u1 0x5A (chainingByTic 0x02002000 0x00000002)).1,
    (writeNextByte u1 0x5A (chainingByTic 0x02002000 0x00000002)).2.readByte 0x2000,
    ((writeNextByte u1 0x5A (chainingByTic 0x02002000 0x00000002)).2.ctx u1).listAddr) =
      (.ok, 0x5A, 0x308) := by decide
/-- One descriptor of 4 bytes at 0x1FFF, and a chain of 1 and 3 whose second descriptor is at 0x108. -/
def oneDescriptor : State :=
  chaining.setCtx u1 { Context.powerOn with state := .busy, cmd := 0x01, count := 4, dataAddr := 0x1FFF }
def twoDescriptors : State :=
  chaining.setCtx u1 { Context.powerOn with
    state := .busy, listAddr := 0x108, cmd := 0x01, count := 1, dataAddr := 0x1FFF,
    flags := { Flags.none with dc := true } }
theorem test_meets_ChainedTransfersMoveTheSameBytes : oneDescriptor.cfg = twoDescriptors.cfg ∧
    (∀ a, oneDescriptor.readByte a = twoDescriptors.readByte a) ∧
    (oneDescriptor.ctx u1).state = .busy ∧ (twoDescriptors.ctx u1).state = .busy ∧
    (oneDescriptor.ctx u1).dataAddr = (twoDescriptors.ctx u1).dataAddr ∧
    isTransfer (twoDescriptors.ctx u1).cmd = true ∧
    (oneDescriptor.ctx u1).count.toNat = totalCount [1, 3] ∧ (oneDescriptor.ctx u1).flags.dc = false ∧
    (twoDescriptors.ctx u1).count = 1 ∧ ((twoDescriptors.ctx u1).flags.dc = true ↔ [(3 : Half)] ≠ []) ∧
    twoDescriptors.ChainAt (twoDescriptors.ctx u1).listAddr
      ((twoDescriptors.ctx u1).dataAddr + (1 : Half).setWidth 24) [3] ∧ 4 ≤ totalCount [1, 3] := by
  refine ⟨rfl, fun a => by simp [oneDescriptor, twoDescriptors], by decide, by decide, by decide,
    by decide, by decide, by decide, by decide, by decide, ?_, by decide⟩
  unfold State.ChainAt State.ChainAt
  decide
/-- Four bytes written, of which none reaches the second descriptor. -/
theorem test_meets_ChainedTransfers_writes : classOf (oneDescriptor.ctx u1).cmd ≠ .rdbwd ∧
    classOf (twoDescriptors.ctx u1).cmd ≠ .rdbwd ∧ (oneDescriptor.ctx u1).flags.skip = false ∧
    (twoDescriptors.ctx u1).flags.skip = false ∧
    (∀ i < 1, (decodeCommandWord (twoDescriptors.readWord (((twoDescriptors.ctx u1).listAddr +
      BitVec.ofNat 24 (8 * i)).toNat + 4))).flags.skip = false) ∧
    ∀ j < 4, ∀ i < 1, ∀ r < 8, ((twoDescriptors.ctx u1).dataAddr + BitVec.ofNat 24 j).toNat ≠
      ((twoDescriptors.ctx u1).listAddr + BitVec.ofNat 24 (8 * i)).toNat + r := by decide

/-- Room for one more record, and none. -/
theorem test_meets_RecordsAreQueuedOrCounted : ∀ n ∈ [3, 4],
    ((State.reset.setChan 0 { Channel.powerOn with
      fifo := List.replicate n { w1 := 0, w2 := 0 } }).chan 0).fifo.length = n ∧
    State.reset.cfg.fifoCap = 4 := by decide
/-- The slot at the end of memory, which is the high-water mark. -/
def atLastSlot : State :=
  State.reset.setChan 0 { Channel.powerOn with
    fifo := [{ w1 := 0x01000108, w2 := 0x000C0000 }], inchValid := true, inchBase := 0xFFF0,
    inchCur := 0xFFF8, inchHwm := 0xFFF8 }
theorem test_meets_PostWritesTheSlot :
    (atLastSlot.chan 0).fifo = [{ w1 := 0x01000108, w2 := 0x000C0000 }] ∧
    (atLastSlot.chan 0).inchValid = true ∧ (atLastSlot.chan 0).inchCur.toNat % 4 = 0 ∧
    (atLastSlot.chan 0).inchCur.toNat + 8 ≤ atLastSlot.cfg.memSize := by decide
theorem test_meets_SlotsGoRoundRobin : atLastSlot.cfg.wf = true ∧
    inchRangeOk atLastSlot.cfg.memSize (atLastSlot.chan 0) ∧ ∃ t, postStatus 0 0 atLastSlot = some t := by
  refine ⟨by decide, ?_, Option.isSome_iff_exists.1 (by decide)⟩
  unfold inchRangeOk
  decide
theorem test_meets_PendingStartsAreFifo :
    ((State.reset.setPsq u2 [0x300]).psq u2).length < State.reset.cfg.psqCap ∧
    State.reset.cfg.psqCap ≤ ((State.reset.setPsq u2 [0x300, 0x400]).psq u2).length ∧
    (unitCfg State.reset.cfg u2).hasPsq = true := by decide

theorem test_meets_AbsentUnitsAnswerDeviceAbsent : routeOf State.reset.cfg 2 = none ∧
    routeOf State.reset.cfg 0 = some 0 ∧ reachable State.reset.cfg ⟨0, 5⟩ = false := by decide
theorem test_meets_StartBeginsTheProgram : routedUnit State.reset.cfg 1 1 = some ⟨1, 1⟩ ∧
    (State.reset.ctx ⟨1, 1⟩).state = .empty ∧ postStatus 1 0 State.reset = none ∧
    (takePreCheck (preChecked .ready State.reset)).1 = { calls := [], answer := .ready } ∧
    (takePreCheck (preChecked .awaitingInit State.reset)).1 = { calls := [], answer := .awaitingInit } := by
  decide
theorem test_meets_StartPostsQueuedStatusFirst : routedUnit State.reset.cfg 0 1 = some u1 ∧
    ((withRecord State.reset).ctx u1).state = .empty ∧
    (takePreCheck (preChecked .ready (withRecord State.reset))).1 = { calls := [], answer := .ready } ∧
    ∃ p, postStatus 0 0 (preChecked .ready (withRecord State.reset)) = some p :=
  ⟨by decide, by decide, by decide, Option.isSome_iff_exists.1 (by decide)⟩
/-- A queue with room, without room, no queue, a busy device, and a device that calls inside its pre-check. -/
theorem test_meets_StartOnBusyUnit : routedUnit State.reset.cfg 0 2 = some u2 ∧
    ((inFlight u2).ctx u2).state ≠ .empty ∧ (unitCfg State.reset.cfg u2).hasPsq = true ∧
    (takePreCheck (preChecked .busyQueueable (inFlight u2))).1 = { calls := [], answer := .busyQueueable } ∧
    (((inFlight u2).setPsq u2 [0x300]).psq u2).length < State.reset.cfg.psqCap ∧
    State.reset.cfg.psqCap ≤ (((inFlight u2).setPsq u2 [0x300, 0x400]).psq u2).length ∧
    (unitCfg State.reset.cfg u1).hasPsq = false ∧
    (takePreCheck (preChecked .busy State.reset)).1 = { calls := [], answer := .busy } ∧
    (State.reset.ctx u2).state = .empty ∧
    (takePreCheck (State.reset.withInputs { Inputs.none with
      preChecks := [{ calls := [.readByte], answer := .ready }] })).1.calls ≠ [] := by decide
theorem test_meets_TestAndGrabPostOneRecord : routedUnit State.reset.cfg 0 1 = some u1 ∧
    ((withRecord State.reset).ctx u1).state = .empty ∧ postStatus 0 0 State.reset = none ∧
    ((inFlight u1).ctx u1).state ≠ .empty ∧
    ∃ p, postStatus 0 0 (withRecord State.reset) = some p :=
  ⟨by decide, by decide, by decide, by decide, Option.isSome_iff_exists.1 (by decide)⟩
theorem test_meets_StopClearsTheChainFlags : routedUnit callbackCfg 0 1 = some u1 ∧
    (unitCfg callbackCfg u1).hasStop = true ∧ (unitCfg State.reset.cfg u1).hasStop = false ∧
    (State.reset.ctx u1).state = .empty ∧ ((inFlight u1).ctx u1).state ≠ .empty := by decide
theorem test_meets_HaltEndsTheProgram : ((inFlight u2).ctx u2).state = .busy ∧
    (unitCfg State.reset.cfg u2).hasHalt = false ∧ (inFlight u2).psq u2 = [] ∧
    (unitCfg State.reset.cfg u2).hasPsq = true ∧ ((inFlight u2).setPsq u2 [0x300]).psq u2 ≠ [] := by
  decide
theorem test_meets_HaltOnIdleOrSelfHaltingUnit : routedUnit callbackCfg 0 1 = some u1 ∧
    (State.reset.ctx u1).state = .empty ∧ ((inFlight u1).ctx u1).state ≠ .empty ∧
    (unitCfg callbackCfg u1).hasHalt = true := by decide
theorem test_meets_ResetChannelClearsTheChannel : routeOf State.reset.cfg 0 = some 0 ∧
    reachable State.reset.cfg u2 = true ∧ (unitCfg State.reset.cfg u2).hasPsq = true ∧
    (unitCfg State.reset.cfg u1).hasPsq = false ∧ channelOwns State.reset.cfg 0 5 = true := by decide
theorem test_meets_ResetControllerClearsItsUnits : routedUnit State.reset.cfg 0 1 = some u1 ∧
    (unitCfg State.reset.cfg u2).controller = (unitCfg State.reset.cfg u1).controller ∧
    (unitCfg State.reset.cfg u10).controller ≠ (unitCfg State.reset.cfg u1).controller := by decide

theorem test_meets_LevelOperations : (5 : BitVec 7).toNat = 5 ∧ 5 < State.reset.cfg.numLevels ∧
    (levelCfg State.reset.cfg 5).configured = true ∧ ((withRecord State.reset).chan 0).fifo ≠ [] := by
  decide
/-- The first level out of range, and one that is not configured (vectors X11, X10). -/
theorem test_meets_UnsupportedRequestsChangeNothing :
    State.reset.cfg.numLevels ≤ (16 : BitVec 7).toNat ∧
      (levelCfg State.reset.cfg (9 : BitVec 7).toNat).configured = false := by decide
theorem test_meets_SimpleSourcesRaiseTheirLevel : 7 < State.reset.cfg.numLevels ∧
    (levelCfg State.reset.cfg 7).configured = true ∧ (levelCfg State.reset.cfg 7).owner = .simple ∧
    (levelCfg State.reset.cfg 5).owner = .chan 0 ∧ (levelCfg State.reset.cfg 9).configured = false := by
  decide
/-- Levels 5 and 7 wait; level 5 is the first. -/
def twoLevelsWaiting : State :=
  (State.reset.setLvl 5 { Level.powerOn with requested := true, enabled := true }).setLvl 7
    { Level.powerOn with requested := true, enabled := true }
theorem test_meets_ScanDispatchesTheHighestPriority : twoLevelsWaiting.cfg.wf = true ∧
    twoLevelsWaiting.Eligible 5 ∧ twoLevelsWaiting.Eligible 7 ∧
    ∀ k, twoLevelsWaiting.Eligible k → 5 ≤ k := by
  unfold State.Eligible
  refine ⟨by decide, by decide, by decide, fun k h => ?_⟩
  have : ∀ k < 16, (twoLevelsWaiting.lvl k).enabled = true → 5 ≤ k := by decide
  exact this k h.1 h.2.2.2.1
/-- A simple source's level, 7, is the lowest that waits. -/
def simpleLevelWaiting : State :=
  State.reset.setLvl 7 { Level.powerOn with requested := true, enabled := true }
theorem test_meets_ScanDispatchesTheHighestPriority_simple : simpleLevelWaiting.cfg.wf = true ∧
    (levelCfg simpleLevelWaiting.cfg 7).owner = .simple ∧ simpleLevelWaiting.Eligible 7 ∧
    ∀ k, simpleLevelWaiting.Eligible k → 7 ≤ k := by
  unfold State.Eligible
  refine ⟨by decide, by decide, by decide, fun k h => ?_⟩
  have : ∀ k < 16, (simpleLevelWaiting.lvl k).enabled = true → 7 ≤ k := by decide
  exact this k h.1 h.2.2.2.1
theorem test_meets_ScanAnswersNone : ∀ l, ¬State.reset.Eligible l := fun _ h => by
  have h2 := h.2.2.2.1
  cases h2

end Sys2Proof.Tests
end

section
/-! PROOFS. The ownership of interrupt levels in a well-formed configuration, and the refusal of every
other configuration (spec/00_scope.md R9, R11). -/

namespace Sys2Proof.Machine

variable {cfg : Config} {ch k : Nat} {e : Nat × LevelCfg}

/-- What well-formedness says of the levels, in propositions (R9, R11, R42). -/
theorem wf_levels (h : cfg.wf = true) :
    (cfg.levels.map Prod.fst).Nodup ∧ (∀ e ∈ cfg.levels, e.1 < cfg.numLevels) ∧
      ∀ ch < cfg.numChan, ∃ e, cfg.levelsOwnedBy ch = [e] := by
  simp only [Config.wf, Config.levelsOk, Bool.and_eq_true, decide_eq_true_eq, List.all_eq_true,
    List.mem_range, List.length_eq_one_iff] at h
  obtain ⟨-, ⟨hnodup, hrange⟩, howned⟩ := h
  exact ⟨hnodup, fun e he => (hrange e he).1, howned⟩

@[simp] theorem mem_levelsOwnedBy :
    e ∈ cfg.levelsOwnedBy ch ↔ e ∈ cfg.levels ∧ e.2.owner = .chan ch := by
  simp [Config.levelsOwnedBy]

/-- The level a channel owns is the first of its listed levels. -/
theorem chanLevel_eq_head? (cfg : Config) (ch : Nat) :
    chanLevel cfg ch = (cfg.levelsOwnedBy ch).head?.map Prod.fst := by
  simp only [chanLevel, Config.levelsOwnedBy, List.head?_filter]
  rfl

/-- Where no level is listed twice, a listed level has the configuration its entry gives. -/
theorem levelCfg_of_mem (hnodup : (cfg.levels.map Prod.fst).Nodup) (he : e ∈ cfg.levels) :
    levelCfg cfg e.1 = e.2 := by
  unfold levelCfg
  split
  next e' hfind =>
    have hkey : e'.1 = e.1 := by simpa using List.find?_some hfind
    rw [List.inj_on_of_nodup_map hnodup (List.mem_of_find?_eq_some hfind) he hkey]
  next hnone => simpa using List.find?_eq_none.1 hnone e he

/-- A level that a channel owns is listed: the owner of an unlisted one is a simple source. -/
theorem mem_levels_of_owner (h : (levelCfg cfg k).owner = .chan ch) :
    (k, levelCfg cfg k) ∈ cfg.levels := by
  unfold levelCfg at h ⊢
  split at h
  next e hfind =>
    have hkey : e.1 = k := by simpa using List.find?_some hfind
    subst hkey
    exact List.mem_of_find?_eq_some hfind
  next => cases h

/-- Each channel of a well-formed configuration owns one level, and no other level names it (R11). -/
theorem wf_chanLevel_unique (hwf : cfg.wf = true) (hch : ch < cfg.numChan) :
    ∃ l, chanLevel cfg ch = some l ∧ l < cfg.numLevels ∧ (levelCfg cfg l).owner = .chan ch ∧
      ∀ k, (levelCfg cfg k).owner = .chan ch → k = l := by
  obtain ⟨hnodup, hrange, howned⟩ := wf_levels hwf
  obtain ⟨e, he⟩ := howned ch hch
  obtain ⟨hmem, howner⟩ : e ∈ cfg.levels ∧ e.2.owner = .chan ch :=
    mem_levelsOwnedBy.1 (he ▸ List.mem_singleton_self e)
  refine ⟨e.1, ?_, hrange e hmem, ?_, fun k hk => ?_⟩
  · rw [chanLevel_eq_head?, he]
    rfl
  · rw [levelCfg_of_mem hnodup hmem, howner]
  · have hin : (k, levelCfg cfg k) ∈ cfg.levelsOwnedBy ch :=
      mem_levelsOwnedBy.2 ⟨mem_levels_of_owner hk, hk⟩
    rw [he, List.mem_singleton] at hin
    rw [← hin]

theorem step_of_not_wf {s : State} (h : s.cfg.wf = false) :
    step s = .refused .illFormedConfiguration := by
  simp [step, h]

/-- Settles O9: the one entry of the level table that R11 grants the channel is the level it owns, and
the check of the configuration stands before every other act of a step. -/
theorem eachChannelOwnsOneLevel : Obligations.EachChannelOwnsOneLevel :=
  ⟨fun _ _ hwf hch => wf_chanLevel_unique hwf hch, fun _ h => step_of_not_wf h⟩

end Sys2Proof.Machine
end

section
/-! PROOFS. What an operation can end in, and how that is read off the shared shapes of the meanings:
the routing of a request, the level check and the pre-check. -/

namespace Sys2Proof.Machine

/-- The operation ends in a state of `P`, or stops with a fault of `F`. -/
def ResultIn (P : State → Prop) (F : Fault → Prop) : Except Fault State → Prop
  | .ok t => P t
  | .error f => F f

/-- The step ends in a state of `P`, or stops with a fault of `F`, or is refused. -/
def OutcomeIn (P : State → Prop) (F : Fault → Prop) : Host.Outcome State Fault Refusal → Prop
  | .next t => P t
  | .fault f => F f
  | .refused _ => True

variable {P : State → Prop} {F : Fault → Prop} {s : State}

theorem outcomeIn_outcomeOf {x : Except Fault State} (h : ResultIn P F x) :
    OutcomeIn P F (outcomeOf x) := by
  cases x <;> exact h

theorem outcomeIn_onUnit {lchan : BitVec 7} {sa : Byte} {act : UnitId → Host.Outcome State Fault Refusal}
    (habsent : P (s.answer .deviceAbsent)) (hact : ∀ u, OutcomeIn P F (act u)) :
    OutcomeIn P F (onUnit lchan sa s act) := by
  unfold onUnit
  split
  · exact hact _
  · exact habsent

theorem outcomeIn_onChannel {lchan : BitVec 7} {act : Nat → State}
    (habsent : P (s.answer .deviceAbsent)) (hact : ∀ ch, P (act ch)) :
    OutcomeIn P F (onChannel lchan s act) := by
  unfold onChannel
  split
  · exact hact _
  · exact habsent

theorem levelCfg_configured_of_usable {cfg : Config} {l : Nat} (h : levelUsable cfg l = true) :
    (levelCfg cfg l).configured = true := by
  simp only [levelUsable, Bool.and_eq_true] at h
  exact h.2

theorem outcomeIn_onLevel {lev : BitVec 7} {act : Nat → State → State}
    (hunused : P (s.answer .unsupported))
    (hact : (levelCfg s.cfg lev.toNat).configured = true →
      P ((act lev.toNat s).answer .acceptedNoStatus)) :
    OutcomeIn P F (onLevel lev s act) := by
  unfold onLevel
  split
  · exact hact (levelCfg_configured_of_usable ‹_›)
  · exact hunused

theorem outcomeIn_withPreCheck {u : UnitId} {act : PreCheck → State → State}
    (hcall : F .callInsidePreCheck)
    (hact : ∀ pc, P (act pc ((takePreCheck s).2.emit (.preCheck u)))) :
    OutcomeIn P F (withPreCheck u s act) := by
  unfold withPreCheck
  split
  · exact hact _
  · exact hcall

/-- `dispatchable` asks first that the level is configured, so a scan finds no other (R240). -/
theorem scanFinds_configured {l : Nat} (h : scanFinds s = some l) :
    (levelCfg s.cfg l).configured = true := by
  have hd : dispatchable s l = true := List.find?_some h
  simp only [dispatchable, Bool.and_eq_true] at hd
  exact hd.1.1.1

/-- All that the dispatch of a level can do: the level becomes active, and its channel posts a record or
none (R240). -/
theorem dispatchLevel_cases (l : Nat) (s : State) :
    ∃ x, levelSound x ∧
      (dispatchLevel l s = s.setLvl l x ∨
        ∃ ch, postStatus ch 0 (s.setLvl l x) = some (dispatchLevel l s)) := by
  refine ⟨{ s.lvl l with active := true, requested := false }, ⟨fun _ => rfl, fun _ => rfl⟩, ?_⟩
  unfold dispatchLevel
  dsimp only
  split
  next => exact .inl rfl
  next ch _ =>
    cases hp : postStatus ch 0 (s.setLvl l { s.lvl l with active := true, requested := false }) with
    | none => exact .inl rfl
    | some t => exact .inr ⟨ch, hp⟩

/-! ### The calls inside `start_command` -/

variable {u : UnitId} {t : State} {d : DevCall} {ds : List DevCall}

/-- A call other than a signal is made, or names a channel that does not exist (R9, R301). -/
theorem deviceCall_cases (hd : ∀ extra, d ≠ .signal extra) (u : UnitId) (s : State) :
    (∃ t, deviceCall u d s = .ok t) ∨ deviceCall u d s = .error .noSuchChannel := by
  cases d with
  | signal extra => exact absurd rfl (hd extra)
  | readByte => exact .inl ⟨_, rfl⟩
  | writeByte b => exact .inl ⟨_, rfl⟩
  | pushFront ch r =>
    by_cases hch : ch < s.cfg.numChan
    · exact .inl ⟨_, if_pos hch⟩
    · exact .inr (if_neg hch)

theorem startCalls_cons_ok (hd : ∀ extra, d ≠ .signal extra) (h : deviceCall u d s = .ok t) :
    startCalls u (d :: ds) s = startCalls u ds t := by
  cases d with
  | signal extra => exact absurd rfl (hd extra)
  | readByte | writeByte | pushFront => simp only [startCalls, h]

theorem startCalls_cons_error {f : Fault} (hd : ∀ extra, d ≠ .signal extra)
    (h : deviceCall u d s = .error f) : startCalls u (d :: ds) s = .error f := by
  cases d with
  | signal extra => exact absurd rfl (hd extra)
  | readByte | writeByte | pushFront => simp only [startCalls, h]

/-- All that the calls of a `start_command` can come to: they are made in order, or one is a signal, or one
names a channel that does not exist (R303 item 1, R311). -/
theorem startCalls_cases (u : UnitId) (ds : List DevCall) (s : State) :
    (∃ t, CallsRun u ds s t ∧ startCalls u ds s = .ok t) ∨
      startCalls u ds s = .error .signalInsideStart ∨ startCalls u ds s = .error .noSuchChannel := by
  induction ds generalizing s with
  | nil => exact .inl ⟨s, rfl, rfl⟩
  | cons d ds ih =>
    by_cases hd : ∀ extra, d ≠ .signal extra
    · obtain ⟨x, hx⟩ | hx := deviceCall_cases hd u s
      · rw [startCalls_cons_ok hd hx]
        exact (ih x).imp_left fun ⟨t, hrun, ht⟩ => ⟨t, ⟨hd, x, hx, hrun⟩, ht⟩
      · exact .inr (.inr (startCalls_cons_error hd hx))
    · push Not at hd
      obtain ⟨extra, rfl⟩ := hd
      exact .inr (.inl rfl)

end Sys2Proof.Machine
end

section
/-! PROOFS. A step is a run of a few kinds of change of the stored state, whatever the devices and the CPU
do. Both invariants of the stored state are then facts about one change. -/

namespace Sys2Proof.Machine

/-- One change of the stored state, with what holds wherever the machine makes it. -/
inductive Change : State → State → Prop where
  | emit (s : State) (o : Output) : Change s (s.emit o)
  | stack (s : State) (st : List Activation) : Change s (s.withStack st)
  | inputs (s : State) (i : Inputs) : Change s (s.withInputs i)
  | context (s : State) (u : UnitId) (c : Context) : Change s (s.setCtx u c)
  | store (s : State) (a : Addr) (b : Byte) : Change s (s.storeByte a b)
  /-- a reset empties the queue of a unit that has one (R268) -/
  | clearQueue {s : State} {u : UnitId} (h : (unitCfg s.cfg u).hasPsq = true) :
      Change s (s.setPsq u [])
  /-- a Start is queued at a unit that has a queue (R211) -/
  | enqueue {s t : State} {u : UnitId} {a : Addr} (hq : (unitCfg s.cfg u).hasPsq = true)
      (h : enqueue u a s = some t) : Change s t
  | call {s t : State} {u : UnitId} {d : DevCall} (h : deviceCall u d s = .ok t) : Change s t
  /-- the channel end of a Halt, up to the entry of the engine (R264) -/
  | channelEnd {s : State} {u : UnitId} {extra : Half} {p : State × Option Bool}
      (h : channelEndCore u extra s = .ok p) : Change s p.1
  | post {s t : State} {ch : Nat} {mask : Half} (h : postStatus ch mask s = some t) : Change s t
  /-- a reset takes records away (R268, R269) -/
  | records {s : State} {ch : Nat} {q : List Record} (h : q.Sublist (s.chan ch).fifo) :
      Change s (s.setChan ch { s.chan ch with fifo := q })
  /-- an INCH whose operands pass the check of R129 loads its range (R135) -/
  | statusBuffer {s : State} {u : UnitId}
      (h : inchOperandBad s.cfg (s.ctx u).dataAddr (s.ctx u).count = false) :
      Change s (loadInchRange u s)
  /-- a configured level changes and keeps R37 and R38 -/
  | level {s : State} {l : Nat} {x : Level} (hc : (levelCfg s.cfg l).configured = true)
      (hx : levelSound (s.lvl l) → levelSound x) : Change s (s.setLvl l x)

/-- Changes made one after the other. -/
abbrev Changes : State → State → Prop := Relation.ReflTransGen Change

/-- The machine may stop with any fault: what is said is said of the states it goes on to. -/
def anyFault (_ : Fault) : Prop := True

variable {r s t : State} {u : UnitId}

/-! ### The shared operations -/

theorem changes_push (h : Changes r s) (a : Activation) : Changes r (s.push a) :=
  h.tail (.stack s (a :: s.stack))

theorem changes_answer (h : Changes r s) (o : XioOutcome) : Changes r (s.answer o) := h.tail (.emit _ _)

theorem changes_takePreCheck (h : Changes r s) : Changes r (takePreCheck s).2 := by
  unfold takePreCheck; split <;> exact h.tail (.inputs _ _)

theorem changes_takeStart (h : Changes r s) : Changes r (takeStart s).2 := by
  unfold takeStart; split <;> exact h.tail (.inputs _ _)

theorem changes_takeHalt (h : Changes r s) : Changes r (takeHalt s).2 := by
  unfold takeHalt; split <;> exact h.tail (.inputs _ _)

theorem changes_takeStop (h : Changes r s) : Changes r (takeStop s).2 := by
  unfold takeStop; split <;> exact h.tail (.inputs _ _)

theorem changes_takeOverride (h : Changes r s) : Changes r (takeOverride s).2 := by
  unfold takeOverride; split <;> exact h.tail (.inputs _ _)

theorem changes_enterEngine (h : Changes r s) (u : UnitId) (allow : Bool) :
    Changes r (enterEngine u allow s) := by
  unfold enterEngine
  split
  · exact changes_push ((changes_takeOverride h).tail (.emit _ _)) _
  · exact changes_push (h.tail (.context _ _ _)) _

theorem changes_onChannelLevel (h : Changes r s) (ch : Nat) {f : Level → Level}
    (hf : ∀ x, levelSound x → levelSound (f x)) : Changes r (s.onChannelLevel ch f) := by
  unfold State.onChannelLevel
  split
  · split
    · exact h.tail (.level ‹_› (hf _))
    · exact h
  · exact h

theorem changes_deviceCall (h : Changes r s) (u : UnitId) (d : DevCall) :
    ResultIn (Changes r) anyFault (deviceCall u d s) := by
  cases ht : deviceCall u d s with
  | ok t => exact h.tail (.call ht)
  | error f => trivial

theorem changes_channelEnd (h : Changes r s) (u : UnitId) (extra : Half) :
    ResultIn (Changes r) anyFault (channelEnd u extra s) :=
  changes_deviceCall h u (.signal extra)

theorem changes_forceEnd (h : Changes r s) (u : UnitId) (bits : Half) :
    ResultIn (Changes r) anyFault (forceEnd u bits s) :=
  changes_channelEnd (h.tail (.context _ _ _)) u bits

theorem changes_programCheckCmd (h : Changes r s) (u : UnitId) :
    ResultIn (Changes r) anyFault (programCheckCmd u s) :=
  changes_forceEnd ((h.tail (.context _ _ _)).tail (.emit _ _)) u _

theorem changes_testChannel (h : Changes r s) (ch : Nat) : Changes r (testChannel ch s) := by
  unfold testChannel
  split
  · exact changes_answer (h.tail (.post ‹_›)) _
  · exact changes_answer h _

/-! ### The descriptors -/

theorem changes_callsRun {ds : List DevCall} (h : Changes r s) (hrun : CallsRun u ds s t) :
    Changes r t := by
  induction ds generalizing s with
  | nil => cases hrun; exact h
  | cons d ds ih =>
    obtain ⟨-, x, hx, hrest⟩ := hrun
    exact ih (h.tail (.call hx)) hrest

theorem changes_afterAnswer (h : Changes r s) (u : UnitId) (st : Half) :
    ResultIn (Changes r) anyFault (afterAnswer u st s) := by
  have hmerged := h.tail (.context s u (mergeStatus st (s.ctx u)))
  unfold afterAnswer
  dsimp only
  split_ifs
  · exact changes_forceEnd (hmerged.tail (.emit _ _)) _ _
  · exact changes_channelEnd (hmerged.tail (.emit _ _)) _ _
  · exact (hmerged.tail (.context _ _ _)).tail (.emit _ _)
  · exact hmerged.tail (.emit _ _)

theorem changes_dispatchCommand (h : Changes r s) {c : Byte}
    (hinch : classOf c = .inch → inchOperandBad s.cfg (s.ctx u).dataAddr (s.ctx u).count = false) :
    ResultIn (Changes r) anyFault (dispatchCommand u c s) := by
  have hloaded : Changes r (if classOf c = .inch then loadInchRange u s else s) := by
    split_ifs with hc
    · exact h.tail (.statusBuffer (hinch hc))
    · exact h
  unfold dispatchCommand
  dsimp only
  split
  next x hx =>
    obtain ⟨t, hrun, ht⟩ | hf | hf := startCalls_cases u
      (takeStart (if classOf c = .inch then loadInchRange u s else s)).1.calls
      ((takeStart (if classOf c = .inch then loadInchRange u s else s)).2.emit (.startCommand u c))
    · cases hx.symm.trans ht
      exact changes_afterAnswer (changes_callsRun ((changes_takeStart hloaded).tail (.emit _ _)) hrun) u _
    · cases hx.symm.trans hf
    · cases hx.symm.trans hf
  next => trivial

/-- A descriptor that passes the checks of R125 to R129 passes the last of them, where it is an INCH. -/
theorem inchOperandOk_of_descriptorOk {cfg : Config} {c : Byte} {addr : Addr} {w2 : CommandWord}
    (h : descriptorBad cfg c addr w2 = false) (hc : classOf c = .inch) :
    inchOperandBad cfg addr w2.count = false := by
  simpa [hc] using (Bool.or_eq_false_iff.1 h).2

theorem changes_beginCommand (h : Changes r s) (code : Byte) (addr : Addr) (w2 : CommandWord) :
    OutcomeIn (Changes r) anyFault (beginCommand code addr w2 s) := by
  unfold beginCommand
  split
  next u ticOk rest hs =>
    have hleft := h.tail (.stack s rest)
    split
    next => exact outcomeIn_outcomeOf (changes_programCheckCmd hleft u)
    next c t hacc =>
      obtain ⟨-, -, -, rfl⟩ := acceptDescriptor_some hacc
      exact hleft.tail (.context _ _ _)
    next c t hacc =>
      obtain ⟨-, -, hok, rfl⟩ := acceptDescriptor_some hacc
      refine outcomeIn_outcomeOf (changes_dispatchCommand (hleft.tail (.context _ _ _)) fun hc => ?_)
      simpa [loadedContext] using inchOperandOk_of_descriptorOk hok hc
  next => trivial

theorem changes_transferInList (h : Changes r s) (addr : Addr) :
    OutcomeIn (Changes r) anyFault (transferInList addr s) := by
  unfold transferInList
  split
  · exact (h.tail (.context _ _ _)).tail (.stack _ _)
  · exact outcomeIn_outcomeOf (changes_programCheckCmd (h.tail (.stack _ _)) _)
  · trivial

/-! ### The requests -/

theorem changes_startInFlight (h : Changes r s) (u : UnitId) (a : Addr) (pc : PreCheck) :
    Changes r (startInFlight u a pc s) := by
  unfold startInFlight
  split
  next hq =>
    simp only [Bool.and_eq_true] at hq
    split
    · exact changes_answer (h.tail (.enqueue hq.1 ‹_›)) _
    · exact changes_answer h _
  next => exact changes_answer h _

theorem changes_startProgram (h : Changes r s) (u : UnitId) (a : Addr) :
    Changes r (startProgram u a s) := by
  unfold startProgram
  split
  · exact changes_answer (h.tail (.post ‹_›)) _
  · exact changes_enterEngine (changes_push (h.tail (.context _ _ _)) _) _ _

theorem changes_startUnit (h : Changes r s) (u : UnitId) (a : Addr) (pc : PreCheck) :
    Changes r (startUnit u a pc s) := by
  unfold startUnit
  split_ifs
  · exact changes_startInFlight h u a pc
  · exact changes_answer h _
  · exact changes_startProgram h u a

theorem changes_haltTerminate (h : Changes r s) (u : UnitId) :
    ResultIn (Changes r) anyFault (haltTerminate u s) := by
  unfold haltTerminate
  split
  next => trivial
  next s1 hend => exact changes_testChannel (h.tail (.channelEnd hend)) _
  next s1 allow hend =>
    exact changes_enterEngine (changes_push (h.tail (.channelEnd hend)) _) _ _

theorem changes_execStpio (h : Changes r s) (lchan : BitVec 7) (sa : Byte) :
    OutcomeIn (Changes r) anyFault (execStpio lchan sa s) := by
  refine outcomeIn_onUnit (changes_answer h _) fun u => ?_
  have hstopped := h.tail (.context s u (stopChaining (s.ctx u)))
  dsimp only
  split_ifs
  · exact changes_answer h _
  · exact changes_push ((changes_takeStop hstopped).tail (.emit _ _)) _
  · exact changes_answer hstopped _

theorem changes_execHio (h : Changes r s) (lchan : BitVec 7) (sa : Byte) :
    OutcomeIn (Changes r) anyFault (execHio lchan sa s) := by
  refine outcomeIn_onUnit (changes_answer h _) fun u => ?_
  have hprepared : Changes r (haltPrepare u s) := (h.tail (.emit _ _)).tail (.context _ _ _)
  dsimp only
  split_ifs
  · exact changes_answer h _
  · exact changes_push ((changes_takeHalt hprepared).tail (.emit _ _)) _
  · exact outcomeIn_outcomeOf (changes_haltTerminate hprepared u)

theorem changes_execGrio (h : Changes r s) (lchan : BitVec 7) (sa : Byte) :
    OutcomeIn (Changes r) anyFault (execGrio lchan sa s) := by
  refine outcomeIn_onUnit (changes_answer h _) fun u => ?_
  split_ifs
  · exact changes_answer h _
  · exact changes_testChannel h _

theorem changes_clearUnit (h : Changes r s) (u : UnitId) : Changes r (clearUnit s u) := by
  have hcancelled := h.tail (.emit s (.cancel u))
  unfold clearUnit
  dsimp only
  split_ifs with hq
  · exact (hcancelled.tail (.clearQueue hq)).tail (.context _ _ _)
  · exact hcancelled.tail (.context _ _ _)

theorem changes_clearUnits (h : Changes r s) (us : List UnitId) : Changes r (clearUnits us s) := by
  induction us generalizing s with
  | nil => exact h
  | cons u us ih => exact ih (changes_clearUnit h u)

theorem changes_emitFor (h : Changes r s) (us : List UnitId) (f : UnitId → Output) :
    Changes r (emitFor us f s) := by
  induction us generalizing s with
  | nil => exact h
  | cons u us ih => exact ih (h.tail (.emit s (f u)))

theorem changes_resetChannel (h : Changes r s) (ch : Nat) : Changes r (resetChannel ch s) :=
  changes_answer (changes_onChannelLevel
    ((changes_emitFor (changes_clearUnits h _) _ _).tail (.records (List.nil_sublist _))) ch
    fun x _ => levelSound_clear _ x) _

theorem changes_resetController (h : Changes r s) (u : UnitId) : Changes r (resetController u s) :=
  changes_answer (changes_onChannelLevel
    ((changes_emitFor (changes_clearUnits h _) _ _).tail (.records List.filter_sublist)) u.ch
    fun x _ => levelSound_clear _ x) _

/-! ### The levels -/

theorem changes_enableLevel (h : Changes r s) {l : Nat} (hc : (levelCfg s.cfg l).configured = true) :
    Changes r (enableLevel l s) :=
  h.tail (.level hc fun hl => hl)

theorem changes_disableLevel (h : Changes r s) {l : Nat} (hc : (levelCfg s.cfg l).configured = true) :
    Changes r (disableLevel l s) :=
  h.tail (.level hc fun hl => hl)

theorem changes_activateLevel (h : Changes r s) {l : Nat} (hc : (levelCfg s.cfg l).configured = true) :
    Changes r (activateLevel l s) :=
  h.tail (.level hc fun _ => ⟨fun _ => rfl, fun _ => rfl⟩)

theorem changes_releaseLevel (h : Changes r s) {l : Nat} (hc : (levelCfg s.cfg l).configured = true) :
    Changes r (releaseLevel l s) :=
  h.tail (.level hc fun _ => ⟨nofun, nofun⟩)

theorem changes_raiseLevel (h : Changes r s) (l : Nat) : Changes r (raiseLevel l s) := by
  unfold raiseLevel
  split
  next hl =>
    simp only [Bool.and_eq_true] at hl
    refine h.tail (.level (levelCfg_configured_of_usable hl.1) fun hsound => ?_)
    split_ifs with hactive
    · exact ⟨hsound.1, fun _ => hactive⟩
    · exact ⟨fun ha => absurd ha hactive, hsound.2⟩
  next => exact h

theorem changes_dispatchLevel (h : Changes r s) {l : Nat} (hc : (levelCfg s.cfg l).configured = true) :
    Changes r (dispatchLevel l s) := by
  obtain ⟨x, hx, hd | ⟨ch, hp⟩⟩ := dispatchLevel_cases l s
  · rw [hd]; exact h.tail (.level hc fun _ => hx)
  · exact (h.tail (.level hc fun _ => hx)).tail (.post hp)

theorem changes_scanLevels (h : Changes r s) (blocked : Bool) : Changes r (scanLevels blocked s) := by
  unfold scanLevels
  split
  · exact h.tail (.emit _ _)
  · split
    · exact (changes_dispatchLevel h (scanFinds_configured ‹_›)).tail (.emit _ _)
    · exact h.tail (.emit _ _)

/-! ### Instructions and steps -/

theorem changes_exec (h : Changes r s) (i : Instr) : OutcomeIn (Changes r) anyFault (exec i s) := by
  cases i with
  | inch | invalid | write | read | control | sense | rdbwd => exact changes_beginCommand h _ _ _
  | tic => exact changes_transferInList h _
  | sio lchan sa a =>
    exact outcomeIn_onUnit (changes_answer h _) fun u => outcomeIn_withPreCheck trivial fun pc =>
      changes_startUnit ((changes_takePreCheck h).tail (.emit _ _)) u a pc
  | tio lchan sa => exact outcomeIn_onUnit (changes_answer h _) fun u => changes_testChannel h u.ch
  | stpio lchan sa => exact changes_execStpio h lchan sa
  | rschnl lchan sa => exact outcomeIn_onChannel (changes_answer h _) fun ch => changes_resetChannel h ch
  | hio lchan sa => exact changes_execHio h lchan sa
  | grio lchan sa => exact changes_execGrio h lchan sa
  | rsctl lchan sa => exact outcomeIn_onUnit (changes_answer h _) fun u => changes_resetController h u
  | eci lev =>
    exact outcomeIn_onLevel (changes_answer h _) fun hc => changes_answer (changes_enableLevel h hc) _
  | dci lev =>
    exact outcomeIn_onLevel (changes_answer h _) fun hc => changes_answer (changes_disableLevel h hc) _
  | aci lev =>
    exact outcomeIn_onLevel (changes_answer h _) fun hc => changes_answer (changes_activateLevel h hc) _
  | daci lev =>
    exact outcomeIn_onLevel (changes_answer h _) fun hc => changes_answer (changes_releaseLevel h hc) _
  | unassigned0 | unassigned1 | unassigned9 | unassignedA | unassignedB => exact changes_answer h _

theorem changes_fetchStep (h : Changes r s) (u : UnitId) :
    OutcomeIn (Changes r) anyFault (fetchStep exec u s) := by
  unfold fetchStep
  split
  next => exact outcomeIn_outcomeOf (changes_programCheckCmd (h.tail (.stack _ _)) u)
  next w1 w2 t hf =>
    obtain ⟨-, -, -, -, rfl⟩ := fetchDescriptor_some hf
    exact changes_exec (h.tail (.context _ _ _)) _

theorem changes_overrideStep (h : Changes r s) (u : UnitId) (acts : List OverrideAct)
    (answer : EngineOutcome) (rest : List Activation) :
    OutcomeIn (Changes r) anyFault (overrideStep u acts answer rest s) := by
  cases acts with
  | nil =>
    unfold overrideStep
    dsimp only
    cases (s.ctx u).state with
    | busy | channelEndPending | empty => exact (h.tail (.stack _ _)).tail (.emit _ _)
    | awaitingNext | posted | done => trivial
  | cons act acts =>
    have hleft := h.tail (.stack s (.override u acts answer :: rest))
    cases act with
    | setContext c => exact hleft.tail (.context _ _ _)
    | store a b => exact hleft.tail (.store _ _ _)
    | call d => exact outcomeIn_outcomeOf (changes_deviceCall hleft u d)

theorem changes_callbackStep (h : Changes r s) (u : UnitId) (calls : List DevCall) (answer : XioOutcome)
    (rest : List Activation) : OutcomeIn (Changes r) anyFault (callbackStep u calls answer rest s) := by
  cases calls with
  | nil => exact changes_answer (h.tail (.stack _ _)) _
  | cons d ds => exact outcomeIn_outcomeOf (changes_deviceCall (h.tail (.stack _ _)) u d)

theorem changes_completionStep (h : Changes r s) (calls : List (UnitId × DevCall))
    (rest : List Activation) : OutcomeIn (Changes r) anyFault (completionStep calls rest s) := by
  cases calls with
  | nil => exact h.tail (.stack _ _)
  | cons p calls =>
    unfold completionStep
    dsimp only
    split
    · exact outcomeIn_outcomeOf (changes_deviceCall (h.tail (.stack _ _)) _ _)
    · trivial

theorem changes_runPortOp (h : Changes r s) (op : PortOp) :
    OutcomeIn (Changes r) anyFault (runPortOp exec op s) := by
  cases op with
  | xio req a =>
    unfold runPortOp
    dsimp only
    split
    · exact changes_exec h _
    · exact changes_answer h _
  | scan blocked => exact changes_scanLevels h blocked
  | raise l => exact changes_raiseLevel h l
  | device calls => exact changes_push h _
  | cpuStore a b => exact h.tail (.store _ _ _)

/-- A step is a run of changes, or the machine stops. -/
theorem changes_step (s : State) : OutcomeIn (Changes s) anyFault (step s) := by
  have h : Changes s s := .refl
  unfold step
  split
  · unfold stepWith
    split
    · exact changes_fetchStep h _
    · exact changes_overrideStep h _ _ _ _
    · exact changes_completionStep h _ _
    · exact changes_callbackStep h _ _ _ _
    · exact changes_testChannel (h.tail (.stack _ _)) _
    · exact changes_answer (h.tail (.stack _ _)) _
    · split
      · exact h
      · exact changes_runPortOp (h.tail (.inputs _ _)) _
  · trivial

theorem changes_of_step (h : step s = .next t) : Changes s t := by
  have hs := changes_step s
  rwa [h] at hs

/-! ### The invariant of the stored state -/

theorem enqueue_eq_some {a : Addr} (h : enqueue u a s = some t) :
    (s.psq u).length < s.cfg.psqCap ∧ t = s.setPsq u (s.psq u ++ [a]) := by
  unfold enqueue at h
  split at h
  · exact ⟨‹_›, (Option.some.inj h).symm⟩
  · cases h

theorem inv_change (h : Change s t) (hs : s.Inv) : t.Inv := by
  cases h with
  | emit o => exact inv_emit hs o
  | stack st => exact inv_withStack hs st
  | inputs i => exact inv_withInputs hs i
  | context u c => exact inv_setCtx hs u c
  | store a b => exact inv_storeByte hs a b
  | clearQueue hq => exact inv_setPsq hs (Nat.zero_le _) fun _ => rfl
  | enqueue hq he =>
    obtain ⟨hroom, rfl⟩ := enqueue_eq_some he
    refine inv_setPsq hs ?_ fun hno => ?_
    · simpa using hroom
    · rw [hq] at hno; cases hno
  | call hd => exact inv_deviceCall hs hd
  | channelEnd he => exact inv_channelEndCore hs he
  | post hp => exact inv_postStatus hs hp
  | records hq => exact inv_setChan hs (hq.length_le.trans (hs.fifoBound _)) (hs.inchOk _)
  | statusBuffer hi => exact inv_loadInchRange hs hi
  | level hc hx => exact inv_setLvl hs (hx (hs.levelSound _)) hc

theorem inv_changes (h : Changes s t) (hs : s.Inv) : t.Inv := by
  induction h with
  | refl => exact hs
  | tail _ hlast ih => exact inv_change hlast ih

/-- Settles O10: a step is a run of changes, and each keeps the invariant. -/
theorem stepKeepsStoredState : Obligations.StepKeepsStoredState :=
  fun _ _ hs hstep => inv_changes (changes_of_step hstep) hs

/-! ### The configuration and the counts of dropped records -/

/-- From `s` to `t` the configuration stays and no count of dropped records falls (R34, R42). -/
structure CountsKept (s t : State) : Prop where
  cfg : t.cfg = s.cfg
  overflow : ∀ ch, (s.chan ch).overflow ≤ (t.chan ch).overflow

theorem CountsKept.refl (s : State) : CountsKept s s := ⟨rfl, fun _ => le_rfl⟩

theorem CountsKept.trans (h : CountsKept r s) (k : CountsKept s t) : CountsKept r t :=
  ⟨k.cfg.trans h.cfg, fun ch => (h.overflow ch).trans (k.overflow ch)⟩

theorem countsKept_of_chans (hcfg : t.cfg = s.cfg) (hchans : t.chans = s.chans) : CountsKept s t :=
  ⟨hcfg, fun ch => (congrArg (fun q => (tableGet Channel.powerOn ch q).overflow) hchans).ge⟩

theorem countsKept_setChan {ch : Nat} {c : Channel} (hc : (s.chan ch).overflow ≤ c.overflow) :
    CountsKept s (s.setChan ch c) := by
  refine ⟨rfl, fun k => ?_⟩
  rw [chan_setChan]
  split_ifs with hk
  · rw [hk]; exact hc
  · exact le_rfl

theorem countsKept_onChannelLevel (ch : Nat) (f : Level → Level) (s : State) :
    CountsKept s (s.onChannelLevel ch f) := countsKept_of_chans (by simp) (by simp)

theorem countsKept_dropRecord (ch : Nat) (s : State) : CountsKept s (s.dropRecord ch) :=
  countsKept_setChan (Nat.le_succ _)

theorem countsKept_storeStatus (ch : Nat) (x : Record) (s : State) :
    CountsKept s (storeStatus ch x s).2 := by
  unfold storeStatus
  split
  · exact .trans (countsKept_setChan (by rfl)) (countsKept_onChannelLevel _ _ _)
  · exact countsKept_dropRecord ch s

theorem countsKept_pushStatusFront (ch : Nat) (x : Record) (s : State) :
    CountsKept s (pushStatusFront ch x s).2 := by
  unfold pushStatusFront
  split
  · exact .trans (countsKept_setChan (by rfl)) (countsKept_onChannelLevel _ _ _)
  · exact countsKept_dropRecord ch s

theorem countsKept_postStatus {ch : Nat} {mask : Half} (h : postStatus ch mask s = some t) :
    CountsKept s t := by
  obtain ⟨x, rest, -, -, hcfg, -, -, -, -, -, -, hchans, -⟩ := postStatus_some h
  exact .trans (countsKept_setChan (by rfl)) (countsKept_of_chans hcfg hchans)

theorem countsKept_finishProgram (u : UnitId) (c : Context) (s : State) :
    CountsKept s (finishProgram u c s).1 :=
  ⟨finishProgram_cfg s u c, fun ch => by
    rw [finishProgram_chan]; exact (countsKept_storeStatus _ _ s).overflow ch⟩

theorem countsKept_channelEndFrom (u : UnitId) (c : Context) (s : State) :
    CountsKept s (channelEndFrom u c s).1 := by
  obtain ⟨-, e⟩ | ⟨-, -, -, e⟩ | ⟨-, -, e⟩ := channelEndFrom_cases s u c <;> rw [e]
  · exact countsKept_of_chans rfl rfl
  · exact countsKept_of_chans rfl rfl
  · exact countsKept_finishProgram u c s

theorem countsKept_channelEndCore {extra : Half} {p : State × Option Bool}
    (h : channelEndCore u extra s = .ok p) : CountsKept s p.1 := by
  obtain ⟨-, e⟩ | ⟨-, e⟩ | ⟨-, e⟩ := channelEndCore_cases s u extra <;> cases h.symm.trans e
  · exact .refl s
  · exact countsKept_channelEndFrom u _ s

theorem countsKept_resume (u : UnitId) (p : State × Option Bool) : CountsKept p.1 (resume u p) := by
  obtain ⟨x, _ | allow⟩ := p
  · exact .refl x
  · exact countsKept_of_chans (enterEngine_cfg x u allow) (enterEngine_chans x u allow)

theorem countsKept_channelEnd {extra : Half} (h : channelEnd u extra s = .ok t) : CountsKept s t := by
  unfold channelEnd at h
  cases e : channelEndCore u extra s with
  | error f => rw [e] at h; cases h
  | ok p =>
    rw [e] at h
    cases h
    exact (countsKept_channelEndCore e).trans (countsKept_resume u p)

theorem countsKept_deviceCall {d : DevCall} (h : deviceCall u d s = .ok t) : CountsKept s t := by
  cases d with
  | signal extra => exact countsKept_channelEnd h
  | readByte =>
    cases h
    have hu := onlyContext_readNextByte u s
    exact countsKept_of_chans hu.cfg hu.chans
  | writeByte b =>
    cases h
    have hu := onlyContext_writeNextByte u b s
    exact countsKept_of_chans hu.cfg hu.chans
  | pushFront ch x =>
    simp only [deviceCall] at h
    split at h
    · cases h
      exact (countsKept_pushStatusFront ch x s).trans (countsKept_of_chans rfl rfl)
    · cases h

theorem countsKept_change (h : Change s t) : CountsKept s t := by
  cases h with
  | emit | stack | inputs | context | clearQueue | level => exact countsKept_of_chans rfl rfl
  | store a b =>
    obtain ⟨-, e⟩ | ⟨-, e⟩ := storeByte_cases s a b <;> rw [e] <;> exact countsKept_of_chans rfl rfl
  | enqueue hq he =>
    obtain ⟨-, rfl⟩ := enqueue_eq_some he
    exact countsKept_of_chans rfl rfl
  | call hd => exact countsKept_deviceCall hd
  | channelEnd he => exact countsKept_channelEndCore he
  | post hp => exact countsKept_postStatus hp
  | records | statusBuffer => exact countsKept_setChan le_rfl

theorem countsKept_changes (h : Changes s t) : CountsKept s t := by
  induction h with
  | refl => exact .refl s
  | tail _ hlast ih => exact ih.trans (countsKept_change hlast)

/-- Settles O14: a step is a run of changes, and none sets the configuration or lowers a count. -/
theorem stepKeepsConfigurationAndOverflow : Obligations.StepKeepsConfigurationAndOverflow :=
  fun _ _ hstep =>
    have hkept := countsKept_changes (changes_of_step hstep)
    ⟨hkept.cfg, hkept.overflow⟩

end Sys2Proof.Machine
end

section
/-! PROOFS. The invariant of control. Between two procedures no engine runs and the state is quiet; every
step leaves the innermost procedure, works on a quiet state and enters at most one engine, last of all
(spec/10_state.md R29, spec/40_engine.md R120, spec/42_pending_start.md R216). -/

namespace Sys2Proof.Machine

/-- The faults that a state of the invariant of control may stop with. -/
def Fault.possibleInOrder : Fault → Prop
  | .deviceContract | .overrideIllegalState | .noEngine => False
  | .signalInsideStart | .callInsidePreCheck | .unreachableUnit | .noSuchChannel => True

/-- The invariant of control in a state in which no engine runs, the `exempt` units aside, whose contexts
are being written. -/
structure State.QuietBut (s : State) (exempt : UnitId → Prop) : Prop where
  noOverride : ∀ u, (unitCfg s.cfg u).hasOverride = false
  idle : ∀ a ∈ s.stack, a.isOverride = false ∧ a.isEngine = false
  visible : ∀ u, ¬exempt u → (s.ctx u).state.visible
  psqOwned : ∀ u, (unitCfg s.cfg u).hasPsq = false → s.psq u = []
  queuedInFlight : ∀ u, ¬exempt u → s.psq u ≠ [] → (s.ctx u).state ≠ .empty

/-- The invariant of control in a state in which no engine runs. -/
abbrev State.Quiet (s : State) : Prop := s.QuietBut nothing

variable {s t : State} {u : UnitId} {exempt : UnitId → Prop}

/-! ### Quiet and orderly states -/

theorem orderly_of_quiet (h : s.Quiet) : s.Orderly where
  noOverride := h.noOverride
  noWalker a ha := (h.idle a ha).1
  oneEngine a ha := (h.idle a (List.mem_of_mem_tail ha)).2
  engineBusy u ticOk rest hs := by
    have hidle := (h.idle (.engine u ticOk) (by simp [hs])).2
    cases hidle
  visible u := h.visible u id
  psqOwned := h.psqOwned
  queuedInFlight u := h.queuedInFlight u id

/-- Where the innermost procedure is left, no engine runs: at most that one was an engine. -/
theorem quiet_of_orderly_cons {a : Activation} {rest : List Activation} (h : s.Orderly)
    (hs : s.stack = a :: rest) : (s.withStack rest).Quiet where
  noOverride := h.noOverride
  idle b hb := ⟨h.noWalker b (by rw [hs]; exact List.mem_cons_of_mem a hb),
    h.oneEngine b (by rw [hs]; exact hb)⟩
  visible u _ := h.visible u
  psqOwned := h.psqOwned
  queuedInFlight u _ := h.queuedInFlight u

theorem quiet_of_orderly_nil (h : s.Orderly) (hs : s.stack = []) : s.Quiet where
  noOverride := h.noOverride
  idle b hb := by rw [hs] at hb; cases hb
  visible u _ := h.visible u
  psqOwned := h.psqOwned
  queuedInFlight u _ := h.queuedInFlight u

theorem quietBut_of_quiet (h : s.Quiet) : s.QuietBut exempt where
  noOverride := h.noOverride
  idle := h.idle
  visible u _ := h.visible u id
  psqOwned := h.psqOwned
  queuedInFlight u _ := h.queuedInFlight u id

/-- The one exempt unit meets the invariant too. -/
theorem quiet_of_quietBut (h : s.QuietBut (· = u)) (hvisible : (s.ctx u).state.visible)
    (hqueued : s.psq u ≠ [] → (s.ctx u).state ≠ .empty) : s.Quiet where
  noOverride := h.noOverride
  idle := h.idle
  visible v _ := by
    by_cases hv : v = u
    · rw [hv]; exact hvisible
    · exact h.visible v hv
  psqOwned := h.psqOwned
  queuedInFlight v _ := by
    by_cases hv : v = u
    · rw [hv]; exact hqueued
    · exact h.queuedInFlight v hv

/-- A procedure that is neither an engine nor a walker is entered. -/
theorem quietBut_push (h : s.QuietBut exempt) {a : Activation}
    (ha : a.isOverride = false ∧ a.isEngine = false) : (s.push a).QuietBut exempt where
  noOverride := h.noOverride
  idle b hb := by
    obtain rfl | hb := List.mem_cons.1 hb
    · exact ha
    · exact h.idle b hb
  visible := h.visible
  psqOwned := h.psqOwned
  queuedInFlight := h.queuedInFlight

theorem quietBut_setCtx (h : s.QuietBut (· = u)) (c : Context) : (s.setCtx u c).QuietBut (· = u) where
  noOverride := h.noOverride
  idle := h.idle
  visible v hv := by rw [ctx_setCtx_other s c hv]; exact h.visible v hv
  psqOwned := h.psqOwned
  queuedInFlight v hv := by rw [ctx_setCtx_other s c hv]; exact h.queuedInFlight v hv

/-- A unit's context is written, and the unit is then seen in flight. -/
theorem quiet_setCtx_inFlight (h : s.QuietBut (· = u)) {c : Context}
    (hc : c.state = .busy ∨ c.state = .channelEndPending) : (s.setCtx u c).Quiet := by
  refine quiet_of_quietBut (quietBut_setCtx h c) ?_ fun _ => ?_ <;> rw [ctx_setCtx_same] <;>
    obtain hc | hc := hc <;> rw [hc]
  · trivial
  · trivial
  · exact nofun
  · exact nofun

/-! ### What the invariant does not look at -/

/-- From `s` to `t` nothing has changed of what the invariant of control speaks of where no engine runs. -/
structure ControlKept (s t : State) : Prop where
  cfg : t.cfg = s.cfg
  state : ∀ u, (t.ctx u).state = (s.ctx u).state
  psq : ∀ u, t.psq u = s.psq u
  stack : t.stack = s.stack

theorem quiet_of_controlKept (h : s.Quiet) (k : ControlKept s t) : t.Quiet where
  noOverride := by rw [k.cfg]; exact h.noOverride
  idle := by rw [k.stack]; exact h.idle
  visible v := by rw [k.state]; exact h.visible v
  psqOwned v := by rw [k.cfg, k.psq]; exact h.psqOwned v
  queuedInFlight v := by rw [k.psq, k.state]; exact h.queuedInFlight v

theorem controlKept_of_fields (hcfg : t.cfg = s.cfg) (hctxs : t.ctxs = s.ctxs) (hpsqs : t.psqs = s.psqs)
    (hstack : t.stack = s.stack) : ControlKept s t where
  cfg := hcfg
  state v := congrArg (fun q => (tableGet Context.powerOn v.key q).state) hctxs
  psq v := congrArg (tableGet [] v.key) hpsqs
  stack := hstack

theorem Kept.control (h : Kept u s t) : ControlKept s t where
  cfg := h.cfg
  state v := by
    by_cases hv : v = u
    · rw [hv]; exact h.state
    · rw [h.ctx v hv]
  psq v := congrArg (tableGet [] v.key) h.psqs
  stack := h.stack

theorem quiet_emit (h : s.Quiet) (o : Output) : (s.emit o).Quiet :=
  quiet_of_controlKept h (controlKept_of_fields rfl rfl rfl rfl)

theorem quiet_answer (h : s.Quiet) (o : XioOutcome) : (s.answer o).Quiet := quiet_emit h _

theorem quiet_withInputs (h : s.Quiet) (i : Inputs) : (s.withInputs i).Quiet :=
  quiet_of_controlKept h (controlKept_of_fields rfl rfl rfl rfl)

theorem quiet_setLvl (h : s.Quiet) (l : Nat) (x : Level) : (s.setLvl l x).Quiet :=
  quiet_of_controlKept h (controlKept_of_fields rfl rfl rfl rfl)

theorem quiet_storeByte (h : s.Quiet) (a : Addr) (b : Byte) : (s.storeByte a b).Quiet := by
  obtain ⟨-, e⟩ | ⟨-, e⟩ := storeByte_cases s a b <;> rw [e]
  · exact quiet_of_controlKept h (controlKept_of_fields rfl rfl rfl rfl)
  · exact h

theorem quiet_postStatus {ch : Nat} {mask : Half} (h : s.Quiet) (hp : postStatus ch mask s = some t) :
    t.Quiet := by
  obtain ⟨-, -, -, -, hcfg, hctxs, hpsqs, hstack, -⟩ := postStatus_some hp
  exact quiet_of_controlKept h (controlKept_of_fields hcfg hctxs hpsqs hstack)

/-- A unit's context is written and its transfer-state stays. -/
theorem quiet_setCtx_sameState (h : s.Quiet) {c : Context} (hc : c.state = (s.ctx u).state) :
    (s.setCtx u c).Quiet := by
  refine quiet_of_quietBut (quietBut_setCtx (quietBut_of_quiet h) c) ?_ ?_ <;>
    rw [ctx_setCtx_same, hc]
  · exact h.visible u id
  · exact h.queuedInFlight u id

theorem quiet_testChannel (h : s.Quiet) (ch : Nat) : (testChannel ch s).Quiet := by
  unfold testChannel
  split
  · exact quiet_answer (quiet_postStatus h ‹_›) _
  · exact quiet_answer h _

/-! ### The engine's entry and the channel end -/

/-- An engine runs for a Busy unit without chain-data, above a quiet state (R120, R124). -/
theorem orderly_push_engine (h : s.Quiet) (hbusy : (s.ctx u).state = .busy)
    (hdc : (s.ctx u).flags.dc = false) (ticOk : Bool) : (s.push (.engine u ticOk)).Orderly where
  noOverride := h.noOverride
  noWalker a ha := by
    obtain rfl | ha := List.mem_cons.1 ha
    · rfl
    · exact (h.idle a ha).1
  oneEngine a ha := (h.idle a ha).2
  engineBusy v t rest hs := by
    cases hs
    exact ⟨hbusy, hdc⟩
  visible v := h.visible v id
  psqOwned := h.psqOwned
  queuedInFlight v := h.queuedInFlight v id

/-- The engine is entered for a unit without chain-data, whatever its transfer-state (R120). -/
theorem orderly_enterEngine (h : s.QuietBut (· = u)) (hdc : (s.ctx u).flags.dc = false) (allow : Bool) :
    (enterEngine u allow s).Orderly := by
  have hctx : (s.setTransfer u .busy).ctx u = { s.ctx u with state := .busy } := ctx_setCtx_same _ _ _
  have hbusy : (s.setTransfer u .busy).Quiet := quiet_setCtx_inFlight h (.inl rfl)
  rw [enterEngine_plain s allow (h.noOverride u)]
  exact orderly_push_engine hbusy (by rw [hctx]) (by rw [hctx]; exact hdc) allow

/-- What a channel end of `u` leaves: a quiet state, or one in which the engine can be entered for `u`. -/
structure EndsQuietly (u : UnitId) (p : State × Option Bool) : Prop where
  others : p.1.QuietBut (· = u)
  ended : p.2 = none → p.1.Quiet
  resumed : ∀ allow, p.2 = some allow → (p.1.ctx u).flags.dc = false

theorem EndsQuietly.orderly_resume {p : State × Option Bool} (h : EndsQuietly u p) :
    (resume u p).Orderly := by
  obtain ⟨x, _ | allow⟩ := p
  · exact orderly_of_quiet (h.ended rfl)
  · exact orderly_enterEngine h.others (h.resumed allow rfl) allow

/-- The end of a program of `u` touches no other unit and gives no queue to a unit that has none (R175,
R176). -/
theorem quietBut_finishProgram (h : s.QuietBut (· = u)) (c : Context) :
    (finishProgram u c s).1.QuietBut (· = u) := by
  have hend := finishProgram_ended s u c
  refine ⟨fun v => ?_, fun a ha => ?_, fun v hv => ?_, fun v hno => ?_, fun v hv => ?_⟩
  · rw [hend.frame.config]; exact h.noOverride v
  · rw [hend.stack] at ha; exact h.idle a ha
  · rw [hend.frame.contexts v hv]; exact h.visible v hv
  · rw [hend.frame.config] at hno
    have hempty := h.psqOwned v hno
    by_cases hv : v = u
    · subst hv
      rw [(hend.idle (.inl hno)).2, hempty]
    · rw [hend.frame.queues v hv, hempty]
  · rw [hend.frame.contexts v hv, hend.frame.queues v hv]; exact h.queuedInFlight v hv

/-- The context is Empty with nothing queued, or a queued start is loaded with every flag clear (R176). -/
theorem endsQuietly_finishProgram (h : s.QuietBut (· = u)) (c : Context) :
    EndsQuietly u (finishProgram u c s) := by
  have hothers := quietBut_finishProgram h c
  obtain ⟨hnone, hnoStart, hctx, hpsqs⟩ | ⟨a, rest, hsome, -, -, hctx, -⟩ :=
    finishProgram_cases s u c
  · have hempty : (finishProgram u c s).1.psq u = [] :=
      (congrArg (tableGet [] u.key) hpsqs).trans (hnoStart.elim (h.psqOwned u) id)
    refine ⟨hothers, fun _ => quiet_of_quietBut hothers ?_ fun hq => absurd hempty hq,
      fun allow e => ?_⟩
    · rw [hctx]; trivial
    · rw [hnone] at e; cases e
  · refine ⟨hothers, fun e => ?_, fun _ _ => by rw [hctx]; rfl⟩
    rw [hsome] at e; cases e

theorem endsQuietly_channelEndFrom (h : s.Quiet) (c : Context) :
    EndsQuietly u (channelEndFrom u c s) := by
  have hothers : s.QuietBut (· = u) := quietBut_of_quiet h
  obtain ⟨-, e⟩ | ⟨-, -, -, e⟩ | ⟨-, -, e⟩ := channelEndFrom_cases s u c <;> rw [e]
  · exact ⟨quietBut_setCtx hothers _, fun _ => quiet_setCtx_inFlight hothers (.inr rfl), nofun⟩
  · exact ⟨quietBut_setCtx hothers _, nofun, fun _ _ => by simp⟩
  · exact endsQuietly_finishProgram hothers c

/-- In a quiet state a channel end never finds a transient transfer-state (R29, R170). -/
theorem channelEndCore_of_quiet (h : s.Quiet) (u : UnitId) (extra : Half) :
    ∃ p, channelEndCore u extra s = .ok p ∧ EndsQuietly u p := by
  obtain ⟨-, e⟩ | ⟨-, e⟩ | ⟨htransient, -⟩ := channelEndCore_cases s u extra
  · exact ⟨_, e, quietBut_of_quiet h, fun _ => h, nofun⟩
  · exact ⟨_, e, endsQuietly_channelEndFrom h _⟩
  · have hvisible := h.visible u id
    obtain hst | hst | hst := htransient <;> rw [hst] at hvisible <;> cases hvisible

theorem orderly_channelEnd (h : s.Quiet) (u : UnitId) (extra : Half) :
    ResultIn State.Orderly Fault.possibleInOrder (channelEnd u extra s) := by
  obtain ⟨p, hp, hends⟩ := channelEndCore_of_quiet h u extra
  unfold channelEnd
  rw [hp]
  exact hends.orderly_resume

theorem orderly_forceEnd (h : s.Quiet) (u : UnitId) (bits : Half) :
    ResultIn State.Orderly Fault.possibleInOrder (forceEnd u bits s) :=
  orderly_channelEnd (quiet_setCtx_sameState (c := stopChaining (s.ctx u)) h rfl) u bits

theorem orderly_programCheckCmd (h : s.Quiet) (u : UnitId) :
    ResultIn State.Orderly Fault.possibleInOrder (programCheckCmd u s) :=
  orderly_forceEnd (quiet_emit (quiet_setCtx_sameState (c := mergeStatus stPchk (s.ctx u)) h rfl) _) u _

theorem orderly_deviceCall (h : s.Quiet) (u : UnitId) (d : DevCall) :
    ResultIn State.Orderly Fault.possibleInOrder (deviceCall u d s) := by
  by_cases hd : ∀ extra, d ≠ .signal extra
  · obtain ⟨t, ht⟩ | hf := deviceCall_cases hd u s
    · rw [ht]; exact orderly_of_quiet (quiet_of_controlKept h (kept_deviceCall hd ht).control)
    · rw [hf]; trivial
  · push Not at hd
    obtain ⟨extra, rfl⟩ := hd
    exact orderly_channelEnd h u extra

/-! ### The descriptors -/

theorem orderly_afterAnswer (h : s.Quiet) (u : UnitId) (st : Half) :
    ResultIn State.Orderly Fault.possibleInOrder (afterAnswer u st s) := by
  have hmerged : (s.setCtx u (mergeStatus st (s.ctx u))).Quiet := quiet_setCtx_sameState h rfl
  unfold afterAnswer
  dsimp only
  split_ifs
  · exact orderly_forceEnd (quiet_emit hmerged _) u _
  · exact orderly_channelEnd (quiet_emit hmerged _) u _
  · exact orderly_of_quiet (quiet_emit (quiet_setCtx_inFlight (quietBut_of_quiet hmerged) (.inr rfl)) _)
  · exact orderly_of_quiet (quiet_emit hmerged _)

/-- An accepted command leaves the engine, and its unit stays as it was seen (R130, R132). -/
theorem controlKept_dispatched (s : State) (u : UnitId) (rest : List Activation) (code : Byte)
    (addr : Addr) (w2 : CommandWord) :
    ControlKept (s.withStack rest) (s.dispatched u rest code addr w2) := by
  obtain ⟨hframe, hctx, hpsqs, hstack, -, -⟩ := dispatched_frame s u rest code addr w2
  refine ⟨hframe.config, fun v => ?_, fun v => congrArg (tableGet [] v.key) hpsqs, hstack⟩
  by_cases hv : v = u
  · rw [hv, hctx]; rfl
  · rw [hframe.contexts v hv]; rfl

theorem orderly_beginCommand {ticOk : Bool} {rest : List Activation} (h : s.Orderly)
    (ha : s.atDescriptor u ticOk rest) (code : Byte) (addr : Addr) (w2 : CommandWord) :
    OutcomeIn State.Orderly Fault.possibleInOrder (beginCommand code addr w2 s) := by
  have hleft := quiet_of_orderly_cons h ha.1
  cases hbad : descriptorBad s.cfg code addr w2 with
  | true =>
    rw [beginCommand_bad ha hbad]
    exact outcomeIn_outcomeOf (orderly_programCheckCmd hleft u)
  | false =>
    rw [beginCommand_dispatches ha hbad]
    refine outcomeIn_outcomeOf ?_
    have hcalled := quiet_of_controlKept hleft (controlKept_dispatched s u rest code addr w2)
    obtain ⟨x, hrun, hx⟩ | hf | hf := startCalls_cases u (takeStart s).1.calls
      (s.dispatched u rest code addr w2)
    · rw [hx]
      exact orderly_afterAnswer (quiet_of_controlKept hcalled hrun.kept.control) u _
    · rw [hf]; trivial
    · rw [hf]; trivial

/-- The list address of the running engine's unit changes (R121, R123). -/
theorem orderly_setListAddr {ticOk : Bool} {rest : List Activation} (h : s.Orderly)
    (hs : s.stack = .engine u ticOk :: rest) (a : Addr) (ticOk' : Bool) :
    ((s.setCtx u { s.ctx u with listAddr := a }).withStack (.engine u ticOk' :: rest)).Orderly := by
  obtain ⟨hbusy, hdc⟩ := h.engineBusy u ticOk rest hs
  have hnext : ((s.withStack rest).setCtx u { s.ctx u with listAddr := a }).Quiet :=
    quiet_setCtx_sameState (quiet_of_orderly_cons h hs) rfl
  exact orderly_push_engine (u := u) hnext (by simpa using hbusy) (by simpa using hdc) ticOk'

theorem orderly_transferInList {ticOk : Bool} {rest : List Activation} (h : s.Orderly)
    (hs : s.stack = .engine u ticOk :: rest) (addr : Addr) :
    OutcomeIn State.Orderly Fault.possibleInOrder (transferInList addr s) := by
  unfold transferInList
  rw [hs]
  cases ticOk with
  | false => exact outcomeIn_outcomeOf (orderly_programCheckCmd (quiet_of_orderly_cons h hs) u)
  | true => exact orderly_setListAddr h hs addr false

/-- The instructions an engine fetches: the first eight constructors of `Instr` (R82). -/
def isDescriptor (i : Instr) : Prop :=
  (commandOperands i).isSome = true ∨ ∃ hi addr w, i = .tic hi addr w

theorem isDescriptor_decodeDescriptor (w1 w2 : Word) : isDescriptor (decodeDescriptor w1 w2) := by
  unfold decodeDescriptor
  dsimp only
  split
  case h_7 => exact .inr ⟨_, _, _, rfl⟩
  all_goals exact .inl rfl

theorem orderly_exec_descriptor {ticOk : Bool} {rest : List Activation} {i : Instr} (h : s.Orderly)
    (ha : s.atDescriptor u ticOk rest) (hi : isDescriptor i) :
    OutcomeIn State.Orderly Fault.possibleInOrder (exec i s) := by
  obtain hi | ⟨hi, addr, w, rfl⟩ := hi
  · obtain ⟨⟨code, addr, w2⟩, hop⟩ := Option.isSome_iff_exists.1 hi
    rw [exec_eq_beginCommand hop]
    exact orderly_beginCommand h ha code addr w2
  · exact orderly_transferInList h ha.1 addr

theorem orderly_fetchStep {ticOk : Bool} {rest : List Activation} (h : s.Orderly)
    (hs : s.stack = .engine u ticOk :: rest) :
    OutcomeIn State.Orderly Fault.possibleInOrder (fetchStep exec u s) := by
  unfold fetchStep
  split
  next =>
    rw [hs]
    exact outcomeIn_outcomeOf (orderly_programCheckCmd (quiet_of_orderly_cons h hs) u)
  next w1 w2 t hf =>
    obtain ⟨-, -, -, -, rfl⟩ := fetchDescriptor_some hf
    have hnext := orderly_setListAddr h hs ((s.ctx u).listAddr + 8) ticOk
    rw [← hs] at hnext
    exact orderly_exec_descriptor hnext ⟨hs, hnext.engineBusy u ticOk rest hs⟩
      (isDescriptor_decodeDescriptor w1 w2)

/-! ### The requests -/

/-- No request is a descriptor (R95, R96). -/
theorem not_isDescriptor_of_decodeRequest {req : Word} {a : Addr} {i : Instr}
    (h : decodeRequest req a = .ok i) : ¬isDescriptor i := by
  unfold decodeRequest at h
  dsimp only at h
  split at h
  · cases h
    split <;> simp [isDescriptor, commandOperands]
  · cases h

/-- A Start is queued only for a unit in flight that has a queue (R211, R216). -/
theorem quiet_enqueue {a : Addr} (h : s.Quiet) (hflight : (s.ctx u).state ≠ .empty)
    (hq : (unitCfg s.cfg u).hasPsq = true) (he : enqueue u a s = some t) : t.Quiet := by
  obtain ⟨-, rfl⟩ := enqueue_eq_some he
  refine ⟨h.noOverride, h.idle, h.visible, fun v hno => ?_, fun v _ => ?_⟩
  · have hv : v ≠ u := by
      rintro rfl
      cases hq.symm.trans hno
    rw [psq_setPsq, if_neg hv]
    exact h.psqOwned v hno
  · rw [psq_setPsq]
    split_ifs with hv
    · rw [hv]; exact fun _ => hflight
    · exact h.queuedInFlight v id

theorem quiet_startInFlight (h : s.Quiet) (hflight : (s.ctx u).state ≠ .empty) (a : Addr)
    (pc : PreCheck) : (startInFlight u a pc s).Quiet := by
  unfold startInFlight
  split
  next hq =>
    simp only [Bool.and_eq_true] at hq
    split
    · exact quiet_answer (quiet_enqueue h hflight hq.1 ‹_›) _
    · exact quiet_answer h _
  next => exact quiet_answer h _

theorem orderly_startProgram (h : s.Quiet) (u : UnitId) (a : Addr) : (startProgram u a s).Orderly := by
  unfold startProgram
  split
  · exact orderly_of_quiet (quiet_answer (quiet_postStatus h ‹_›) _)
  · exact orderly_enterEngine
      (quietBut_push (quietBut_setCtx (quietBut_of_quiet h) _) ⟨rfl, rfl⟩)
      (by simp [freshContext, Context.powerOn, Flags.none]) false

theorem orderly_startUnit (h : s.Quiet) (u : UnitId) (a : Addr) (pc : PreCheck) :
    (startUnit u a pc s).Orderly := by
  unfold startUnit
  split_ifs with hflight
  · exact orderly_of_quiet (quiet_startInFlight h hflight a pc)
  · exact orderly_of_quiet (quiet_answer h _)
  · exact orderly_startProgram h u a

theorem quiet_takePreCheck (h : s.Quiet) : (takePreCheck s).2.Quiet :=
  quiet_of_controlKept h (controlKept_of_fields (by simp) (by simp) (by simp) (by simp))

theorem quiet_takeStop (h : s.Quiet) : (takeStop s).2.Quiet :=
  quiet_of_controlKept h (controlKept_of_fields (by simp) (by simp) (by simp) (by simp))

theorem quiet_takeHalt (h : s.Quiet) : (takeHalt s).2.Quiet :=
  quiet_of_controlKept h (controlKept_of_fields (by simp) (by simp) (by simp) (by simp))

theorem orderly_execSio (h : s.Quiet) (lchan : BitVec 7) (sa : Byte) (a : Addr) :
    OutcomeIn State.Orderly Fault.possibleInOrder (execSio lchan sa a s) :=
  outcomeIn_onUnit (orderly_of_quiet (quiet_answer h _)) fun u => outcomeIn_withPreCheck trivial fun pc =>
    orderly_startUnit (quiet_emit (quiet_takePreCheck h) _) u a pc

theorem orderly_execStpio (h : s.Quiet) (lchan : BitVec 7) (sa : Byte) :
    OutcomeIn State.Orderly Fault.possibleInOrder (execStpio lchan sa s) := by
  refine outcomeIn_onUnit (orderly_of_quiet (quiet_answer h _)) fun u => ?_
  have hstopped : (s.setCtx u (stopChaining (s.ctx u))).Quiet := quiet_setCtx_sameState h rfl
  dsimp only
  split_ifs
  · exact orderly_of_quiet (quiet_answer h _)
  · exact orderly_of_quiet (quietBut_push (quiet_emit (quiet_takeStop hstopped) _) ⟨rfl, rfl⟩)
  · exact orderly_of_quiet (quiet_answer hstopped _)

theorem orderly_haltTerminate (h : s.Quiet) (u : UnitId) :
    ResultIn State.Orderly Fault.possibleInOrder (haltTerminate u s) := by
  obtain ⟨⟨x, resumed⟩, hp, hends⟩ := channelEndCore_of_quiet h u 0
  unfold haltTerminate
  rw [hp]
  cases resumed with
  | none => exact orderly_of_quiet (quiet_testChannel (hends.ended rfl) u.ch)
  | some allow =>
    exact orderly_enterEngine (quietBut_push hends.others ⟨rfl, rfl⟩) (hends.resumed allow rfl) allow

theorem orderly_execHio (h : s.Quiet) (lchan : BitVec 7) (sa : Byte) :
    OutcomeIn State.Orderly Fault.possibleInOrder (execHio lchan sa s) := by
  refine outcomeIn_onUnit (orderly_of_quiet (quiet_answer h _)) fun u => ?_
  have hprepared : (haltPrepare u s).Quiet := quiet_setCtx_sameState (quiet_emit h _) rfl
  dsimp only
  split_ifs
  · exact orderly_of_quiet (quiet_answer h _)
  · exact orderly_of_quiet (quietBut_push (quiet_emit (quiet_takeHalt hprepared) _) ⟨rfl, rfl⟩)
  · exact outcomeIn_outcomeOf (orderly_haltTerminate hprepared u)

theorem orderly_execTio (h : s.Quiet) (lchan : BitVec 7) (sa : Byte) :
    OutcomeIn State.Orderly Fault.possibleInOrder (execTio lchan sa s) :=
  outcomeIn_onUnit (orderly_of_quiet (quiet_answer h _)) fun u =>
    orderly_of_quiet (quiet_testChannel h u.ch)

theorem orderly_execGrio (h : s.Quiet) (lchan : BitVec 7) (sa : Byte) :
    OutcomeIn State.Orderly Fault.possibleInOrder (execGrio lchan sa s) := by
  refine outcomeIn_onUnit (orderly_of_quiet (quiet_answer h _)) fun u => ?_
  split_ifs
  · exact orderly_of_quiet (quiet_answer h _)
  · exact orderly_of_quiet (quiet_testChannel h u.ch)

/-- A unit that is reset is Empty with nothing queued (R268, R269). -/
theorem quiet_clearUnits (h : s.Quiet) (us : List UnitId) : (clearUnits us s).Quiet := by
  obtain ⟨hcfg, -, -, -, hstack, -, hctx, hpsq, -⟩ := clearUnits_all us s
  refine ⟨fun v => ?_, fun a ha => ?_, fun v _ => ?_, fun v hno => ?_, fun v _ hq => ?_⟩
  · rw [hcfg]; exact h.noOverride v
  · rw [hstack] at ha; exact h.idle a ha
  · rw [hctx]
    split_ifs
    · trivial
    · exact h.visible v id
  · rw [hcfg] at hno
    rw [hpsq, h.psqOwned v hno, ite_self]
  · rw [hpsq] at hq
    split_ifs at hq with hcleared
    · exact absurd rfl hq
    · have hnot : v ∉ us := fun hin => hq (h.psqOwned v (by simpa [hin] using hcleared))
      rw [hctx, if_neg hnot]
      exact h.queuedInFlight v id hq

/-- The rest of a reset is of callbacks, records and levels, which the invariant does not look at. -/
theorem quiet_resetChannel (h : s.Quiet) (ch : Nat) : (resetChannel ch s).Quiet :=
  quiet_of_controlKept (quiet_clearUnits h (unitsOfChannel s.cfg ch))
    (controlKept_of_fields (by simp [resetChannel]) (by simp [resetChannel]) (by simp [resetChannel])
      (by simp [resetChannel]))

theorem quiet_resetController (h : s.Quiet) (u : UnitId) : (resetController u s).Quiet :=
  quiet_of_controlKept
    (quiet_clearUnits h (unitsOfController s.cfg u.ch (unitCfg s.cfg u).controller))
    (controlKept_of_fields (by simp [resetController]) (by simp [resetController])
      (by simp [resetController]) (by simp [resetController]))

/-- A level-control operation changes a level alone (R270 to R273). -/
theorem orderly_onLevel (h : s.Quiet) (lev : BitVec 7) {act : Nat → State → State}
    (hact : ∃ x, act lev.toNat s = s.setLvl lev.toNat x) :
    OutcomeIn State.Orderly Fault.possibleInOrder (onLevel lev s act) := by
  obtain ⟨x, hx⟩ := hact
  refine outcomeIn_onLevel (orderly_of_quiet (quiet_answer h _)) fun _ => ?_
  rw [hx]
  exact orderly_of_quiet (quiet_answer (quiet_setLvl h _ _) _)

theorem orderly_exec_request {i : Instr} (h : s.Quiet) (hi : ¬isDescriptor i) :
    OutcomeIn State.Orderly Fault.possibleInOrder (exec i s) := by
  have hanswer : ∀ o, (s.answer o).Orderly := fun o => orderly_of_quiet (quiet_answer h o)
  cases i with
  | inch | invalid | write | read | control | sense | rdbwd => exact absurd (.inl rfl) hi
  | tic => exact absurd (.inr ⟨_, _, _, rfl⟩) hi
  | sio lchan sa a => exact orderly_execSio h lchan sa a
  | tio lchan sa => exact orderly_execTio h lchan sa
  | stpio lchan sa => exact orderly_execStpio h lchan sa
  | rschnl lchan sa =>
    exact outcomeIn_onChannel (hanswer _) fun ch => orderly_of_quiet (quiet_resetChannel h ch)
  | hio lchan sa => exact orderly_execHio h lchan sa
  | grio lchan sa => exact orderly_execGrio h lchan sa
  | rsctl lchan sa =>
    exact outcomeIn_onUnit (hanswer _) fun u => orderly_of_quiet (quiet_resetController h u)
  | eci lev | dci lev | aci lev | daci lev => exact orderly_onLevel h lev ⟨_, rfl⟩
  | unassigned0 | unassigned1 | unassigned9 | unassignedA | unassignedB => exact hanswer _

/-! ### The step -/

theorem quiet_raiseLevel (h : s.Quiet) (l : Nat) : (raiseLevel l s).Quiet := by
  unfold raiseLevel
  split
  · exact quiet_setLvl h _ _
  · exact h

theorem quiet_dispatchLevel (h : s.Quiet) (l : Nat) : (dispatchLevel l s).Quiet := by
  obtain ⟨x, -, hd | ⟨ch, hp⟩⟩ := dispatchLevel_cases l s
  · rw [hd]; exact quiet_setLvl h l x
  · exact quiet_postStatus (quiet_setLvl h l x) hp

theorem quiet_scanLevels (h : s.Quiet) (blocked : Bool) : (scanLevels blocked s).Quiet := by
  unfold scanLevels
  split
  · exact quiet_emit h _
  · split
    · exact quiet_emit (quiet_dispatchLevel h _) _
    · exact quiet_emit h _

theorem orderly_runPortOp (h : s.Quiet) (op : PortOp) :
    OutcomeIn State.Orderly Fault.possibleInOrder (runPortOp exec op s) := by
  cases op with
  | xio req a =>
    unfold runPortOp
    dsimp only
    split
    · exact orderly_exec_request h (not_isDescriptor_of_decodeRequest ‹_›)
    · exact orderly_of_quiet (quiet_answer h _)
  | scan blocked => exact orderly_of_quiet (quiet_scanLevels h blocked)
  | raise l => exact orderly_of_quiet (quiet_raiseLevel h l)
  | device calls => exact orderly_of_quiet (quietBut_push h ⟨rfl, rfl⟩)
  | cpuStore a b => exact orderly_of_quiet (quiet_storeByte h a b)

/-- A callback above a quiet stack makes its next call, or answers (R306, R307). -/
theorem orderly_callbackStep {rest : List Activation} (h : (s.withStack rest).Quiet) (u : UnitId)
    (calls : List DevCall) (answer : XioOutcome) :
    OutcomeIn State.Orderly Fault.possibleInOrder (callbackStep u calls answer rest s) := by
  cases calls with
  | nil => exact orderly_of_quiet (quiet_answer h _)
  | cons d ds =>
    have hnext : (s.withStack (.callback u ds answer :: rest)).Quiet := quietBut_push h ⟨rfl, rfl⟩
    exact outcomeIn_outcomeOf (orderly_deviceCall hnext u d)

/-- A completion above a quiet stack makes its next call, or ends (R310). -/
theorem orderly_completionStep {rest : List Activation} (h : (s.withStack rest).Quiet)
    (calls : List (UnitId × DevCall)) :
    OutcomeIn State.Orderly Fault.possibleInOrder (completionStep calls rest s) := by
  cases calls with
  | nil => exact orderly_of_quiet h
  | cons p calls =>
    have hnext : (s.withStack (.completion calls :: rest)).Quiet := quietBut_push h ⟨rfl, rfl⟩
    unfold completionStep
    dsimp only
    split
    · exact outcomeIn_outcomeOf (orderly_deviceCall hnext _ _)
    · trivial

/-- A step keeps the invariant of control, or stops with a fault that is not one of O13's. -/
theorem orderly_step (h : s.Orderly) : OutcomeIn State.Orderly Fault.possibleInOrder (step s) := by
  unfold step
  split
  · unfold stepWith
    split
    next u ticOk rest hs => exact orderly_fetchStep h hs
    next u acts answer rest hs =>
      have hwalker := h.noWalker (.override u acts answer) (by simp [hs])
      cases hwalker
    next calls rest hs => exact orderly_completionStep (quiet_of_orderly_cons h hs) calls
    next u calls answer rest hs => exact orderly_callbackStep (quiet_of_orderly_cons h hs) u calls answer
    next ch rest hs => exact orderly_of_quiet (quiet_testChannel (quiet_of_orderly_cons h hs) ch)
    next o rest hs => exact orderly_of_quiet (quiet_answer (quiet_of_orderly_cons h hs) o)
    next hs =>
      split
      · exact h
      · exact orderly_runPortOp (quiet_withInputs (quiet_of_orderly_nil h hs) _) _
  · trivial

/-- Settles O12: every state the step leads to is orderly. -/
theorem stepKeepsControl : Obligations.StepKeepsControl := by
  intro s t h hstep
  have hnext := orderly_step h
  rwa [hstep] at hnext

/-- Settles O13: the faults a step can stop with are the others. -/
theorem orderlyStepsKeepTheContract : Obligations.OrderlyStepsKeepTheContract := by
  intro s h
  have hfault : ∀ f, step s = .fault f → f.possibleInOrder := fun f hf => by
    have hstops := orderly_step h
    rwa [hf] at hstops
  exact ⟨hfault _, hfault _, hfault _⟩

end Sys2Proof.Machine
end

section
/-! PROOFS. What a step runs: the descriptor at the list address, the next request, or another port
operation; and the effect of each call of a device (spec/10_state.md R44, spec/45_device_contract.md
R301). -/

namespace Sys2Proof.Machine

variable {s : State} {u : UnitId}

theorem step_engine {ticOk : Bool} {rest : List Activation} (hwf : s.cfg.wf = true)
    (hs : s.stack = .engine u ticOk :: rest) : step s = fetchStep exec u s := by
  simp [step, stepWith, hwf, hs]

theorem fetchDescriptor_of_present (ha : wordAligned (s.ctx u).listAddr = true)
    (hm : memOk s.cfg (s.ctx u).listAddr.toNat 8 = true) :
    fetchDescriptor u s = some (s.readWord (s.ctx u).listAddr.toNat,
      s.readWord ((s.ctx u).listAddr.toNat + 4),
      s.setCtx u { s.ctx u with listAddr := (s.ctx u).listAddr + 8 }) := by
  simp [fetchDescriptor, ha, hm]

/-- Settles O15: the fetch succeeds, and what it fetched is run in the state it leaves. -/
theorem stepRunsTheFetchedDescriptor : Obligations.StepRunsTheFetchedDescriptor := by
  intro s u ticOk rest hwf hs ha hm
  rw [step_engine hwf hs, fetchStep, fetchDescriptor_of_present ha hm]

/-! ### The port operations -/

theorem step_portOp {op : PortOp} {ops : List PortOp} (hwf : s.cfg.wf = true) (hs : s.stack = [])
    (hi : s.inputs.inbox = op :: ops) :
    step s = runPortOp exec op (s.withInputs { s.inputs with inbox := ops }) := by
  simp [step, stepWith, hwf, hs, hi]

theorem step_suspended (hwf : s.cfg.wf = true) (hs : s.stack = []) (hi : s.inputs.inbox = []) :
    step s = .next s := by
  simp [step, stepWith, hwf, hs, hi]

/-- A request is read exactly where its reserved bits are zero (R97). -/
theorem decodeRequest_ok (req : Word) (a : Addr) (h : requestReservedOk req = true) :
    ∃ i, decodeRequest req a = .ok i := by
  unfold decodeRequest
  dsimp only
  rw [if_pos h]
  exact ⟨_, rfl⟩

theorem decodeRequest_reserved (req : Word) (a : Addr) (h : requestReservedOk req = false) :
    decodeRequest req a = .error .reservedRequestBits := by
  unfold decodeRequest
  dsimp only
  rw [if_neg (by rw [h]; exact Bool.false_ne_true)]

theorem runPortOp_reserved {req : Word} (a : Addr) (h : requestReservedOk req = false) (s : State) :
    runPortOp exec (.xio req a) s = .next (s.answer .unsupported) := by
  simp [runPortOp, decodeRequest_reserved req a h, unsupportedRequest]

/-- Settles O16: the decoder rejects a request for its reserved bits alone. -/
theorem stepRunsTheRequest : Obligations.StepRunsTheRequest := by
  intro s req a ops hwf hs hi
  rw [step_portOp hwf hs hi]
  refine ⟨fun i hdecode => ?_, fun hbits => ?_, fun hhigh hlow => ?_⟩
  · simp [runPortOp, hdecode, State.withInputs]
  · have hreserved : requestReservedOk req = false := by
      rw [Bool.eq_false_iff, ne_eq, requestReservedOk_iff]
      omega
    rw [runPortOp_reserved a hreserved]
    rfl
  · exact decodeRequest_ok req a ((requestReservedOk_iff req).2 ⟨hhigh, hlow⟩)

theorem storeByte_present {a : Addr} (b : Byte) (h : a.toNat < s.cfg.memSize) :
    s.storeByte a b = s.writeByte a.toNat b := by
  obtain ⟨-, e⟩ | ⟨habsent, -⟩ := storeByte_cases s a b
  · exact e
  · omega

theorem storeByte_absent {a : Addr} (b : Byte) (h : s.cfg.memSize ≤ a.toNat) :
    s.storeByte a b = s := by
  obtain ⟨hpresent, -⟩ | ⟨-, e⟩ := storeByte_cases s a b
  · omega
  · exact e

/-- At a suspension point the next port operation begins, or nothing changes where there is none. -/
theorem step_at_suspension (s : State) (ops : List PortOp) (hwf : s.cfg.wf = true) (hs : s.stack = []) :
    (s.inputs.inbox = [] → step s = .next s) ∧
    (∀ b, s.inputs.inbox = .scan b :: ops →
      step s = .next (scanLevels b { s with inputs := { s.inputs with inbox := ops } })) ∧
    (∀ l, s.inputs.inbox = .raise l :: ops →
      step s = .next (raiseLevel l { s with inputs := { s.inputs with inbox := ops } })) ∧
    (∀ calls, s.inputs.inbox = .device calls :: ops →
      step s = .next { s with
        inputs := { s.inputs with inbox := ops }, stack := [.completion calls] }) ∧
    (∀ a b, a.toNat < s.cfg.memSize → s.inputs.inbox = .cpuStore a b :: ops →
      step s = .next ({ s with inputs := { s.inputs with inbox := ops } }.writeByte a.toNat b)) ∧
    (∀ a b, s.cfg.memSize ≤ a.toNat → s.inputs.inbox = .cpuStore a b :: ops →
      step s = .next { s with inputs := { s.inputs with inbox := ops } }) := by
  refine ⟨step_suspended hwf hs, fun b hi => step_portOp hwf hs hi, fun l hi => step_portOp hwf hs hi,
    fun calls hi => ?_, fun a b ha hi => ?_, fun a b ha hi => ?_⟩ <;> rw [step_portOp hwf hs hi]
  · simp [runPortOp, State.push, State.withInputs, hs]
  · exact congrArg Host.Outcome.next (storeByte_present (s := s.withInputs _) b ha)
  · exact congrArg Host.Outcome.next (storeByte_absent (s := s.withInputs _) b ha)

/-- Each call of a device is the operation of R301, and its answer leaves the block. -/
theorem deviceCall_effects (s t : State) (u : UnitId) :
    (∀ extra, deviceCall u (.signal extra) s = channelEnd u extra s) ∧
    (∀ answer, readNextByte u s = (answer, t) →
      deviceCall u .readByte s = .ok { t with outputs := .readAnswer u answer :: t.outputs }) ∧
    (∀ b answer, writeNextByte u b s = (answer, t) →
      deviceCall u (.writeByte b) s = .ok { t with outputs := .writeAnswer u answer :: t.outputs }) ∧
    (∀ ch r answer, ch < s.cfg.numChan → pushStatusFront ch r s = (answer, t) →
      deviceCall u (.pushFront ch r) s = .ok { t with outputs := .pushAnswer ch answer :: t.outputs }) ∧
    ∀ ch r, s.cfg.numChan ≤ ch → deviceCall u (.pushFront ch r) s = .error .noSuchChannel := by
  refine ⟨fun _ => rfl, fun answer h => ?_, fun b answer h => ?_, fun ch r answer hch h => ?_,
    fun ch r hch => if_neg (Nat.not_lt.2 hch)⟩
  · simp only [deviceCall, h, State.emit]
  · simp only [deviceCall, h, State.emit]
  · simp only [deviceCall, if_pos hch, h, State.emit]

/-- Settles O17: the port operations at a suspension point, and the calls of a device. -/
theorem stepRunsThePortOperation : Obligations.StepRunsThePortOperation :=
  ⟨step_at_suspension, deviceCall_effects⟩

end Sys2Proof.Machine
end

section
/-! PROOFS. Guest memory: the byte order of a word and the frame of a store (spec/20_memory.md R62, R63,
R68). -/

namespace Sys2Proof.Machine

theorem toNat_readWord (s : State) (a : Nat) :
    (s.readWord a).toNat =
      (s.readByte a).toNat * 2 ^ 24 + (s.readByte (a + 1)).toNat * 2 ^ 16 +
        (s.readByte (a + 2)).toNat * 2 ^ 8 + (s.readByte (a + 3)).toNat := by
  unfold State.readWord
  rw [toNat_append, toNat_append, toNat_append]
  ring

/-- Settles O7: a word is its four bytes put one after another, and each byte of a stored word is a store
of its own. -/
theorem memoryIsBigEndian : Obligations.MemoryIsBigEndian := fun s a =>
  ⟨toNat_readWord s a, fun v k => readByte_writeWord s a k v, fun v k => readByte_writeByte s a k v⟩

end Sys2Proof.Machine
end

section
/-! PROOFS. The entry of the engine to begin a command, and a device's own walker
(spec/40_engine.md R120, R137, spec/45_device_contract.md R305, R311). -/

namespace Sys2Proof.Machine

variable {s : State} {u : UnitId} {answer : EngineOutcome} {rest : List Activation}

/-! ### The entry -/

/-- Asking a device for its walker's run consumes an input and changes nothing else. -/
theorem takeOverride_state (s : State) :
    (takeOverride s).2 = s.withInputs (takeOverride s).2.inputs := by
  unfold takeOverride
  split <;> rfl

theorem enterEngine_override (allow : Bool) (h : (unitCfg s.cfg u).hasOverride = true) :
    enterEngine u allow s =
      ((s.withInputs (takeOverride s).2.inputs).emit (.ioclOverride u (s.ctx u))).push
        (.override u (takeOverride s).1.acts (takeOverride s).1.answer) := by
  rw [enterEngine, if_pos h, ← takeOverride_state s]

/-! ### The walker -/

theorem step_override {acts : List OverrideAct} (hwf : s.cfg.wf = true)
    (hs : s.stack = .override u acts answer :: rest) :
    step s = overrideStep u acts answer rest s := by
  simp [step, stepWith, hwf, hs]

/-- An act of the walker is carried out on the state in which the walker has only its later acts to come. -/
theorem step_overrideAct (act : OverrideAct) (acts : List OverrideAct) (hwf : s.cfg.wf = true)
    (hs : s.stack = .override u (act :: acts) answer :: rest) :
    (∀ c, act = .setContext c →
      step s = .next { s.setCtx u c with stack := .override u acts answer :: rest }) ∧
    (∀ a b, act = .store a b → a.toNat < s.cfg.memSize →
      step s = .next { s.writeByte a.toNat b with stack := .override u acts answer :: rest }) ∧
    (∀ a b, act = .store a b → s.cfg.memSize ≤ a.toNat →
      step s = .next { s with stack := .override u acts answer :: rest }) ∧
    (∀ d, act = .call d →
      step s = outcomeOf (deviceCall u d { s with stack := .override u acts answer :: rest })) := by
  rw [step_override hwf hs]
  refine ⟨?setContext, ?storePresent, ?storeAbsent, ?call⟩
  case setContext => rintro c rfl; rfl
  case storePresent =>
    rintro a b rfl hpresent
    exact congrArg Host.Outcome.next (storeByte_present (s := s.withStack _) b hpresent)
  case storeAbsent =>
    rintro a b rfl habsent
    exact congrArg Host.Outcome.next (storeByte_absent (s := s.withStack _) b habsent)
  case call => rintro d rfl; rfl

/-- The walker's return is judged by the transfer-state it leaves its unit in (R305, R311). -/
theorem step_overrideReturn (hwf : s.cfg.wf = true) (hs : s.stack = .override u [] answer :: rest) :
    ((s.ctx u).state = .busy ∨ (s.ctx u).state = .channelEndPending ∨ (s.ctx u).state = .empty →
      step s = .next { s with stack := rest, outputs := .engineOutcome u answer :: s.outputs }) ∧
    ((s.ctx u).state = .awaitingNext ∨ (s.ctx u).state = .posted ∨ (s.ctx u).state = .done →
      step s = .fault .overrideIllegalState) := by
  rw [step_override hwf hs]
  constructor
  · rintro (h | h | h) <;> simp [overrideStep, h, State.withStack, State.emit]
  · rintro (h | h | h) <;> simp [overrideStep, h]

/-- Settles O34: the entry by whether the device supplies a walker, the walker's step by whether an act is
left. -/
theorem engineEntryAndWalker : Obligations.EngineEntryAndWalker :=
  ⟨fun s _ allow => ⟨enterEngine_plain s allow, enterEngine_override allow⟩,
    fun _ _ act acts _ _ hwf => ⟨step_overrideAct act acts hwf, step_overrideReturn hwf⟩⟩

end Sys2Proof.Machine
end

section
/-! PROOFS. The decoder and the encoder invert each other, and where the fields of every word stand
(spec/30_encoding.md R80 to R87, R91, R95 to R98, R103). -/

namespace Sys2Proof

open Sys2Proof.Machine

/-! ### The fields of a descriptor -/

theorem codeOf_toNat (w1 : Word) : (codeOf w1).toNat = w1.toNat / 2 ^ 24 := by
  rw [codeOf, BitVec.extractLsb'_toNat, Nat.shiftRight_eq_div_pow]
  exact Nat.mod_eq_of_lt (by omega)

theorem addrOf_toNat (w1 : Word) : (addrOf w1).toNat = w1.toNat % 2 ^ 24 := by
  rw [addrOf, BitVec.extractLsb'_toNat, Nat.shiftRight_zero]

theorem decodeCommandWord_count (w2 : Word) :
    (decodeCommandWord w2).count.toNat = w2.toNat % 2 ^ 16 := by
  rw [decodeCommandWord, BitVec.extractLsb'_toNat, Nat.shiftRight_zero]

theorem decodeCommandWord_reserved (w2 : Word) :
    (decodeCommandWord w2).reserved.toNat = w2.toNat / 2 ^ 16 % 2 ^ 11 := by
  rw [decodeCommandWord, BitVec.extractLsb'_toNat, Nat.shiftRight_eq_div_pow]

theorem decodeCommandWord_flags (w2 : Word) :
    (decodeCommandWord w2).flags =
      { dc := decide (w2.toNat / 2 ^ 31 % 2 = 1), cc := decide (w2.toNat / 2 ^ 30 % 2 = 1),
        sli := decide (w2.toNat / 2 ^ 29 % 2 = 1), skip := decide (w2.toNat / 2 ^ 28 % 2 = 1),
        pci := decide (w2.toNat / 2 ^ 27 % 2 = 1) } := by
  simp only [decodeCommandWord, BitVec.getLsbD, Nat.testBit_eq_decide_div_mod_eq]

/-- Settles O3: each field is a bit-field of its word, read as a quotient and a remainder. -/
theorem descriptorFieldPositions : Obligations.DescriptorFieldPositions := fun w1 w2 =>
  ⟨codeOf_toNat w1, addrOf_toNat w1, decodeCommandWord_count w2, decodeCommandWord_reserved w2,
    decodeCommandWord_flags w2⟩

@[simp] theorem codeOf_append (code : Byte) (addr : Addr) :
    codeOf (code ++ addr : BitVec (8 + 24)) = code :=
  BitVec.extractLsb'_append_eq_left

@[simp] theorem addrOf_append (code : Byte) (addr : Addr) :
    addrOf (code ++ addr : BitVec (8 + 24)) = addr :=
  BitVec.extractLsb'_append_eq_right

/-- Word 1 is its code above its address. -/
theorem encodeDescriptor_fields (w1 w2 : Word) :
    encodeDescriptor (codeOf w1) (addrOf w1) w2 = .descriptor w1 w2 := by
  have hw : (codeOf w1 ++ addrOf w1 : BitVec (8 + 24)) = w1 := BitVec.eq_of_toNat_eq <| by
    rw [descriptorWord_toNat, codeOf_toNat, addrOf_toNat]
    exact Nat.div_add_mod' _ _
  rw [encodeDescriptor, hw]

/-- No bit of word 2 is dropped. -/
theorem encodeCommandWord_decode (w2 : Word) : encodeCommandWord (decodeCommandWord w2) = w2 := by
  have bit (n : Nat) : (decide (n % 2 = 1)).toNat = n % 2 := by
    rcases Nat.mod_two_eq_zero_or_one n with h | h <;> simp [h]
  apply BitVec.eq_of_toNat_eq
  rw [encodeCommandWord_toNat, decodeCommandWord_flags, decodeCommandWord_reserved,
    decodeCommandWord_count, bit, bit, bit, bit, bit]
  omega

/-- A bit that a word holds as a number is read back. -/
theorem decide_eq_one_of_eq_toNat {n : Nat} {b : Bool} (h : n = b.toNat) : decide (n = 1) = b := by
  rw [h]
  cases b <;> rfl

/-- No field of word 2 runs into another. -/
@[simp] theorem decodeCommandWord_encode (c : CommandWord) :
    decodeCommandWord (encodeCommandWord c) = c := by
  have hw := encodeCommandWord_toNat c
  generalize encodeCommandWord c = w at hw ⊢
  have hdc := c.flags.dc.toNat_le
  have hcc := c.flags.cc.toNat_le
  have hsli := c.flags.sli.toNat_le
  have hskip := c.flags.skip.toNat_le
  have hpci := c.flags.pci.toNat_le
  have hflags : (decodeCommandWord w).flags = c.flags := by
    rw [decodeCommandWord_flags]
    change _ = Flags.mk c.flags.dc c.flags.cc c.flags.sli c.flags.skip c.flags.pci
    congr 1 <;> exact decide_eq_one_of_eq_toNat (by omega)
  have hreserved : (decodeCommandWord w).reserved = c.reserved := BitVec.eq_of_toNat_eq <| by
    rw [decodeCommandWord_reserved]
    omega
  have hcount : (decodeCommandWord w).count = c.count := BitVec.eq_of_toNat_eq <| by
    rw [decodeCommandWord_count]
    omega
  calc decodeCommandWord w
    _ = ⟨(decodeCommandWord w).flags, (decodeCommandWord w).reserved, (decodeCommandWord w).count⟩ := rfl
    _ = c := by rw [hflags, hreserved, hcount]

/-! ### The command codes -/

/-- A code whose low bits are `low` is its high bits above them. -/
theorem exists_append_of_low {n m : Nat} (c : BitVec (n + m)) (low : BitVec m)
    (h : c.toNat % 2 ^ m = low.toNat) : ∃ high : BitVec n, c = high ++ low := by
  refine ⟨c.extractLsb' m n, BitVec.eq_of_toNat_eq ?_⟩
  have hhigh : c.toNat / 2 ^ m < 2 ^ n := Nat.div_lt_of_lt_mul (by
    rw [← Nat.pow_add, Nat.add_comm m n]
    exact c.isLt)
  rw [toNat_append, BitVec.extractLsb'_toNat, Nat.shiftRight_eq_div_pow, Nat.mod_eq_of_lt hhigh, ← h,
    Nat.div_add_mod']

/-- Every command code has one of the eight shapes of the class table (R82). -/
theorem commandCode_cases (c : Byte) :
    c = 0x00 ∨ (∃ hi : BitVec 4, hi ≠ 0 ∧ c = (hi ++ 0x0#4 : BitVec (4 + 4))) ∨
      (∃ m : BitVec 6, c = (m ++ 0b01#2 : BitVec (6 + 2))) ∨
      (∃ m : BitVec 6, c = (m ++ 0b10#2 : BitVec (6 + 2))) ∨
      (∃ m : BitVec 6, c = (m ++ 0b11#2 : BitVec (6 + 2))) ∨
      (∃ m : BitVec 4, c = (m ++ 0x4#4 : BitVec (4 + 4))) ∨
      (∃ hi : BitVec 4, c = (hi ++ 0x8#4 : BitVec (4 + 4))) ∨
      ∃ m : BitVec 4, c = (m ++ 0xC#4 : BitVec (4 + 4)) := by
  have hlow : c.toNat % 16 = 0 ∨ c.toNat % 4 = 1 ∨ c.toNat % 4 = 2 ∨ c.toNat % 4 = 3 ∨
      c.toNat % 16 = 4 ∨ c.toNat % 16 = 8 ∨ c.toNat % 16 = 12 := by omega
  rcases hlow with h | h | h | h | h | h | h
  · obtain ⟨hi, rfl⟩ := exists_append_of_low (n := 4) (m := 4) c 0x0#4 h
    by_cases hz : hi = 0
    · exact .inl (by rw [hz]; rfl)
    · exact .inr (.inl ⟨hi, hz, rfl⟩)
  · exact .inr (.inr (.inl (exists_append_of_low (n := 6) (m := 2) c 0b01#2 h)))
  · exact .inr (.inr (.inr (.inl (exists_append_of_low (n := 6) (m := 2) c 0b10#2 h))))
  · exact .inr (.inr (.inr (.inr (.inl (exists_append_of_low (n := 6) (m := 2) c 0b11#2 h)))))
  · exact .inr (.inr (.inr (.inr (.inr (.inl (exists_append_of_low (n := 4) (m := 4) c 0x4#4 h))))))
  · exact .inr (.inr (.inr (.inr (.inr (.inr (.inl
      (exists_append_of_low (n := 4) (m := 4) c 0x8#4 h)))))))
  · exact .inr (.inr (.inr (.inr (.inr (.inr (.inr
      (exists_append_of_low (n := 4) (m := 4) c 0xC#4 h)))))))

theorem classOf_inch : classOf 0x00 = .inch := rfl

theorem classOf_invalid {hi : BitVec 4} (h : hi ≠ 0) :
    classOf (hi ++ 0x0#4 : BitVec (4 + 4)) = .invalid := by
  revert hi
  decide

theorem classOf_write (m : BitVec 6) : classOf (m ++ 0b01#2 : BitVec (6 + 2)) = .write := by
  revert m
  decide

theorem classOf_read (m : BitVec 6) : classOf (m ++ 0b10#2 : BitVec (6 + 2)) = .read := by
  revert m
  decide

theorem classOf_control (m : BitVec 6) : classOf (m ++ 0b11#2 : BitVec (6 + 2)) = .control := by
  revert m
  decide

theorem classOf_sense (m : BitVec 4) : classOf (m ++ 0x4#4 : BitVec (4 + 4)) = .sense := by
  revert m
  decide

theorem classOf_tic (hi : BitVec 4) : classOf (hi ++ 0x8#4 : BitVec (4 + 4)) = .tic := by
  revert hi
  decide

theorem classOf_rdbwd (m : BitVec 4) : classOf (m ++ 0xC#4 : BitVec (4 + 4)) = .rdbwd := by
  revert m
  decide

theorem isTransfer_iff (c : Byte) : isTransfer c = true ↔
    classOf c = .write ∨ classOf c = .read ∨ classOf c = .sense ∨ classOf c = .rdbwd := by
  unfold isTransfer
  cases classOf c <;> simp

/-- Settles O4, shape by shape. -/
theorem commandCodeClasses : Obligations.CommandCodeClasses := by
  intro c
  refine ⟨?_, isTransfer_iff c⟩
  obtain rfl | ⟨hi, hne, rfl⟩ | ⟨m, rfl⟩ | ⟨m, rfl⟩ | ⟨m, rfl⟩ | ⟨m, rfl⟩ | ⟨hi, rfl⟩ | ⟨m, rfl⟩ :=
    commandCode_cases c
  · rfl
  · have hpos : hi.toNat ≠ 0 := fun h => hne (BitVec.eq_of_toNat_eq h)
    have hcode : (hi ++ 0x0#4 : BitVec (4 + 4)).toNat = hi.toNat * 16 + 0 := toNat_append hi _
    rw [classOf_invalid hne, hcode, if_neg, if_neg, if_neg, if_neg, if_pos] <;> omega
  · have hcode : (m ++ 0b01#2 : BitVec (6 + 2)).toNat = m.toNat * 4 + 1 := toNat_append m _
    rw [classOf_write, hcode, if_neg, if_pos] <;> omega
  · have hcode : (m ++ 0b10#2 : BitVec (6 + 2)).toNat = m.toNat * 4 + 2 := toNat_append m _
    rw [classOf_read, hcode, if_neg, if_neg, if_pos] <;> omega
  · have hcode : (m ++ 0b11#2 : BitVec (6 + 2)).toNat = m.toNat * 4 + 3 := toNat_append m _
    rw [classOf_control, hcode, if_neg, if_neg, if_neg, if_pos] <;> omega
  · have hcode : (m ++ 0x4#4 : BitVec (4 + 4)).toNat = m.toNat * 16 + 4 := toNat_append m _
    rw [classOf_sense, hcode, if_neg, if_neg, if_neg, if_neg, if_neg, if_pos] <;> omega
  · have hcode : (hi ++ 0x8#4 : BitVec (4 + 4)).toNat = hi.toNat * 16 + 8 := toNat_append hi _
    rw [classOf_tic, hcode, if_neg, if_neg, if_neg, if_neg, if_neg, if_neg, if_pos] <;> omega
  · have hcode : (m ++ 0xC#4 : BitVec (4 + 4)).toNat = m.toNat * 16 + 12 := toNat_append m _
    rw [classOf_rdbwd, hcode, if_neg, if_neg, if_neg, if_neg, if_neg, if_neg, if_neg] <;> omega

/-! ### The descriptors -/

section Descriptor

variable {w1 : Word} (w2 : Word)

theorem decodeDescriptor_inch (h : codeOf w1 = 0x00) :
    decodeDescriptor w1 w2 = .inch (addrOf w1) (decodeCommandWord w2) := by
  simp only [decodeDescriptor, h, classOf_inch]

theorem decodeDescriptor_invalid {hi : BitVec 4} (hne : hi ≠ 0)
    (h : codeOf w1 = (hi ++ 0x0#4 : BitVec (4 + 4))) :
    decodeDescriptor w1 w2 = .invalid hi (addrOf w1) (decodeCommandWord w2) := by
  simp only [decodeDescriptor, h, classOf_invalid hne, BitVec.extractLsb'_append_eq_left]

theorem decodeDescriptor_write {m : BitVec 6} (h : codeOf w1 = (m ++ 0b01#2 : BitVec (6 + 2))) :
    decodeDescriptor w1 w2 = .write m (addrOf w1) (decodeCommandWord w2) := by
  simp only [decodeDescriptor, h, classOf_write, BitVec.extractLsb'_append_eq_left]

theorem decodeDescriptor_read {m : BitVec 6} (h : codeOf w1 = (m ++ 0b10#2 : BitVec (6 + 2))) :
    decodeDescriptor w1 w2 = .read m (addrOf w1) (decodeCommandWord w2) := by
  simp only [decodeDescriptor, h, classOf_read, BitVec.extractLsb'_append_eq_left]

theorem decodeDescriptor_control {m : BitVec 6} (h : codeOf w1 = (m ++ 0b11#2 : BitVec (6 + 2))) :
    decodeDescriptor w1 w2 = .control m (addrOf w1) (decodeCommandWord w2) := by
  simp only [decodeDescriptor, h, classOf_control, BitVec.extractLsb'_append_eq_left]

theorem decodeDescriptor_sense {m : BitVec 4} (h : codeOf w1 = (m ++ 0x4#4 : BitVec (4 + 4))) :
    decodeDescriptor w1 w2 = .sense m (addrOf w1) (decodeCommandWord w2) := by
  simp only [decodeDescriptor, h, classOf_sense, BitVec.extractLsb'_append_eq_left]

theorem decodeDescriptor_tic {hi : BitVec 4} (h : codeOf w1 = (hi ++ 0x8#4 : BitVec (4 + 4))) :
    decodeDescriptor w1 w2 = .tic hi (addrOf w1) w2 := by
  simp only [decodeDescriptor, h, classOf_tic, BitVec.extractLsb'_append_eq_left]

theorem decodeDescriptor_rdbwd {m : BitVec 4} (h : codeOf w1 = (m ++ 0xC#4 : BitVec (4 + 4))) :
    decodeDescriptor w1 w2 = .rdbwd m (addrOf w1) (decodeCommandWord w2) := by
  simp only [decodeDescriptor, h, classOf_rdbwd, BitVec.extractLsb'_append_eq_left]

end Descriptor

/-- The encoder writes back the two words of a descriptor, whatever the shape of its code. -/
theorem encode_decodeDescriptor (w1 w2 : Word) :
    (decodeDescriptor w1 w2).wellFormed = true ∧
      encode (decodeDescriptor w1 w2) = .descriptor w1 w2 := by
  have hcommand {code : Byte} (h : codeOf w1 = code) :
      encodeDescriptor code (addrOf w1) (encodeCommandWord (decodeCommandWord w2)) =
        .descriptor w1 w2 := by
    rw [← h, encodeCommandWord_decode, encodeDescriptor_fields]
  obtain h | ⟨hi, hne, h⟩ | ⟨m, h⟩ | ⟨m, h⟩ | ⟨m, h⟩ | ⟨m, h⟩ | ⟨hi, h⟩ | ⟨m, h⟩ :=
    commandCode_cases (codeOf w1)
  · rw [decodeDescriptor_inch w2 h]
    exact ⟨rfl, hcommand h⟩
  · rw [decodeDescriptor_invalid w2 hne h]
    exact ⟨bne_iff_ne.2 hne, hcommand h⟩
  · rw [decodeDescriptor_write w2 h]
    exact ⟨rfl, hcommand h⟩
  · rw [decodeDescriptor_read w2 h]
    exact ⟨rfl, hcommand h⟩
  · rw [decodeDescriptor_control w2 h]
    exact ⟨rfl, hcommand h⟩
  · rw [decodeDescriptor_sense w2 h]
    exact ⟨rfl, hcommand h⟩
  · rw [decodeDescriptor_tic w2 h, encode, ← h]
    exact ⟨rfl, encodeDescriptor_fields w1 w2⟩
  · rw [decodeDescriptor_rdbwd w2 h]
    exact ⟨rfl, hcommand h⟩

/-- The decoder reads a descriptor from the words of its encoding. -/
theorem decode_encodeDescriptor (code : Byte) (addr : Addr) (w2 : Word) :
    decode (encodeDescriptor code addr w2) =
      .ok (decodeDescriptor (code ++ addr : BitVec (8 + 24)) w2) := rfl

/-- Where a command code decides the constructor, the decoder reads that instruction from its encoding. -/
theorem decode_encodeCommand {code : Byte} {make : Addr → CommandWord → Instr} {addr : Addr}
    {c : CommandWord} (hmake : ∀ w1 w2 : Word, codeOf w1 = code →
      decodeDescriptor w1 w2 = make (addrOf w1) (decodeCommandWord w2)) :
    decode (encodeDescriptor code addr (encodeCommandWord c)) = .ok (make addr c) := by
  rw [decode_encodeDescriptor, hmake _ _ (codeOf_append code addr), addrOf_append, decodeCommandWord_encode]

/-! ### The requests -/

/-- The instruction of a request with reserved bits zero, by its fields (R95, R96). -/
def requestOf (fn : BitVec 4) (lchan : BitVec 7) (sa : Byte) (listAddr : Addr) : Instr :=
  match fn.toNat with
  | 0x0 => .unassigned0 lchan sa
  | 0x1 => .unassigned1 lchan sa
  | 0x2 => .sio lchan sa listAddr
  | 0x3 => .tio lchan sa
  | 0x4 => .stpio lchan sa
  | 0x5 => .rschnl lchan sa
  | 0x6 => .hio lchan sa
  | 0x7 => .grio lchan sa
  | 0x8 => .rsctl lchan sa
  | 0x9 => .unassigned9 lchan sa
  | 0xA => .unassignedA lchan sa
  | 0xB => .unassignedB lchan sa
  | 0xC => .eci lchan sa
  | 0xD => .dci lchan sa
  | 0xE => .aci lchan sa
  | _ => .daci lchan sa

theorem decodeRequest_eq {req : Word} (a : Addr) (h : requestReservedOk req = true) :
    decodeRequest req a =
      .ok (requestOf (req.extractLsb' 16 4) (req.extractLsb' 8 7) (req.extractLsb' 0 8) a) :=
  if_pos h

theorem decode_encodeRequest (fn : BitVec 4) (lchan : BitVec 7) (sa : Byte) (a : Addr) :
    decode (encodeRequest fn lchan sa a) = .ok (requestOf fn lchan sa a) := by
  have hw := requestWord_toNat fn lchan sa
  rw [encodeRequest]
  generalize (0#12 ++ fn ++ 0#1 ++ lchan ++ sa : BitVec (12 + 4 + 1 + 7 + 8)) = req at hw ⊢
  have hreserved : requestReservedOk req = true := (requestReservedOk_iff req).2 (by omega)
  have hfn : req.extractLsb' 16 4 = fn := BitVec.eq_of_toNat_eq <| by
    rw [BitVec.extractLsb'_toNat, Nat.shiftRight_eq_div_pow]
    omega
  have hlchan : req.extractLsb' 8 7 = lchan := BitVec.eq_of_toNat_eq <| by
    rw [BitVec.extractLsb'_toNat, Nat.shiftRight_eq_div_pow]
    omega
  have hsa : req.extractLsb' 0 8 = sa := BitVec.eq_of_toNat_eq <| by
    rw [BitVec.extractLsb'_toNat, Nat.shiftRight_eq_div_pow]
    omega
  rw [decode, decodeRequest_eq a hreserved, hfn, hlchan, hsa]

/-- A request word whose reserved bits are zero is its three fields. -/
theorem encodeRequest_fields {req : Word} (a : Addr) (h : requestReservedOk req = true) :
    encodeRequest (req.extractLsb' 16 4) (req.extractLsb' 8 7) (req.extractLsb' 0 8) a =
      .request req a := by
  obtain ⟨hhigh, hbit⟩ := (requestReservedOk_iff req).1 h
  rw [encodeRequest, Encoded.request.injEq]
  refine ⟨BitVec.eq_of_toNat_eq ?_, rfl⟩
  rw [requestWord_toNat, BitVec.extractLsb'_toNat, BitVec.extractLsb'_toNat, BitVec.extractLsb'_toNat,
    Nat.shiftRight_eq_div_pow, Nat.shiftRight_eq_div_pow, Nat.shiftRight_eq_div_pow]
  omega

/-- The encoder writes the fields of a request back; the start address is that of Start, and zero beside
any other function code (R97). -/
theorem encode_requestOf (fn : BitVec 4) (lchan : BitVec 7) (sa : Byte) (a : Addr) :
    encode (requestOf fn lchan sa a) = encodeRequest fn lchan sa (if fn = 0x2 then a else 0) := by
  have hlt := fn.isLt
  obtain ⟨n, hn⟩ : ∃ n, n = fn.toNat := ⟨_, rfl⟩
  have hfn : fn = BitVec.ofNat 4 n := BitVec.eq_of_toNat_eq (by simp [hn])
  rw [← hn] at hlt
  subst hfn
  interval_cases n <;> rfl

theorem eq_start_of_requestOf {fn : BitVec 4} {lchan l : BitVec 7} {sa x : Byte} {a y : Addr}
    (h : requestOf fn lchan sa a = .sio l x y) : fn = 0x2 := by
  unfold requestOf at h
  split at h
  case h_3 hfn => exact BitVec.eq_of_toNat_eq hfn
  all_goals cases h

/-! ### Both directions -/

/-- Settles O1: a descriptor by the shape of its command code, a request by its function code. -/
theorem decodeInvertsEncode : Obligations.DecodeInvertsEncode := by
  intro i hwf
  cases i with
  | inch addr w2 => exact decode_encodeCommand fun _ w => decodeDescriptor_inch w
  | invalid hi addr w2 =>
    exact decode_encodeCommand fun _ w => decodeDescriptor_invalid w (bne_iff_ne.1 hwf)
  | write m addr w2 => exact decode_encodeCommand fun _ w => decodeDescriptor_write w
  | read m addr w2 => exact decode_encodeCommand fun _ w => decodeDescriptor_read w
  | control m addr w2 => exact decode_encodeCommand fun _ w => decodeDescriptor_control w
  | sense m addr w2 => exact decode_encodeCommand fun _ w => decodeDescriptor_sense w
  | tic hi addr w2 =>
    rw [encode, decode_encodeDescriptor, decodeDescriptor_tic _ (codeOf_append _ _), addrOf_append]
  | rdbwd m addr w2 => exact decode_encodeCommand fun _ w => decodeDescriptor_rdbwd w
  | sio lchan sa a => exact decode_encodeRequest 0x2 lchan sa a
  | tio lchan sa => exact decode_encodeRequest 0x3 lchan sa 0
  | stpio lchan sa => exact decode_encodeRequest 0x4 lchan sa 0
  | rschnl lchan sa => exact decode_encodeRequest 0x5 lchan sa 0
  | hio lchan sa => exact decode_encodeRequest 0x6 lchan sa 0
  | grio lchan sa => exact decode_encodeRequest 0x7 lchan sa 0
  | rsctl lchan sa => exact decode_encodeRequest 0x8 lchan sa 0
  | eci lev ignored => exact decode_encodeRequest 0xC lev ignored 0
  | dci lev ignored => exact decode_encodeRequest 0xD lev ignored 0
  | aci lev ignored => exact decode_encodeRequest 0xE lev ignored 0
  | daci lev ignored => exact decode_encodeRequest 0xF lev ignored 0
  | unassigned0 lchan sa => exact decode_encodeRequest 0x0 lchan sa 0
  | unassigned1 lchan sa => exact decode_encodeRequest 0x1 lchan sa 0
  | unassigned9 lchan sa => exact decode_encodeRequest 0x9 lchan sa 0
  | unassignedA lchan sa => exact decode_encodeRequest 0xA lchan sa 0
  | unassignedB lchan sa => exact decode_encodeRequest 0xB lchan sa 0

/-- A request that decodes has its reserved bits zero, so its three fields are the whole of it. -/
theorem encode_decodeRequest {req : Word} {a : Addr} {i : Instr} (h : decodeRequest req a = .ok i) :
    ∃ b, encode i = .request req b ∧ ∀ lchan sa x, i = .sio lchan sa x → b = a := by
  have hreserved : requestReservedOk req = true := by
    by_contra hno
    rw [decodeRequest_reserved req a (Bool.eq_false_of_not_eq_true hno)] at h
    cases h
  rw [decodeRequest_eq a hreserved, Except.ok.injEq] at h
  refine ⟨if req.extractLsb' 16 4 = 0x2 then a else 0, ?_, fun lchan sa x hsio => ?_⟩
  · rw [← h, encode_requestOf, encodeRequest_fields _ hreserved]
  · exact if_pos (eq_start_of_requestOf (h.trans hsio))

/-- Settles O2: a descriptor by the shape of its command code, a request by its three fields. -/
theorem encodeInvertsDecode : Obligations.EncodeInvertsDecode :=
  ⟨encode_decodeDescriptor, fun _ _ _ => encode_decodeRequest⟩

/-- Settles O5: the decoder evaluated at each word. -/
theorem wordsOfTheSpecDecode : Obligations.WordsOfTheSpecDecode :=
  ⟨rfl, rfl, rfl, rfl, rfl, rfl⟩

/-! ### The results -/

theorem outcomeCode_injective : Function.Injective outcomeCode := by
  intro x y
  cases x <;> cases y <;> decide

/-- Settles O6: the words of a record are appended halves, the rest is evaluated. -/
theorem resultEncodings : Obligations.ResultEncodings :=
  ⟨rfl, fun _ _ h => outcomeCode_injective h, rfl, rfl,
    fun u c => ⟨toNat_append u.sa c.listAddr, toNat_append c.status c.count⟩⟩

end Sys2Proof
end

section
/-! PROOFS. What a successful post does to the slot, the channel and its level (spec/41_status_posting.md
R180, spec/43_arbitration.md R232). -/

namespace Sys2Proof.Machine

variable {s t : State} {ch : Nat} {mask : Half}

theorem slotUsable_iff (cfg : Config) (c : Channel) : slotUsable cfg c = true ↔
    c.inchValid = true ∧ c.inchCur.toNat % 4 = 0 ∧ c.inchCur.toNat + 8 ≤ cfg.memSize := by
  rw [slotUsable, Bool.and_eq_true, Bool.and_eq_true, wordAligned_iff, memOk, decide_eq_true_eq, and_assoc]

/-- A mask over the status is a mask over the upper half of word 2 (R87). -/
theorem maskStatus_eq (mask : Half) (w2 : Word) :
    maskStatus mask w2 = w2 &&& ~~~(mask.setWidth 32 <<< 16) := by
  have hmask : (mask ++ 0#16 : BitVec (16 + 16)) = mask.setWidth 32 <<< 16 := BitVec.eq_of_toNat_eq <| by
    rw [toNat_append, BitVec.toNat_shiftLeft, BitVec.toNat_setWidth, Nat.shiftLeft_eq]
    have hlt := mask.isLt
    simp
    omega
  rw [maskStatus, hmask]

theorem postStatus_isSome {r : Record} {q : List Record} (hfifo : (s.chan ch).fifo = r :: q)
    (hslot : slotUsable s.cfg (s.chan ch) = true) : ∃ t, postStatus ch mask s = some t := by
  rw [← Option.ne_none_iff_exists', ne_eq, postStatus_none, hfifo, hslot]
  simp

/-- Memory after two words stored one behind the other: both read back, and no other byte changes. -/
theorem readWord_of_twoWords {a : Nat} {v w : Word}
    (hmem : t.mem = ((s.writeWord a v).writeWord (a + 4) w).mem) :
    t.readWord a = v ∧ t.readWord (a + 4) = w ∧
      ∀ k, ¬(a ≤ k ∧ k < a + 8) → t.readByte k = s.readByte k := by
  have hbyte (k : Nat) : t.readByte k = ((s.writeWord a v).writeWord (a + 4) w).readByte k :=
    congrArg (tableGet 0 k) hmem
  have hword (k : Nat) : t.readWord k = ((s.writeWord a v).writeWord (a + 4) w).readWord k := by
    simp only [State.readWord, hbyte]
  refine ⟨?first, ?second, fun k hk => ?outside⟩
  case first => rw [hword, readWord_writeWord_outside _ _ (by omega), readWord_writeWord_same]
  case second => rw [hword, readWord_writeWord_same]
  case outside =>
    rw [hbyte, readByte_writeWord_outside _ _ (by omega), readByte_writeWord_outside _ _ (by omega)]

/-- Settles O42: the effects of a successful post, read off one by one. -/
theorem postWritesTheSlot : Obligations.PostWritesTheSlot := by
  intro s ch mask r q hfifo hvalid haligned hpresent
  have hslot := (slotUsable_iff s.cfg (s.chan ch)).2 ⟨hvalid, haligned, hpresent⟩
  obtain ⟨t, ht⟩ := postStatus_isSome (mask := mask) hfifo hslot
  obtain ⟨r', q', hfifo', -, hcfg, hctxs, hpsqs, hstack, hinputs, houtputs, hmem, hchans, hlvl⟩ :=
    postStatus_some ht
  obtain ⟨rfl, rfl⟩ : r = r' ∧ q = q' := List.cons.inj (hfifo.symm.trans hfifo')
  obtain ⟨hfirst, hsecond, houtside⟩ := readWord_of_twoWords hmem
  have hchan (k : Nat) : t.chan k =
      if k = ch then { s.chan ch with fifo := q, inchCur := nextSlot (s.chan ch) } else s.chan k :=
    (congrArg (tableGet Channel.powerOn k) hchans).trans (chan_setChan s ch k _)
  have hlevel (l : Nat) : t.lvl l =
      if channelOwns s.cfg ch l = true ∧ q = [] then { s.lvl l with requested := false }
      else s.lvl l := by
    rw [hlvl]
    simp [withdrawRequest, and_comm]
  have hframe : s.Frame t (fun a => (s.chan ch).inchCur.toNat ≤ a ∧ a < (s.chan ch).inchCur.toNat + 8)
      nothing nothing (· = ch) (channelOwns s.cfg ch · = true) :=
    { config := hcfg
      memory := houtside
      contexts := fun u _ => congrArg (tableGet Context.powerOn u.key) hctxs
      queues := fun u _ => congrArg (tableGet [] u.key) hpsqs
      channels := fun k hk => (hchan k).trans (if_neg hk)
      levels := fun l hl => (hlevel l).trans (if_neg fun h => hl h.1) }
  exact ⟨t, ht, hfirst, hsecond.trans (maskStatus_eq mask r.w2), (hchan ch).trans (if_pos rfl), hlevel,
    hframe, hstack, hinputs, houtputs⟩

end Sys2Proof.Machine
end

section
/-! PROOFS. Which descriptors are program checks, and the ends of a program that a program check makes: a
fetch that fails, a rejected descriptor, an INVALID code, a second Transfer-In-List
(spec/40_engine.md R121 to R129, R139, R140, R162). -/

namespace Sys2Proof.Machine

variable {s : State} {u : UnitId} {ticOk : Bool} {rest : List Activation}

/-! ### The checks of a descriptor -/

theorem memOk_iff (cfg : Config) (a n : Nat) : memOk cfg a n = true ↔ a + n ≤ cfg.memSize :=
  decide_eq_true_iff

theorem memOk_eq_false (cfg : Config) (a n : Nat) : memOk cfg a n = false ↔ cfg.memSize < a + n := by
  rw [Bool.eq_false_iff, ne_eq, memOk_iff, Nat.not_le]

/-- The operand check of an INCH in arithmetic terms (R129). -/
theorem inchOperandBad_iff (cfg : Config) (addr : Addr) (count : Half) :
    inchOperandBad cfg addr count = true ↔
      addr.toNat % 4 ≠ 0 ∨ count.toNat < 8 ∨ cfg.memSize < addr.toNat + 8 * (count.toNat / 8) := by
  have haligned : wordAligned addr = false ↔ addr.toNat % 4 ≠ 0 := by
    rw [Bool.eq_false_iff, ne_eq, wordAligned_iff]
  simp only [inchOperandBad, Bool.or_eq_true, Bool.not_eq_true', haligned, decide_eq_true_iff,
    memOk_eq_false, inchBytes, or_assoc]

/-- Settles O21: each check of `descriptorBad` is one of the disjuncts. -/
theorem descriptorProgramChecks : Obligations.DescriptorProgramChecks := by
  intro cfg c addr w2
  simp only [descriptorBad, Bool.or_eq_true, Bool.and_eq_true, bne_iff_ne, beq_iff_eq,
    Bool.not_eq_true', inchOperandBad_iff, or_assoc]

/-! ### The ends a program check makes -/

theorem fetchDescriptor_none (h : ¬s.fetchable (s.ctx u).listAddr) : fetchDescriptor u s = none := by
  rw [fetchable_iff] at h
  exact if_neg h

/-- Settles O18: the step is a program check at the unchanged list address. -/
theorem fetchFailureEndsTheProgram : Obligations.FetchFailureEndsTheProgram := by
  intro s u ticOk rest hwf hs hbusy hfail
  have habsent : ¬s.fetchable (s.ctx u).listAddr := by
    rintro ⟨haligned, hpresent⟩
    omega
  have hstep : step s = outcomeOf (programCheckCmd u (s.withStack rest)) := by
    rw [step_engine hwf hs, fetchStep, fetchDescriptor_none habsent, hs]
    rfl
  obtain ⟨m, c, hend, hrest⟩ := programCheckCmd_ended (s := s.withStack rest) hbusy
  exact ⟨m, c, by rw [hstep, hend]; rfl, hrest⟩

/-- Settles O22: a rejected descriptor is a program check in the state that the engine has left. -/
theorem rejectedDescriptorEndsTheProgram : Obligations.RejectedDescriptorEndsTheProgram := by
  intro i s u ticOk rest code addr w2 hop ha hbad
  obtain ⟨m, c, hend, hrest⟩ := programCheckCmd_ended (s := s.withStack rest) ha.2.1
  exact ⟨m, c, by rw [exec_eq_beginCommand hop, beginCommand_bad ha hbad, hend]; rfl, hrest⟩

/-- An unassigned command code fails the check of R126, whatever its operands. -/
theorem descriptorBad_of_invalid {c : Byte} (h : classOf c = .invalid) (cfg : Config) (addr : Addr)
    (w2 : CommandWord) : descriptorBad cfg c addr w2 = true :=
  (descriptorProgramChecks cfg c addr w2).2 (.inr (.inl h))

/-- Settles O23: the case of O22 in which the code alone is the fault. -/
theorem invalidCodeEndsTheProgram : Obligations.InvalidCodeEndsTheProgram := by
  intro s u ticOk rest hi addr w2 hne ha
  exact rejectedDescriptorEndsTheProgram (.invalid hi addr w2) s u ticOk rest _ addr w2 rfl ha
    (descriptorBad_of_invalid (classOf_invalid hne) s.cfg addr w2)

theorem transferInList_refused (addr : Addr) (hs : s.stack = .engine u false :: rest) :
    transferInList addr s = outcomeOf (programCheckCmd u (s.withStack rest)) := by
  simp only [transferInList, hs]

theorem transferInList_followed (addr : Addr) (hs : s.stack = .engine u true :: rest) :
    transferInList addr s =
      .next ((s.setCtx u { s.ctx u with listAddr := addr }).withStack (.engine u false :: rest)) := by
  simp only [transferInList, hs]

/-- Settles O30: by whether the running engine allows a Transfer-In-List. -/
theorem transferInListIsFollowedOnce : Obligations.TransferInListIsFollowedOnce := by
  intro s u rest hi addr ignored
  refine ⟨fun hs => transferInList_followed addr hs, fun ha => ?_⟩
  obtain ⟨m, c, hend, hrest⟩ := programCheckCmd_ended (s := s.withStack rest) ha.2.1
  have hexec : exec (.tic hi addr ignored) s = outcomeOf (programCheckCmd u (s.withStack rest)) :=
    transferInList_refused addr ha.1
  exact ⟨m, c, by rw [hexec, hend]; rfl, hrest⟩

end Sys2Proof.Machine
end

section
/-! PROOFS. While the engine runs for a unit, every operation it comes to leaves the contexts and queues of
the other units as they are (spec/40_engine.md R137, spec/41_status_posting.md R177). -/

namespace Sys2Proof.Machine

/-- From `s` to `t` no unit but `u` has a new context or a new queue. -/
def OthersKept (u : UnitId) (s t : State) : Prop := ∀ v, v ≠ u → t.ctx v = s.ctx v ∧ t.psq v = s.psq v

variable {r s t : State} {u : UnitId}

theorem othersKept_refl (u : UnitId) (s : State) : OthersKept u s s := fun _ _ => ⟨rfl, rfl⟩

theorem OthersKept.trans (h : OthersKept u r s) (k : OthersKept u s t) : OthersKept u r t := fun v hv =>
  ⟨(k v hv).1.trans (h v hv).1, (k v hv).2.trans (h v hv).2⟩

theorem OthersKept.setCtx (h : OthersKept u r s) (c : Context) : OthersKept u r (s.setCtx u c) :=
  h.trans fun _ hv => ⟨ctx_setCtx_other s c hv, rfl⟩

theorem OthersKept.emit (h : OthersKept u r s) (o : Output) : OthersKept u r (s.emit o) := h

theorem OthersKept.withStack (h : OthersKept u r s) (st : List Activation) :
    OthersKept u r (s.withStack st) := h

theorem OthersKept.enterEngine (h : OthersKept u r s) (allow : Bool) :
    OthersKept u r (enterEngine u allow s) :=
  h.trans fun v hv => ⟨by rw [ctx_enterEngine, if_neg fun e => hv e.1], enterEngine_psq s u allow v⟩

theorem OthersKept.finishProgram (h : OthersKept u r s) (c : Context) :
    OthersKept u r (finishProgram u c s).1 :=
  h.trans fun _ hv => ⟨finishProgram_ctx_other s c hv, finishProgram_psq_other s c hv⟩

theorem othersKept_resume {p : State × Option Bool} (h : OthersKept u r p.1) :
    OthersKept u r (resume u p) := by
  obtain ⟨x, _ | allow⟩ := p
  · exact h
  · exact OthersKept.enterEngine h allow

theorem othersKept_channelEndFrom (h : OthersKept u r s) (c : Context) :
    OthersKept u r (channelEndFrom u c s).1 := by
  obtain ⟨-, e⟩ | ⟨-, -, -, e⟩ | ⟨-, -, e⟩ := channelEndFrom_cases s u c <;> rw [e]
  · exact h.setCtx _
  · exact h.setCtx _
  · exact h.finishProgram c

theorem othersKept_channelEnd (h : OthersKept u r s) (extra : Half) :
    ResultIn (OthersKept u r) anyFault (channelEnd u extra s) := by
  unfold channelEnd
  obtain ⟨-, e⟩ | ⟨-, e⟩ | ⟨-, e⟩ := channelEndCore_cases s u extra <;> rw [e]
  · exact h
  · exact othersKept_resume (othersKept_channelEndFrom h _)
  · trivial

theorem othersKept_forceEnd (h : OthersKept u r s) (bits : Half) :
    ResultIn (OthersKept u r) anyFault (forceEnd u bits s) :=
  othersKept_channelEnd (h.setCtx _) bits

theorem othersKept_programCheckCmd (h : OthersKept u r s) :
    ResultIn (OthersKept u r) anyFault (programCheckCmd u s) :=
  othersKept_forceEnd ((h.setCtx _).emit _) stEnds

theorem othersKept_afterAnswer (h : OthersKept u r s) (st : Half) :
    ResultIn (OthersKept u r) anyFault (afterAnswer u st s) := by
  have hmerged := h.setCtx (mergeStatus st (s.ctx u))
  unfold afterAnswer
  dsimp only
  split_ifs
  · exact othersKept_forceEnd (hmerged.emit _) stEnds
  · exact othersKept_channelEnd (hmerged.emit _) 0
  · exact hmerged.setCtx _
  · exact hmerged

/-- The calls inside `start_command` are for the unit itself (R303 item 1). -/
theorem OthersKept.callsRun {ds : List DevCall} (h : OthersKept u r s) (hrun : CallsRun u ds s t) :
    OthersKept u r t :=
  h.trans fun v hv => ⟨hrun.kept.ctx v hv, congrArg (tableGet [] v.key) hrun.kept.psqs⟩

theorem othersKept_dispatchCommand (h : OthersKept u r s) (c : Byte) :
    ResultIn (OthersKept u r) anyFault (dispatchCommand u c s) := by
  have hcalled : OthersKept u r
      ((takeStart (if classOf c = .inch then loadInchRange u s else s)).2.emit (.startCommand u c)) := by
    split_ifs
    all_goals exact h.trans fun v _ => ⟨by simp, by simp⟩
  unfold dispatchCommand
  dsimp only
  obtain ⟨x, hrun, hx⟩ | hx | hx := startCalls_cases u
    (takeStart (if classOf c = .inch then loadInchRange u s else s)).1.calls
    ((takeStart (if classOf c = .inch then loadInchRange u s else s)).2.emit (.startCommand u c)) <;>
    rw [hx]
  · exact othersKept_afterAnswer (hcalled.callsRun hrun) _
  · trivial
  · trivial

theorem othersKept_beginCommand {ticOk : Bool} {rest : List Activation} (h : OthersKept u r s)
    (hs : s.stack = .engine u ticOk :: rest) (code : Byte) (addr : Addr) (w2 : CommandWord) :
    OutcomeIn (OthersKept u r) anyFault (beginCommand code addr w2 s) := by
  unfold beginCommand
  rw [hs]
  dsimp only
  split
  next => exact outcomeIn_outcomeOf (othersKept_programCheckCmd (h.withStack rest))
  next hacc =>
    obtain ⟨-, -, -, rfl⟩ := acceptDescriptor_some hacc
    exact (h.withStack rest).setCtx _
  next hacc =>
    obtain ⟨-, -, -, rfl⟩ := acceptDescriptor_some hacc
    exact outcomeIn_outcomeOf (othersKept_dispatchCommand ((h.withStack rest).setCtx _) _)

theorem othersKept_transferInList {ticOk : Bool} {rest : List Activation} (h : OthersKept u r s)
    (hs : s.stack = .engine u ticOk :: rest) (addr : Addr) :
    OutcomeIn (OthersKept u r) anyFault (transferInList addr s) := by
  cases ticOk with
  | false =>
    rw [transferInList_refused addr hs]
    exact outcomeIn_outcomeOf (othersKept_programCheckCmd (h.withStack rest))
  | true =>
    rw [transferInList_followed addr hs]
    exact (h.setCtx _).withStack _

theorem othersKept_exec {ticOk : Bool} {rest : List Activation} {i : Instr} (h : OthersKept u r s)
    (hs : s.stack = .engine u ticOk :: rest) (hi : isDescriptor i) :
    OutcomeIn (OthersKept u r) anyFault (exec i s) := by
  obtain hi | ⟨hi, addr, w, rfl⟩ := hi
  · obtain ⟨⟨code, addr, w2⟩, hop⟩ := Option.isSome_iff_exists.1 hi
    rw [exec_eq_beginCommand hop]
    exact othersKept_beginCommand h hs code addr w2
  · exact othersKept_transferInList h hs addr

theorem othersKept_fetchStep {ticOk : Bool} {rest : List Activation}
    (hs : s.stack = .engine u ticOk :: rest) :
    OutcomeIn (OthersKept u s) anyFault (fetchStep exec u s) := by
  unfold fetchStep
  split
  next =>
    exact outcomeIn_outcomeOf (othersKept_programCheckCmd ((othersKept_refl u s).withStack _))
  next w1 w2 t hf =>
    obtain ⟨-, -, -, -, rfl⟩ := fetchDescriptor_some hf
    exact othersKept_exec ((othersKept_refl u s).setCtx _) hs (isDescriptor_decodeDescriptor w1 w2)

/-- Settles O19: a step of the engine is its fetch and what it runs. -/
theorem engineStepsLeaveOtherUnitsAlone : Obligations.EngineStepsLeaveOtherUnitsAlone := by
  intro s t u v ticOk rest hs hv hstep
  have hwf : s.cfg.wf = true := by
    by_contra hno
    rw [step, if_neg hno] at hstep
    cases hstep
  have hkept := othersKept_fetchStep hs
  rw [← step_engine hwf hs, hstep] at hkept
  exact hkept v hv

end Sys2Proof.Machine
end

section
/-! PROOFS. The dispatch of an accepted command, from the calls of its device to what its answer asks for:
the command is pending, the program ends at once, or the command has ended inside the dispatch
(spec/40_engine.md R130 to R136, R155, spec/45_device_contract.md R303, R304). -/

namespace Sys2Proof.Machine

variable {s x y : State} {u : UnitId} {ticOk : Bool} {rest : List Activation} {code : Byte} {addr : Addr}
  {w2 : CommandWord} {st extra : Half} {c : Context}

/-! ### Status bits -/

theorem or_and_eq_zero (a b m : Half) : (a ||| b) &&& m = 0 ↔ a &&& m = 0 ∧ b &&& m = 0 := by
  rw [BitVec.and_or_distrib_right]
  exact BitVec.or_eq_zero_iff

theorem and_or_eq_zero (a m n : Half) : a &&& (m ||| n) = 0 ↔ a &&& m = 0 ∧ a &&& n = 0 := by
  rw [BitVec.and_comm, or_and_eq_zero, BitVec.and_comm m, BitVec.and_comm n]

/-- Device end is one of both ends. -/
theorem and_stDe_ne_zero (h : st &&& stEnds = stEnds) : st &&& stDe ≠ 0 := by
  have hde : st &&& stDe = stDe := by
    calc st &&& stDe
      _ = st &&& (stEnds &&& stDe) := by rw [show stEnds &&& stDe = stDe by decide]
      _ = stDe := by rw [← BitVec.and_assoc, h]; decide
  rw [hde]
  decide

/-! ### The context at a channel end -/

/-- The length check leaves every bit that it finds in the status (R172). -/
theorem endedContext_status_ne_zero {m : Half} (h : (c.status ||| extra) &&& m ≠ 0) :
    (endedContext extra c).status &&& m ≠ 0 := by
  unfold endedContext
  rw [ne_eq] at h ⊢
  split_ifs
  all_goals simp only [or_and_eq_zero] at h ⊢
  all_goals tauto

/-- Where chain-command is still set, the length check has found nothing to report (R172). -/
theorem endedContext_of_cc (h : (endedContext extra c).flags.cc = true) :
    endedContext extra c = { c with status := c.status ||| extra ||| stCe } := by
  unfold endedContext at h ⊢
  split_ifs at h ⊢
  · cases h
  · cases h
  · rfl

/-- The length check clears flags and sets none. -/
theorem endedContext_cc_eq_false (h : c.flags.cc = false) : (endedContext extra c).flags.cc = false := by
  unfold endedContext
  split_ifs
  · rfl
  · rfl
  · exact h

/-! ### What an answer asks for -/

/-- A channel end that finishes the program, told from a state that differs in the unit's context and the
outputs (R175, R176). -/
theorem channelEnd_ends (h : SameBut u x y) (hbusy : (y.ctx u).state = .busy)
    (hde : ((y.ctx u).status ||| extra) &&& stDe ≠ 0)
    (hstop : (endedContext extra (y.ctx u)).flags.cc = false ∨
      (endedContext extra (y.ctx u)).status &&& chainAbort ≠ 0) :
    ∃ m, channelEnd u extra y = .ok (x.afterEnd u m) ∧
      x.ProgramEnded m u (endedContext extra (y.ctx u)) ∧ m.outputs = y.outputs := by
  refine ⟨_, ?_, h.ended (finishProgram_ended y u _), finishProgram_outputs y u _⟩
  rw [channelEnd_finishes y (.inl hbusy) (endedContext_status_ne_zero hde) hstop, h.after]

/-- The answer is merged and the engine's outcome leaves the block: how every answer is taken (R132). -/
theorem sameBut_answered (u : UnitId) (x : State) (st : Half) (o : EngineOutcome) :
    SameBut u x ((x.setCtx u (answeredContext (x.ctx u) st)).emit (.engineOutcome u o)) :=
  (sameBut_setCtx u x _).trans (sameBut_emit u _ _)

/-- An answer with no immediate-end bit and not both ends (R136). -/
theorem afterAnswer_pends (hbusy : (x.ctx u).state = .busy) (himm : st &&& immEnd = 0)
    (hends : st &&& stEnds ≠ stEnds) :
    ∃ t, afterAnswer u st x = .ok t ∧ SameBut u x t ∧
      t.ctx u = { answeredContext (x.ctx u) st with
        state := if st &&& stCe ≠ 0 then .channelEndPending else .busy } ∧
      t.outputs = .engineOutcome u .pending :: x.outputs := by
  have hall : allBits st stEnds = false := beq_eq_false_iff_ne.2 hends
  unfold afterAnswer
  rw [(anyBit_eq_false st immEnd).2 himm, hall]
  by_cases hce : st &&& stCe = 0
  · rw [(anyBit_eq_false st stCe).2 hce]
    refine ⟨_, rfl, sameBut_answered u x st .pending, ?_, rfl⟩
    simp [hce, answeredContext, mergeStatus, hbusy]
  · rw [(anyBit_eq_true st stCe).2 hce]
    refine ⟨_, rfl, ((sameBut_setCtx u x _).trans (sameBut_setCtx u _ _)).trans (sameBut_emit u _ _), ?_,
      rfl⟩
    rw [emit_ctx, State.setTransfer, ctx_setCtx_same, ctx_setCtx_same, if_pos hce]
    rfl

/-- An answer with an immediate-end bit stops chaining and forces both ends (R133, R142). -/
theorem afterAnswer_forcesEnd (hbusy : (x.ctx u).state = .busy) (himm : st &&& immEnd ≠ 0) :
    ∃ m, afterAnswer u st x = .ok (x.afterEnd u m) ∧
      x.ProgramEnded m u (endedContext stEnds (stopChaining (answeredContext (x.ctx u) st))) ∧
      m.outputs = .engineOutcome u .error :: x.outputs := by
  obtain ⟨y, hy⟩ : ∃ y, y = ((x.setCtx u (answeredContext (x.ctx u) st)).emit
      (.engineOutcome u .error)).setCtx u (stopChaining (answeredContext (x.ctx u) st)) := ⟨_, rfl⟩
  have hctx : y.ctx u = stopChaining (answeredContext (x.ctx u) st) := by rw [hy, ctx_setCtx_same]
  have hsame : SameBut u x y := by
    rw [hy]
    exact (sameBut_answered u x st .error).trans (sameBut_setCtx u _ _)
  have hforce : afterAnswer u st x = channelEnd u stEnds y := by
    unfold afterAnswer forceEnd
    rw [(anyBit_eq_true st immEnd).2 himm, hy]
    dsimp only
    rw [emit_ctx, ctx_setCtx_same]
    rfl
  have hde : ((y.ctx u).status ||| stEnds) &&& stDe ≠ 0 := fun h =>
    absurd ((or_and_eq_zero _ _ _).1 h).2 (by decide)
  obtain ⟨m, hend, hended, hout⟩ := channelEnd_ends hsame (by rw [hctx]; exact hbusy) hde
    (.inl (endedContext_cc_eq_false (by rw [hctx]; rfl)))
  rw [hctx] at hended
  exact ⟨m, hforce.trans hend, hended, by rw [hout, hy]; rfl⟩

/-- An answer with both ends and no immediate-end bit is a channel end inside the dispatch (R134). -/
theorem afterAnswer_channelEnd (himm : st &&& immEnd = 0) (hends : st &&& stEnds = stEnds) :
    afterAnswer u st x = channelEnd u 0
      ((x.setCtx u (answeredContext (x.ctx u) st)).emit (.engineOutcome u .done)) := by
  have hall : allBits st stEnds = true := beq_iff_eq.2 hends
  unfold afterAnswer
  rw [(anyBit_eq_false st immEnd).2 himm, hall]
  rfl

/-- A bit of the answer stays in the status of the context that the channel end decides on. -/
theorem answered_status_ne_zero {m : Half} (h : st &&& m ≠ 0) :
    ((answeredContext c st).status ||| 0) &&& m ≠ 0 := by
  simp only [answeredContext, ne_eq, or_and_eq_zero]
  tauto

/-! ### The device's calls -/

/-- The calls leave the unit Busy, the procedures and the inputs of the dispatch (R303 item 1). -/
theorem commandAnswered_keeps (ha : s.atDescriptor u ticOk rest)
    (hx : s.CommandAnswered x u rest code addr w2 st) :
    (x.ctx u).state = .busy ∧ x.stack = rest ∧ x.inputs = (takeStart s).2.inputs := by
  have hkept := hx.2.kept
  obtain ⟨-, hctx, -, hstack, hinputs, -⟩ := dispatched_frame s u rest code addr w2
  exact ⟨by rw [hkept.state, hctx]; exact ha.2.1, hkept.stack.trans hstack, hkept.inputs.trans hinputs⟩

/-- A run that keeps to the contract comes to its answer (R303 item 1, R304). -/
theorem exists_commandAnswered (u : UnitId) (rest : List Activation) (code : Byte) (addr : Addr)
    (w2 : CommandWord) (hallowed : s.nextStartAllowed = true) (hst : (takeStart s).1.answer = st) :
    ∃ x, s.CommandAnswered x u rest code addr w2 st := by
  have hcfg : (s.dispatched u rest code addr w2).cfg = s.cfg :=
    (dispatched_frame s u rest code addr w2).1.config
  obtain ⟨x, hx⟩ := exists_callsRun (s := s.dispatched u rest code addr w2) u
    (ds := (takeStart s).1.calls) (by rw [hcfg]; exact hallowed)
  exact ⟨x, hst, hx⟩

/-- Where the device makes no call, it answers in the state it is called in. -/
theorem eq_dispatched_of_no_calls (hx : s.CommandAnswered x u rest code addr w2 st)
    (h : (takeStart s).1.calls = []) : x = s.dispatched u rest code addr w2 := by
  have hrun := hx.2
  rw [h] at hrun
  exact hrun

/-- An accepted command whose device asks for no end is pending (R132, R136). -/
theorem exec_pends {i : Instr} (hop : commandOperands i = some (code, addr, w2))
    (ha : s.atDescriptor u ticOk rest) (hok : descriptorBad s.cfg code addr w2 = false)
    (hx : s.CommandAnswered x u rest code addr w2 st) (himm : st &&& immEnd = 0)
    (hends : st &&& stEnds ≠ stEnds) :
    ∃ t, exec i s = .next t ∧
      t.ctx u = { answeredContext (x.ctx u) st with
        state := if st &&& stCe ≠ 0 then .channelEndPending else .busy } ∧
      x.Frame t nothing (· = u) nothing nothing nothing ∧
      t.stack = rest ∧ t.inputs = (takeStart s).2.inputs ∧
      t.outputs = .engineOutcome u .pending :: x.outputs := by
  obtain ⟨hbusy, hstack, hinputs⟩ := commandAnswered_keeps ha hx
  obtain ⟨t, ht, hsame, hctx, hout⟩ := afterAnswer_pends hbusy himm hends
  refine ⟨t, ?_, hctx, hsame.frame, hsame.stack.trans hstack, hsame.inputs.trans hinputs, hout⟩
  rw [exec_eq_beginCommand hop, beginCommand_answered ha hok hx, ht]
  rfl

/-- Settles O24: the command is dispatched, its device makes its calls, and the answer leaves it pending. -/
theorem commandWaitsForItsDevice : Obligations.CommandWaitsForItsDevice := by
  intro i s u ticOk rest code addr w2 st hop hnotInch ha hok hallowed hst himm hends
  obtain ⟨x, hx⟩ := exists_commandAnswered u rest code addr w2 hallowed hst
  obtain ⟨t, ht, hctx, hframe, hstack, hinputs, hout⟩ := exec_pends hop ha hok hx himm hends
  obtain ⟨hdispatched, hloaded, -⟩ := dispatched_frame s u rest code addr w2
  have hnoBuffer : s.Frame (s.dispatched u rest code addr w2) nothing (· = u) nothing nothing nothing :=
    { hdispatched with channels := fun ch _ => hdispatched.channels ch fun h => hnotInch h.1 }
  exact ⟨x, t, hx, ht, hctx, hframe, hstack, hinputs, hout, hloaded, hnoBuffer,
    eq_dispatched_of_no_calls hx⟩

/-! ### The status buffer of an INCH -/

/-- The channel in which the device of an INCH is called (R135). -/
theorem dispatched_chan_inch (s : State) (u : UnitId) (rest : List Activation) (addr : Addr)
    (w2 : CommandWord) :
    (s.dispatched u rest 0x00 addr w2).chan u.ch = { s.chan u.ch with
      inchValid := true, inchBase := addr, inchCur := addr,
      inchHwm := BitVec.ofNat 24 (addr.toNat + 8 * (w2.count.toNat / 8) - 8) } := by
  have hchan : (takeStart s).2.chan u.ch = s.chan u.ch := takeStart_chan s u.ch
  rw [← hchan]
  exact chan_setChan_same (takeStart s).2 u.ch _

/-- The last slot of a status buffer that the operand check lets pass is in memory (R129, R135). -/
theorem highWaterMark_toNat {cfg : Config} (hwf : cfg.wf = true)
    (hok : inchOperandBad cfg addr w2.count = false) :
    (BitVec.ofNat 24 (addr.toNat + 8 * (w2.count.toNat / 8) - 8)).toNat =
      addr.toNat + 8 * (w2.count.toNat / 8) - 8 := by
  have hsize : cfg.memSize ≤ 2 ^ 24 := by
    simp only [Config.wf, Config.sizesOk, Bool.and_eq_true, decide_eq_true_eq] at hwf
    tauto
  rw [Bool.eq_false_iff, ne_eq, inchOperandBad_iff] at hok
  rw [BitVec.toNat_ofNat]
  exact Nat.mod_eq_of_lt (by omega)

/-- Settles O25: as the other commands; the device's calls leave the range that the dispatch has loaded. -/
theorem inchLoadsTheStatusBuffer : Obligations.InchLoadsTheStatusBuffer := by
  rintro s u ticOk rest addr w2 st d hwf ha hok hallowed hst himm hends rfl
  obtain ⟨x, hx⟩ := exists_commandAnswered u rest 0x00 addr w2 hallowed hst
  obtain ⟨t, ht, hctx, hframe, hstack, hinputs, hout⟩ :=
    exec_pends (i := .inch addr w2) rfl ha hok hx himm hends
  obtain ⟨hdispatched, hloaded, -⟩ := dispatched_frame s u rest 0x00 addr w2
  have hbuffer := dispatched_chan_inch s u rest addr w2
  have hrange := hx.2.kept.inch u.ch
  rw [← hframe.channels u.ch id, hbuffer] at hrange
  obtain ⟨hvalid, hbase, hcur, hhwm⟩ := hrange
  have hmark := highWaterMark_toNat hwf (inchOperandOk_of_descriptorOk hok classOf_inch)
  have hone : s.Frame (s.dispatched u rest 0x00 addr w2) nothing (· = u) nothing (· = u.ch) nothing :=
    { hdispatched with channels := fun ch hch => hdispatched.channels ch fun h => hch h.2 }
  exact ⟨x, t, hx, ht, hctx, hvalid, hbase, hcur, by rw [hhwm, hmark], hframe, hstack, hinputs, hout,
    hloaded, by rw [hbuffer], by rw [hbuffer], hone, eq_dispatched_of_no_calls hx⟩

/-! ### The ends inside the dispatch -/

/-- Settles O26: the answer forces the end of the program. -/
theorem immediateEndStopsTheProgram : Obligations.ImmediateEndStopsTheProgram := by
  intro i s u ticOk rest code addr w2 st hop ha hok hallowed hst himm
  obtain ⟨x, hx⟩ := exists_commandAnswered u rest code addr w2 hallowed hst
  obtain ⟨m, hend, hended, hout⟩ := afterAnswer_forcesEnd (commandAnswered_keeps ha hx).1 himm
  refine ⟨x, m, hx, ?_, hended, hout⟩
  rw [exec_eq_beginCommand hop, beginCommand_answered ha hok hx, hend]
  rfl

/-- Settles O27: the answer is a channel end that finishes the program. -/
theorem synchronousEndFinishesTheProgram : Obligations.SynchronousEndFinishesTheProgram := by
  intro i s x u ticOk rest code addr w2 st hop ha hok hx himm hends hstop
  obtain ⟨m, hend, hended, hout⟩ := channelEnd_ends (extra := 0) (sameBut_answered u x st .done)
    (by simpa [answeredContext] using (commandAnswered_keeps ha hx).1)
    (by simpa using answered_status_ne_zero (c := x.ctx u) (and_stDe_ne_zero hends))
    (by simpa using hstop)
  rw [emit_ctx, ctx_setCtx_same] at hended
  refine ⟨m, ?_, hended, hout⟩
  rw [exec_eq_beginCommand hop, beginCommand_answered ha hok hx, afterAnswer_channelEnd himm hends, hend]
  rfl

/-- The channel end that chains keeps only PCI of the status, and CE is not PCI (R174). -/
theorem chained_status (a st : Half) : (a ||| st ||| 0 ||| stCe) &&& stPci = (a ||| st) &&& stPci := by
  rw [BitVec.and_or_distrib_right, show stCe &&& stPci = 0 by decide]
  simp

/-- An answer whose channel end resumes the list. No chain-abort bit is set in the status, so none of the
immediate-end mask is set in the answer (R134, R174). -/
theorem afterAnswer_chains (hbusy : (x.ctx u).state = .busy) (hends : st &&& stEnds = stEnds)
    (hcc : (endedContext 0 (answeredContext (x.ctx u) st)).flags.cc = true)
    (habort : (endedContext 0 (answeredContext (x.ctx u) st)).status &&& chainAbort = 0) :
    afterAnswer u st x = .ok (enterEngine u true
      (((x.setCtx u (answeredContext (x.ctx u) st)).emit (.engineOutcome u .done)).setCtx u
        { x.ctx u with
          state := .awaitingNext,
          status := ((x.ctx u).status ||| st) &&& stPci,
          flags := { (x.ctx u).flags with dc := false } })) := by
  have himm : st &&& immEnd = 0 := by
    by_contra h
    refine endedContext_status_ne_zero (answered_status_ne_zero (m := chainAbort) fun hno => ?_) habort
    exact h ((and_or_eq_zero _ _ _).1 hno).1
  rw [afterAnswer_channelEnd himm hends]
  obtain ⟨y, hy⟩ : ∃ y, y = (x.setCtx u (answeredContext (x.ctx u) st)).emit (.engineOutcome u .done) :=
    ⟨_, rfl⟩
  have hctx : y.ctx u = answeredContext (x.ctx u) st := by rw [hy, emit_ctx, ctx_setCtx_same]
  rw [← hy, channelEnd_chains y (.inl (by rw [hctx]; exact hbusy))
    (by rw [hctx]; exact endedContext_status_ne_zero (answered_status_ne_zero (and_stDe_ne_zero hends)))
    (by rw [hctx]; exact hcc) (by rw [hctx]; exact habort)]
  simp only [hctx, endedContext_of_cc hcc]
  simp only [answeredContext, chained_status]

/-- Settles O28: the answer is a channel end that resumes the list. -/
theorem synchronousEndChains : Obligations.SynchronousEndChains := by
  intro i s x u ticOk rest code addr w2 st hop ha hok hx hends hcc habort
  obtain ⟨hbusy, hstack, hinputs⟩ := commandAnswered_keeps ha hx
  refine ⟨_, ?_, ctx_setCtx_same _ u _,
    ((sameBut_answered u x st .done).trans (sameBut_setCtx u _ _)).frame, hstack, hinputs, rfl⟩
  rw [exec_eq_beginCommand hop, beginCommand_answered ha hok hx, afterAnswer_chains hbusy hends hcc habort]
  rfl

end Sys2Proof.Machine
end

section
/-! PROOFS. The data-chain re-entry of the engine: at which address it comes to its next descriptor, and
what it then leaves of the unit's context (spec/40_engine.md R121 to R141, R152). -/

namespace Sys2Proof.Machine

variable {s t x : State} {u : UnitId} {a b l : Addr} {k : Option (State → Bool × State)}

/-! ### Coming to a descriptor -/

/-- In `x` the data chain of `u` that began in `s` is about to fetch at `a`: the unit is Busy (R120), and
nothing else has changed. -/
structure ComesTo (u : UnitId) (s : State) (a : Addr) (x : State) : Prop where
  ctx : x.ctx u = { s.ctx u with state := .busy, listAddr := a }
  same : SameBut u s x
  outputs : x.outputs = s.outputs

theorem SameBut.readWord (h : SameBut u s x) (n : Nat) : x.readWord n = s.readWord n := by
  simp only [State.readWord, State.readByte, h.mem]

theorem SameBut.fetchable (h : SameBut u s x) : x.fetchable a ↔ s.fetchable a := by
  unfold State.fetchable
  rw [h.cfg]

theorem SameBut.ticAt (h : SameBut u s x) : x.ticAt a ↔ s.ticAt a := by
  unfold State.ticAt
  rw [h.fetchable, h.readWord]

theorem ComesTo.continuationAt (h : ComesTo u s a x) {bad : Bool} :
    x.continuationAt u b bad ↔ s.continuationAt u b bad := by
  unfold State.continuationAt
  rw [h.same.fetchable, h.same.readWord, h.same.readWord, h.same.cfg, h.ctx]

/-- The list address is replaced and nothing else (R121, R122). -/
theorem ComesTo.setListAddr (h : ComesTo u s a x) (b : Addr) :
    ComesTo u s b (x.setCtx u { x.ctx u with listAddr := b }) where
  ctx := by rw [ctx_setCtx_same, h.ctx]
  same := h.same.trans (sameBut_setCtx u x _)
  outputs := h.outputs

theorem comesTo_entry (u : UnitId) (s : State) : ComesTo u s (s.ctx u).listAddr (s.setTransfer u .busy) where
  ctx := ctx_setCtx_same s u _
  same := sameBut_setCtx u s _
  outputs := rfl

/-- A Transfer-In-List at the list address leads to one more pass, which allows no second (R122, R123). -/
theorem execDataChain_of_ticAt (h : s.ticAt (s.ctx u).listAddr) :
    ∃ x, execDataChain u s = chainPass u none x ∧
      ComesTo u s (addrOf (s.readWord (s.ctx u).listAddr.toNat)) x := by
  have hentry := comesTo_entry u s
  obtain ⟨y, hy⟩ : ∃ y, y = s.setTransfer u .busy := ⟨_, rfl⟩
  rw [← hy] at hentry
  have haddr : (y.ctx u).listAddr = (s.ctx u).listAddr := by rw [hentry.ctx]
  have htic : y.ticAt (y.ctx u).listAddr := by rw [haddr, hentry.same.ticAt]; exact h
  have hnext := (hentry.setListAddr ((y.ctx u).listAddr + 8)).setListAddr
    (addrOf (y.readWord (y.ctx u).listAddr.toNat))
  rw [ctx_setCtx_same, hentry.same.readWord, haddr] at hnext
  refine ⟨_, ?_, hnext⟩
  rw [execDataChain, ← hy, chainPass_tic _ htic, hentry.same.readWord, haddr]

/-- The re-entry is a pass at each address it comes to (R152). -/
theorem execDataChain_of_chainComesTo (h : s.chainComesTo u a) :
    ∃ k x, execDataChain u s = chainPass u k x ∧ ComesTo u s a x := by
  obtain rfl | ⟨htic, rfl⟩ := h
  · exact ⟨_, _, rfl, comesTo_entry u s⟩
  · obtain ⟨x, hx, hcomes⟩ := execDataChain_of_ticAt htic
    exact ⟨_, x, hx, hcomes⟩

/-! ### The chain stops -/

/-- From `s` to `t` the data chain of `u` has stopped with the list address `l`: PCHK is set, chaining is
stopped, and the unit stays Busy (R139, R141). -/
structure ChainStopped (u : UnitId) (s : State) (l : Addr) (t : State) : Prop where
  ctx : t.ctx u = { s.ctx u with
    state := .busy, listAddr := l, status := (s.ctx u).status ||| stPchk,
    flags := { (s.ctx u).flags with cc := false, dc := false } }
  same : SameBut u s t
  outputs : t.outputs = s.outputs

theorem ComesTo.stopped (h : ComesTo u s a x) : ChainStopped u s a (programCheckData u x) where
  ctx := by rw [programCheckData, ctx_setCtx_same, h.ctx]; rfl
  same := h.same.trans (sameBut_setCtx u x _)
  outputs := h.outputs

theorem ComesTo.stoppedAfter (h : ComesTo u s a x) : ChainStopped u s (a + 8)
    (programCheckData u (x.setCtx u { x.ctx u with listAddr := (x.ctx u).listAddr + 8 })) := by
  have haddr : (x.ctx u).listAddr = a := by rw [h.ctx]
  rw [haddr]
  exact (h.setListAddr (a + 8)).stopped

/-- A pass that answers Error has stopped the chain, if what follows a Transfer-In-List does. -/
theorem chainStopped_of_chainPass (hx : ComesTo u s a x)
    (hk : ∀ f ∈ k, ∀ b y t, ComesTo u s b y → f y = (false, t) → ∃ l, ChainStopped u s l t)
    (h : chainPass u k x = (false, t)) : ∃ l, ChainStopped u s l t := by
  unfold chainPass at h
  split at h
  next => cases h; exact ⟨_, hx.stopped⟩
  next w1 w2 y hf =>
    obtain ⟨-, -, -, -, rfl⟩ := fetchDescriptor_some hf
    have hnext := hx.setListAddr ((x.ctx u).listAddr + 8)
    split at h
    · split at h
      next => cases h; exact ⟨_, hnext.stopped⟩
      next f => exact hk f rfl _ _ _ (hnext.setListAddr (addrOf w1)) h
    · split at h
      next => cases h; exact ⟨_, hnext.stopped⟩
      next => cases h

/-- A re-entry that answers Error has stopped the chain (R141). -/
theorem chainStopped_of_execDataChain (h : execDataChain u s = (false, t)) :
    ∃ l, ChainStopped u s l t :=
  chainStopped_of_chainPass (comesTo_entry u s)
    (by
      rintro f hf b y t hy he
      cases hf
      exact chainStopped_of_chainPass hy (fun f hf => by cases hf) he) h

/-- The chain stops where it cannot go on (R121, R122, R139). -/
theorem execDataChain_stops (hdc : (s.ctx u).flags.dc = true) (h : s.chainStopsAt u l) :
    ∃ t, execDataChain u s = (false, t) ∧ ChainStopped u s l t := by
  obtain ⟨a, hcomes, hunfetchable, rfl⟩ | ⟨a, hcomes, hbad, rfl⟩ | ⟨htic, hsecond, rfl⟩ := h
  · obtain ⟨k, x, he, hx⟩ := execDataChain_of_chainComesTo hcomes
    refine ⟨_, he.trans (chainPass_unfetchable ?_), hx.stopped⟩
    rw [hx.ctx, hx.same.fetchable]
    exact hunfetchable
  · obtain ⟨k, x, he, hx⟩ := execDataChain_of_chainComesTo hcomes
    refine ⟨_, he.trans (chainPass_bad (by rw [hx.ctx]; exact hdc) ?_), hx.stoppedAfter⟩
    rw [hx.continuationAt, hx.ctx]
    exact hbad
  · obtain ⟨x, he, hx⟩ := execDataChain_of_ticAt htic
    refine ⟨_, he.trans (chainPass_secondTic ?_), hx.stoppedAfter⟩
    rw [hx.ctx, hx.same.ticAt]
    exact hsecond

/-! ### The chain goes on -/

/-- Settles O38: the pass at the address that the chain comes to accepts the descriptor. -/
theorem dataChainKeepsTheCommand : Obligations.DataChainKeepsTheCommand := by
  rintro s u a _ _ hdc hcomes hgood rfl rfl
  obtain ⟨k, x, he, hx⟩ := execDataChain_of_chainComesTo hcomes
  have haddr : (x.ctx u).listAddr = a := by rw [hx.ctx]
  have hpass := chainPass_good (k := k) (u := u) (s := x) (by rw [hx.ctx]; exact hdc)
    (by rw [haddr, hx.continuationAt]; exact hgood)
  have hsame := (hx.same.trans (sameBut_setCtx u x { x.ctx u with listAddr := a + 8 })).trans
    (sameBut_setCtx u _ (loadedContext (x.ctx u).cmd (addrOf (x.readWord a.toNat))
      (decodeCommandWord (x.readWord (a.toNat + 4))) { x.ctx u with listAddr := a + 8 }))
  rw [haddr] at hpass
  refine ⟨_, he.trans hpass, ?_, hsame.frame, hsame.stack, hsame.inputs, hx.outputs⟩
  rw [ctx_setCtx_same, hx.ctx, hx.same.readWord, hx.same.readWord]
  rfl

/-- A data chain stops, or it comes to a descriptor that continues it. -/
theorem chain_stops_or_continues (s : State) (u : UnitId) :
    (∃ l, s.chainStopsAt u l) ∨ ∃ a, s.chainComesTo u a ∧ s.continuationAt u a false := by
  have hstop : ∀ a, s.chainComesTo u a → ¬s.fetchable a ∨ s.continuationAt u a true →
      ∃ l, s.chainStopsAt u l := by
    rintro a hcomes (h | h)
    · exact ⟨_, .inl ⟨a, hcomes, h, rfl⟩⟩
    · exact ⟨_, .inr (.inl ⟨a, hcomes, h, rfl⟩)⟩
  have hentry : s.chainComesTo u (s.ctx u).listAddr := .inl rfl
  obtain h | htic | h | h := descriptorAt_cases s u (s.ctx u).listAddr
  · exact .inl (hstop _ hentry (.inl h))
  · have hbehind : s.chainComesTo u (addrOf (s.readWord (s.ctx u).listAddr.toNat)) := .inr ⟨htic, rfl⟩
    obtain h | hsecond | h | h := descriptorAt_cases s u (addrOf (s.readWord (s.ctx u).listAddr.toNat))
    · exact .inl (hstop _ hbehind (.inl h))
    · exact .inl ⟨_, .inr (.inr ⟨htic, hsecond, rfl⟩)⟩
    · exact .inl (hstop _ hbehind (.inr h))
    · exact .inr ⟨_, hbehind, h⟩
  · exact .inl (hstop _ hentry (.inr h))
  · exact .inr ⟨_, hentry, h⟩

/-- A re-entry that answers Error is one of the ways of stopping. -/
theorem exists_chainStopsAt (hdc : (s.ctx u).flags.dc = true) (h : execDataChain u s = (false, t)) :
    ∃ l, s.chainStopsAt u l := by
  obtain hstops | ⟨a, hcomes, hgood⟩ := chain_stops_or_continues s u
  · exact hstops
  · obtain ⟨r, hr, -⟩ := dataChainKeepsTheCommand s u a _ _ hdc hcomes hgood rfl rfl
    rw [h] at hr
    cases hr

/-- Settles O39: the chain stops exactly where it cannot go on, and how it stops is `ChainStopped`. -/
theorem dataChainFailureLeavesTheEndToTheDevice : Obligations.DataChainFailureLeavesTheEndToTheDevice := by
  intro s u
  refine ⟨fun hdc => ⟨fun ⟨t, ht⟩ => exists_chainStopsAt hdc ht, fun ⟨l, hl⟩ => ?_⟩, fun t ht => ?_⟩
  · obtain ⟨t, ht, -⟩ := execDataChain_stops hdc hl
    exact ⟨t, ht⟩
  · obtain ⟨_, hstopped⟩ := chainStopped_of_execDataChain ht
    refine ⟨fun hdc => ?_, ?_, ?_, ?_, ?_, ?_, ?_, hstopped.same.frame, hstopped.same.stack,
      hstopped.same.inputs, hstopped.outputs⟩
    · obtain ⟨l, hl⟩ := exists_chainStopsAt hdc ht
      obtain ⟨r, hr, hrstopped⟩ := execDataChain_stops hdc hl
      rw [ht, Prod.mk.injEq] at hr
      obtain ⟨-, rfl⟩ := hr
      rw [hrstopped.ctx]
      exact hl
    all_goals rw [hstopped.ctx]

end Sys2Proof.Machine
end

section
/-! PROOFS. The two byte helpers: what one call does where the unit is not Busy, with bytes left, at the end
of a descriptor, and at the end of a chained one (spec/40_engine.md R150 to R154). -/

namespace Sys2Proof.Machine

variable {s t : State} {u : UnitId} {b : Byte} {k : Option (State → Bool × State)}

/-! ### What a re-entry that is accepted leaves -/

/-- An accepted descriptor of no bytes transfers no data, so it does not chain on (R127, R128). -/
theorem dc_of_accepted_noCount {cfg : Config} {c : Byte} {addr : Addr} {w2 : CommandWord}
    (hok : descriptorBad cfg c addr w2 = false) (hcount : w2.count = 0) : w2.flags.dc = false := by
  rw [Bool.eq_false_iff, ne_eq, descriptorProgramChecks] at hok
  cases htransfer : isTransfer c with
  | true => exact absurd (.inr (.inr (.inr (.inl ⟨htransfer, hcount⟩)))) hok
  | false =>
    rw [Bool.eq_false_iff]
    exact fun hdc => hok (.inr (.inr (.inl ⟨hdc, htransfer⟩)))

theorem chainPass_noCount (hk : ∀ f ∈ k, ∀ x t, f x = (true, t) →
      (t.ctx u).count = 0 → (t.ctx u).flags.dc = false)
    (h : chainPass u k s = (true, t)) (hcount : (t.ctx u).count = 0) : (t.ctx u).flags.dc = false := by
  unfold chainPass at h
  split at h
  next => cases h
  next w1 w2 y hf =>
    split at h
    · split at h
      next => cases h
      next f => exact hk f rfl _ _ h hcount
    · split at h
      next => cases h
      next hacc =>
        obtain ⟨-, -, hok, rfl⟩ := acceptDescriptor_some hacc
        cases h
        rw [ctx_setCtx_same] at hcount ⊢
        exact dc_of_accepted_noCount hok hcount

theorem execDataChain_noCount (h : execDataChain u s = (true, t)) (hcount : (t.ctx u).count = 0) :
    (t.ctx u).flags.dc = false :=
  chainPass_noCount
    (by
      rintro f hf x r hx
      cases hf
      exact chainPass_noCount (fun f hf => by cases hf) hx) h hcount

theorem execDataChain_busy (h : execDataChain u s = (true, t)) : (t.ctx u).state = .busy := by
  have hkeeps := (execDataChain_keeps u s).2
  rwa [h] at hkeeps

/-! ### The read helper -/

theorem readNextByte_eq_moveByteOut (hbusy : (s.ctx u).state = .busy) (hcount : (s.ctx u).count ≠ 0) :
    readNextByte u s = moveByteOut u s := by
  rw [readNextByte, if_neg (not_not_intro hbusy), if_pos hcount]

theorem readNextByte_end (hbusy : (s.ctx u).state = .busy) (hcount : (s.ctx u).count = 0)
    (hdc : (s.ctx u).flags.dc = false) : readNextByte u s = (.endOfData, s) := by
  simp [readNextByte, hbusy, hcount, hdc]

theorem readNextByte_chained (hbusy : (s.ctx u).state = .busy) (hcount : (s.ctx u).count = 0)
    (hdc : (s.ctx u).flags.dc = true) (h : execDataChain u s = (true, t)) :
    readNextByte u s = readNextByte u t := by
  have hs : readNextByte u s = if (t.ctx u).count ≠ 0 then moveByteOut u t else (.endOfData, t) := by
    simp [readNextByte, hbusy, hcount, hdc, h]
  rw [hs]
  by_cases hmore : (t.ctx u).count = 0
  · rw [if_neg (not_not_intro hmore),
      readNextByte_end (execDataChain_busy h) hmore (execDataChain_noCount h hmore)]
  · rw [if_pos hmore, readNextByte_eq_moveByteOut (execDataChain_busy h) hmore]

theorem readNextByte_chainFailed (hbusy : (s.ctx u).state = .busy) (hcount : (s.ctx u).count = 0)
    (hdc : (s.ctx u).flags.dc = true) (h : execDataChain u s = (false, t)) :
    readNextByte u s = (.error, t) := by
  simp [readNextByte, hbusy, hcount, hdc, h]

theorem moveByteOut_present (h : (s.ctx u).dataAddr.toNat < s.cfg.memSize) :
    moveByteOut u s = (.byte (s.readByte (s.ctx u).dataAddr.toNat), s.setCtx u { s.ctx u with
      dataAddr := (s.ctx u).dataAddr + 1, count := (s.ctx u).count - 1 }) :=
  if_pos ((memOk_iff _ _ _).2 h)

theorem moveByteOut_absent (h : s.cfg.memSize ≤ (s.ctx u).dataAddr.toNat) :
    moveByteOut u s = (.error, programCheckData u s) :=
  if_neg (Bool.eq_false_iff.1 ((memOk_eq_false _ _ _).2 (Nat.lt_succ_of_le h)))

/-- Settles O36: by the count, the chain-data flag and the address. -/
theorem readHelperDeliversTheNextByte : Obligations.ReadHelperDeliversTheNextByte := by
  intro s u hbusy
  refine ⟨fun hcount haddr => ?present, fun hcount haddr => ?absent, readNextByte_end hbusy,
    fun hcount hdc t => ⟨fun h => ?chained, readNextByte_chainFailed hbusy hcount hdc⟩⟩
  case present => rw [readNextByte_eq_moveByteOut hbusy hcount, moveByteOut_present haddr]
  case absent =>
    rw [readNextByte_eq_moveByteOut hbusy hcount, moveByteOut_absent haddr]
    rfl
  case chained =>
    exact ⟨execDataChain_busy h, execDataChain_noCount h, readNextByte_chained hbusy hcount hdc h⟩

/-! ### The write helper -/

theorem writeNextByte_eq_moveByteIn (b : Byte) (hbusy : (s.ctx u).state = .busy)
    (hcount : (s.ctx u).count ≠ 0) : writeNextByte u b s = moveByteIn u b s := by
  rw [writeNextByte, if_neg (not_not_intro hbusy), if_pos hcount]

theorem writeNextByte_end (b : Byte) (hbusy : (s.ctx u).state = .busy) (hcount : (s.ctx u).count = 0)
    (hdc : (s.ctx u).flags.dc = false) : writeNextByte u b s = (.endOfData, s) := by
  simp [writeNextByte, hbusy, hcount, hdc]

theorem writeNextByte_chained (b : Byte) (hbusy : (s.ctx u).state = .busy)
    (hcount : (s.ctx u).count = 0) (hdc : (s.ctx u).flags.dc = true)
    (h : execDataChain u s = (true, t)) : writeNextByte u b s = writeNextByte u b t := by
  have hs : writeNextByte u b s =
      if (t.ctx u).count ≠ 0 then moveByteIn u b t else (.endOfData, t) := by
    simp [writeNextByte, hbusy, hcount, hdc, h]
  rw [hs]
  by_cases hmore : (t.ctx u).count = 0
  · rw [if_neg (not_not_intro hmore),
      writeNextByte_end b (execDataChain_busy h) hmore (execDataChain_noCount h hmore)]
  · rw [if_pos hmore, writeNextByte_eq_moveByteIn b (execDataChain_busy h) hmore]

theorem writeNextByte_chainFailed (b : Byte) (hbusy : (s.ctx u).state = .busy)
    (hcount : (s.ctx u).count = 0) (hdc : (s.ctx u).flags.dc = true)
    (h : execDataChain u s = (false, t)) : writeNextByte u b s = (.error, t) := by
  simp [writeNextByte, hbusy, hcount, hdc, h]

theorem moveByteIn_skipped (b : Byte) (h : (s.ctx u).flags.skip = true) :
    moveByteIn u b s = (.ok, s.setCtx u { s.ctx u with count := (s.ctx u).count - 1 }) :=
  if_pos h

theorem moveByteIn_present (b : Byte) (hskip : (s.ctx u).flags.skip = false)
    (h : (s.ctx u).dataAddr.toNat < s.cfg.memSize) :
    moveByteIn u b s = (.ok, (s.writeByte (s.ctx u).dataAddr.toNat b).setCtx u { s.ctx u with
      dataAddr := nextDataAddr (s.ctx u).cmd (s.ctx u).dataAddr, count := (s.ctx u).count - 1 }) := by
  rw [moveByteIn, hskip]
  exact if_pos ((memOk_iff _ _ _).2 h)

theorem moveByteIn_absent (b : Byte) (hskip : (s.ctx u).flags.skip = false)
    (h : s.cfg.memSize ≤ (s.ctx u).dataAddr.toNat) :
    moveByteIn u b s = (.error, programCheckData u s) := by
  rw [moveByteIn, hskip]
  exact if_neg (Bool.eq_false_iff.1 ((memOk_eq_false _ _ _).2 (Nat.lt_succ_of_le h)))

/-- A byte stored and a context written: nothing else changes. -/
theorem frame_writeByte_setCtx (s : State) (u : UnitId) (a : Nat) (b : Byte) (c : Context) :
    s.Frame ((s.writeByte a b).setCtx u c) (· = a) (· = u) nothing nothing nothing where
  config := rfl
  memory n hn := by rw [setCtx_readByte, readByte_writeByte, if_neg hn]
  contexts v hv := ctx_setCtx_other _ c hv
  queues _ _ := rfl
  channels _ _ := rfl
  levels _ _ := rfl

/-- Settles O37: by the count, the chain-data flag, SKIP and the address. -/
theorem writeHelperStoresTheByte : Obligations.WriteHelperStoresTheByte := by
  intro s u b hbusy
  refine ⟨fun hcount hskip => ?skipped, fun hcount hskip haddr => ?present,
    fun hcount hskip haddr => ?absent, writeNextByte_end b hbusy,
    fun hcount hdc t => ⟨fun h => ?chained, writeNextByte_chainFailed b hbusy hcount hdc⟩⟩
  case skipped => rw [writeNextByte_eq_moveByteIn b hbusy hcount, moveByteIn_skipped b hskip]
  case present =>
    refine ⟨_, (writeNextByte_eq_moveByteIn b hbusy hcount).trans (moveByteIn_present b hskip haddr), ?_,
      ctx_setCtx_same _ u _, frame_writeByte_setCtx s u _ b _, rfl, rfl, rfl⟩
    rw [setCtx_readByte, readByte_writeByte_same]
  case absent =>
    rw [writeNextByte_eq_moveByteIn b hbusy hcount, moveByteIn_absent b hskip haddr]
    rfl
  case chained =>
    exact ⟨execDataChain_busy h, execDataChain_noCount h, writeNextByte_chained b hbusy hcount hdc h⟩

/-- Settles O35: the first test of both helpers is of the transfer-state. -/
theorem helpersOutsideBusyChangeNothing : Obligations.HelpersOutsideBusyChangeNothing :=
  fun _ _ _ h => ⟨if_pos h, if_pos h⟩

end Sys2Proof.Machine
end

section
/-! PROOFS. A data chain over contiguous addresses moves the same bytes as one descriptor of the sum of its
counts (spec/40_engine.md R150 to R153). The two transfers are compared by a relation that each call of a
helper keeps: the chain has as many bytes left, at the same address, as the one descriptor. -/

namespace Sys2Proof.Machine

variable {s t one many one' many' : State} {u : UnitId} {n : Half} {ns : List Half} {len : Nat}

/-! ### The descriptors of a chain in memory -/

/-- The address of the `i`-th descriptor of a list that begins at `l`. -/
def listEntry (l : Addr) (i : Nat) : Addr := l + BitVec.ofNat 24 (8 * i)

theorem listEntry_zero (l : Addr) : listEntry l 0 = l := BitVec.add_zero l

theorem listEntry_next (l : Addr) (i : Nat) : listEntry (l + 8) i = listEntry l (i + 1) := by
  unfold listEntry
  rw [BitVec.add_assoc, Nat.mul_add, Nat.add_comm (8 * i), BitVec.ofNat_add]
  rfl

/-- The first `m` descriptors of the list at `l` are the same bytes in `s` and `t`. -/
def SameList (s t : State) (l : Addr) (m : Nat) : Prop :=
  ∀ i, i < m → ∀ r, r < 8 → t.readByte ((listEntry l i).toNat + r) = s.readByte ((listEntry l i).toNat + r)

theorem readWord_congr {a : Nat} (h : ∀ r, r < 4 → t.readByte (a + r) = s.readByte (a + r)) :
    t.readWord a = s.readWord a := by
  have h0 := h 0 (by omega)
  rw [Nat.add_zero] at h0
  simp only [State.readWord, h0, h 1 (by omega), h 2 (by omega), h 3 (by omega)]

theorem SameList.words {l : Addr} {m i : Nat} (h : SameList s t l m) (hi : i < m) :
    t.readWord (listEntry l i).toNat = s.readWord (listEntry l i).toNat ∧
      t.readWord ((listEntry l i).toNat + 4) = s.readWord ((listEntry l i).toNat + 4) :=
  ⟨readWord_congr fun r hr => h i hi r (by omega),
    readWord_congr fun r hr => by rw [Nat.add_assoc]; exact h i hi (4 + r) (by omega)⟩

theorem SameList.tail {l : Addr} {m : Nat} (h : SameList s t l (m + 1)) : SameList s t (l + 8) m := by
  intro i hi r hr
  rw [listEntry_next]
  exact h (i + 1) (by omega) r hr

/-- Whether descriptors continue a chain is a matter of their own bytes. -/
theorem SameList.chainAt {l a : Addr} (hcfg : t.cfg = s.cfg) (h : SameList s t l ns.length)
    (hs : s.ChainAt l a ns) : t.ChainAt l a ns := by
  induction ns generalizing l a with
  | nil => trivial
  | cons n ns ih =>
    obtain ⟨h1, h2⟩ := h.words (Nat.succ_pos ns.length)
    rw [listEntry_zero] at h1 h2
    obtain ⟨haligned, hpresent, hclass, haddr, hreserved, hcount, hne, hdc, hrest⟩ := hs
    refine ⟨haligned, by rw [hcfg]; exact hpresent, ?_, ?_, ?_, ?_, hne, ?_, ih h.tail hrest⟩
    · rw [h1]; exact hclass
    · rw [h1]; exact haddr
    · rw [h2]; exact hreserved
    · rw [h2]; exact hcount
    · rw [h2]; exact hdc

theorem totalCount_cons (n : Half) (ns : List Half) : totalCount (n :: ns) = n.toNat + totalCount ns := by
  simp [totalCount]

/-! ### The relation between the two transfers -/

/-- Unit `u` has in `one` a descriptor with as many bytes left as it has in `many` with the current
descriptor and those of the counts `ns` that are still to be fetched, from the same address on. -/
structure SameTransfer (u : UnitId) (one many : State) (ns : List Half) : Prop where
  cfg : one.cfg = many.cfg
  memory : ∀ a, one.readByte a = many.readByte a
  busyOne : (one.ctx u).state = .busy
  busyMany : (many.ctx u).state = .busy
  dataAddr : (one.ctx u).dataAddr = (many.ctx u).dataAddr
  transfer : isTransfer (many.ctx u).cmd = true
  count : (one.ctx u).count.toNat = (many.ctx u).count.toNat + totalCount ns
  chained : (many.ctx u).flags.dc = true ↔ ns ≠ []
  chain : many.ChainAt (many.ctx u).listAddr
    ((many.ctx u).dataAddr + (many.ctx u).count.setWidth 24) ns

/-- A non-zero count of a transfer command passes the checks, where no reserved bit is set (R125 to R129). -/
theorem descriptorOk_of_transfer {cfg : Config} {c : Byte} {addr : Addr} {w2 : CommandWord}
    (htransfer : isTransfer c = true) (hreserved : w2.reserved = 0) (hcount : w2.count ≠ 0) :
    descriptorBad cfg c addr w2 = false := by
  have hclass := (isTransfer_iff c).1 htransfer
  rw [Bool.eq_false_iff, ne_eq, descriptorProgramChecks]
  rintro (h | h | ⟨-, h⟩ | ⟨-, h⟩ | ⟨h, -⟩)
  · exact h hreserved
  · rw [h] at hclass; simp at hclass
  · rw [htransfer] at h; cases h
  · exact hcount h
  · rw [h] at hclass; simp at hclass

/-- At the end of a descriptor the chain comes to the next, which is accepted (R152). -/
theorem SameTransfer.reenter (h : SameTransfer u one many (n :: ns)) (hend : (many.ctx u).count = 0) :
    ∃ t, execDataChain u many = (true, t) ∧ SameTransfer u one t ns ∧ (t.ctx u).count ≠ 0 ∧
      (∀ a, t.readByte a = many.readByte a) ∧ (t.ctx u).cmd = (many.ctx u).cmd ∧
      (t.ctx u).dataAddr = (many.ctx u).dataAddr ∧
      (t.ctx u).listAddr = (many.ctx u).listAddr + 8 ∧
      (t.ctx u).flags =
        (decodeCommandWord (many.readWord ((many.ctx u).listAddr.toNat + 4))).flags := by
  obtain ⟨haligned, hpresent, hclass, haddr, hreserved, hcount, hne, hdc, hrest⟩ := h.chain
  have hhere : (many.ctx u).dataAddr + (many.ctx u).count.setWidth 24 = (many.ctx u).dataAddr := by
    rw [hend]
    exact BitVec.add_zero _
  rw [hhere] at haddr hrest
  have hgood : many.continuationAt u (many.ctx u).listAddr false :=
    ⟨(fetchable_iff _ _).2 (by rw [haligned, hpresent]; rfl), hclass,
      descriptorOk_of_transfer h.transfer hreserved (by rw [hcount]; exact hne)⟩
  obtain ⟨t, ht, hctx, hframe, -⟩ := dataChainKeepsTheCommand many u (many.ctx u).listAddr _ _
    (h.chained.2 (List.cons_ne_nil n ns)) (.inl rfl) hgood rfl rfl
  have hmem : ∀ a, t.readByte a = many.readByte a := fun a => hframe.memory a id
  have hsame : SameTransfer u one t ns :=
    { cfg := h.cfg.trans hframe.config.symm
      memory := fun a => (h.memory a).trans (hmem a).symm
      busyOne := h.busyOne
      busyMany := by rw [hctx]
      dataAddr := by rw [hctx, h.dataAddr, haddr]
      transfer := by rw [hctx]; exact h.transfer
      count := by rw [hctx, h.count, hend, totalCount_cons, hcount]; simp
      chained := by rw [hctx]; exact hdc
      chain := by
        rw [hctx, hcount, haddr]
        exact SameList.chainAt hframe.config (fun i _ r _ => hmem _) hrest }
  refine ⟨t, ht, hsame, ?_, hmem, ?_, ?_, ?_, ?_⟩ <;> rw [hctx]
  · rw [hcount]; exact hne
  · exact haddr

/-- Where bytes are left and the current descriptor of the chain has none, another descriptor follows. -/
theorem SameTransfer.exists_next (h : SameTransfer u one many ns) (hleft : 0 < (one.ctx u).count.toNat)
    (hend : (many.ctx u).count = 0) : ∃ n ms, ns = n :: ms := by
  cases ns with
  | nil =>
    have hcount := h.count
    rw [hend] at hcount
    simp [totalCount] at hcount
    omega
  | cons n ms => exact ⟨n, ms, rfl⟩

theorem toNat_sub_one {w : Nat} {c : BitVec w} (h : c ≠ 0) : (c - 1).toNat = c.toNat - 1 := by
  have hpos : 1 ≤ c.toNat := Nat.one_le_iff_ne_zero.2 fun e => h (BitVec.eq_of_toNat_eq (by simpa using e))
  have hone : (1 : BitVec w).toNat = 1 := by
    have hw : 1 < 2 ^ w := Nat.lt_of_le_of_lt hpos c.isLt
    simp [Nat.mod_eq_of_lt hw]
  rw [BitVec.toNat_sub_of_le (by rw [BitVec.le_def, hone]; exact hpos), hone]

/-- Where the chain's current descriptor has bytes left, so has the one descriptor. -/
theorem SameTransfer.left_of_left (h : SameTransfer u one many ns) (hleft : (many.ctx u).count ≠ 0) :
    (one.ctx u).count ≠ 0 := by
  intro e
  have hcount := h.count
  rw [e] at hcount
  exact hleft (BitVec.eq_of_toNat_eq (by simp at hcount ⊢; omega))

/-- A byte moved upward leaves the address after the descriptor's last byte as it is. -/
theorem endAddr_afterByte (a : Addr) {c : Half} (h : c ≠ 0) :
    a + 1 + (c - 1).setWidth 24 = a + c.setWidth 24 := by
  have hlt := c.isLt
  have hpos : c.toNat ≠ 0 := fun e => h (BitVec.eq_of_toNat_eq e)
  have hone : (1 : Addr).toNat = 1 := rfl
  apply BitVec.eq_of_toNat_eq
  simp only [BitVec.toNat_add, BitVec.toNat_setWidth, toNat_sub_one h, hone]
  omega

/-- One byte has moved in both transfers (R150, R151). -/
theorem SameTransfer.afterByte (h : SameTransfer u one many ns) (hleft : (many.ctx u).count ≠ 0)
    (hone : one'.ctx u = { one.ctx u with
      dataAddr := (one.ctx u).dataAddr + 1, count := (one.ctx u).count - 1 })
    (hmany : many'.ctx u = { many.ctx u with
      dataAddr := (many.ctx u).dataAddr + 1, count := (many.ctx u).count - 1 })
    (hcfgOne : one'.cfg = one.cfg) (hcfgMany : many'.cfg = many.cfg)
    (hmemory : ∀ a, one'.readByte a = many'.readByte a)
    (hlist : SameList many many' (many.ctx u).listAddr ns.length) : SameTransfer u one' many' ns where
  cfg := by rw [hcfgOne, hcfgMany, h.cfg]
  memory := hmemory
  busyOne := by rw [hone]; exact h.busyOne
  busyMany := by rw [hmany]; exact h.busyMany
  dataAddr := by rw [hone, hmany, h.dataAddr]
  transfer := by rw [hmany]; exact h.transfer
  count := by
    have hcount := h.count
    have hpos : (many.ctx u).count.toNat ≠ 0 := fun e => hleft (BitVec.eq_of_toNat_eq e)
    rw [hone, hmany, toNat_sub_one (h.left_of_left hleft), toNat_sub_one hleft]
    omega
  chained := by rw [hmany]; exact h.chained
  chain := by
    rw [hmany, endAddr_afterByte _ hleft]
    exact SameList.chainAt hcfgMany hlist h.chain

/-! ### The read helper -/

/-- A byte to move at an absent address is answered by an error, again and again (R150). -/
theorem readAnswers_absent (k : Nat) (hbusy : (s.ctx u).state = .busy) (hleft : (s.ctx u).count ≠ 0)
    (habsent : s.cfg.memSize ≤ (s.ctx u).dataAddr.toNat) :
    readAnswers u k s = List.replicate k .error := by
  induction k generalizing s with
  | zero => rfl
  | succ k ih =>
    have hctx : (programCheckData u s).ctx u = stopChaining (mergeStatus stPchk (s.ctx u)) :=
      ctx_setCtx_same s u _
    rw [readAnswers, readNextByte_eq_moveByteOut hbusy hleft, moveByteOut_absent habsent,
      ih (by rw [hctx]; exact hbusy) (by rw [hctx]; exact hleft) (by rw [hctx]; exact habsent),
      List.replicate_succ]

/-- The chain can be taken to have bytes left in its current descriptor. -/
theorem SameTransfer.readsAt (h : SameTransfer u one many ns) (hleft : 0 < (one.ctx u).count.toNat) :
    ∃ t ms, SameTransfer u one t ms ∧ (t.ctx u).count ≠ 0 ∧ readNextByte u many = readNextByte u t := by
  by_cases hend : (many.ctx u).count = 0
  · obtain ⟨n, ms, rfl⟩ := h.exists_next hleft hend
    obtain ⟨t, ht, hsame, hmore, -⟩ := h.reenter hend
    exact ⟨t, ms, hsame, hmore, readNextByte_chained h.busyMany hend
      (h.chained.2 (List.cons_ne_nil n ms)) ht⟩
  · exact ⟨many, ns, h, hend, rfl⟩

theorem SameTransfer.readAnswers_eq (k : Nat) (h : SameTransfer u one many ns)
    (hk : k ≤ (one.ctx u).count.toNat) : readAnswers u k one = readAnswers u k many := by
  induction k generalizing one many ns with
  | zero => rfl
  | succ k ih =>
    obtain ⟨t, ms, hsame, hleft, hreads⟩ := h.readsAt (Nat.lt_of_lt_of_le (Nat.succ_pos k) hk)
    have hleftOne := hsame.left_of_left hleft
    have hmany : readAnswers u (k + 1) many = readAnswers u (k + 1) t := by
      rw [readAnswers, readAnswers, hreads]
    rw [hmany]
    by_cases hpresent : (one.ctx u).dataAddr.toNat < one.cfg.memSize
    · have hpresentT : (t.ctx u).dataAddr.toNat < t.cfg.memSize := by
        rw [← hsame.dataAddr, ← hsame.cfg]; exact hpresent
      rw [readAnswers, readAnswers, readNextByte_eq_moveByteOut hsame.busyOne hleftOne,
        readNextByte_eq_moveByteOut hsame.busyMany hleft, moveByteOut_present hpresent,
        moveByteOut_present hpresentT, ← hsame.dataAddr, hsame.memory]
      have hnext := hsame.afterByte hleft (ctx_setCtx_same one u _) (ctx_setCtx_same t u _) rfl rfl
        hsame.memory fun _ _ _ _ => rfl
      rw [← hsame.dataAddr] at hnext
      rw [ih hnext (by rw [ctx_setCtx_same, toNat_sub_one hleftOne]; omega)]
    · have habsent : one.cfg.memSize ≤ (one.ctx u).dataAddr.toNat := Nat.not_lt.1 hpresent
      rw [readAnswers_absent _ hsame.busyOne hleftOne habsent, readAnswers_absent _ hsame.busyMany hleft
        (by rw [← hsame.dataAddr, ← hsame.cfg]; exact habsent)]

/-! ### The write helper -/

/-- The two transfers, where `len` bytes more go to memory, upward, and none of them to a descriptor still
to be fetched (R74, R151). -/
structure SameStores (u : UnitId) (one many : State) (ns : List Half) (len : Nat) : Prop
    extends SameTransfer u one many ns where
  upwardOne : classOf (one.ctx u).cmd ≠ .rdbwd
  upwardMany : classOf (many.ctx u).cmd ≠ .rdbwd
  storedOne : (one.ctx u).flags.skip = false
  storedMany : (many.ctx u).flags.skip = false
  storedNext : ∀ i, i < ns.length → (decodeCommandWord
    (many.readWord ((listEntry (many.ctx u).listAddr i).toNat + 4))).flags.skip = false
  apart : ∀ j, j < len → ∀ i, i < ns.length → ∀ r, r < 8 →
    ((many.ctx u).dataAddr + BitVec.ofNat 24 j).toNat ≠ (listEntry (many.ctx u).listAddr i).toNat + r

/-- The chain can be taken to have bytes left in its current descriptor. -/
theorem SameStores.storesAt (h : SameStores u one many ns len) (hleft : 0 < (one.ctx u).count.toNat) :
    ∃ t ms, SameStores u one t ms len ∧ (t.ctx u).count ≠ 0 ∧
      ∀ b, writeNextByte u b many = writeNextByte u b t := by
  by_cases hend : (many.ctx u).count = 0
  · obtain ⟨n, ms, rfl⟩ := h.exists_next hleft hend
    obtain ⟨t, ht, hsame, hmore, hmem, hcmd, haddr, hlist, hflags⟩ := h.reenter hend
    have hword : ∀ a, t.readWord a = many.readWord a := fun a => readWord_congr fun r _ => hmem (a + r)
    refine ⟨t, ms, ⟨hsame, h.upwardOne, by rw [hcmd]; exact h.upwardMany, h.storedOne, ?_,
      fun i hi => ?_, fun j hj i hi r hr => ?_⟩, hmore, fun b => writeNextByte_chained b h.busyMany hend
        (h.chained.2 (List.cons_ne_nil n ms)) ht⟩
    · have hnext := h.storedNext 0 (Nat.succ_pos ms.length)
      rw [listEntry_zero] at hnext
      rw [hflags, hnext]
    · rw [hword, hlist, listEntry_next]
      exact h.storedNext (i + 1) (Nat.succ_lt_succ hi)
    · rw [haddr, hlist, listEntry_next]
      exact h.apart j hj (i + 1) (Nat.succ_lt_succ hi) r hr
  · exact ⟨many, ns, h, hend, fun _ => rfl⟩

/-- The state after a byte stored by the write helper, for a command that is not read backward. -/
def storedByte (u : UnitId) (b : Byte) (s : State) : State :=
  (s.writeByte (s.ctx u).dataAddr.toNat b).setCtx u { s.ctx u with
    dataAddr := (s.ctx u).dataAddr + 1, count := (s.ctx u).count - 1 }

theorem writeNextByte_stores (b : Byte) (hbusy : (s.ctx u).state = .busy) (hleft : (s.ctx u).count ≠ 0)
    (hskip : (s.ctx u).flags.skip = false) (hup : classOf (s.ctx u).cmd ≠ .rdbwd)
    (hpresent : (s.ctx u).dataAddr.toNat < s.cfg.memSize) :
    writeNextByte u b s = (.ok, storedByte u b s) := by
  rw [writeNextByte_eq_moveByteIn b hbusy hleft, moveByteIn_present b hskip hpresent, nextDataAddr,
    if_neg hup]
  rfl

theorem readByte_storedByte (u : UnitId) (b : Byte) (s : State) (a : Nat) :
    (storedByte u b s).readByte a = if a = (s.ctx u).dataAddr.toNat then b else s.readByte a :=
  readByte_writeByte s _ a b

/-- One byte has been stored in both transfers. -/
theorem SameStores.afterByte (h : SameStores u one many ns (len + 1)) (hleft : (many.ctx u).count ≠ 0)
    (b : Byte) : SameStores u (storedByte u b one) (storedByte u b many) ns len := by
  have hone : (storedByte u b one).ctx u = _ := ctx_setCtx_same _ u _
  have hmany : (storedByte u b many).ctx u = _ := ctx_setCtx_same _ u _
  have hlist : SameList many (storedByte u b many) (many.ctx u).listAddr ns.length := by
    intro i hi r hr
    have hapart := h.apart 0 (Nat.succ_pos len) i hi r hr
    rw [BitVec.add_zero] at hapart
    rw [readByte_storedByte, if_neg hapart.symm]
  have hmemory : ∀ a, (storedByte u b one).readByte a = (storedByte u b many).readByte a := by
    intro a
    rw [readByte_storedByte, readByte_storedByte, h.dataAddr, h.memory]
  refine ⟨h.toSameTransfer.afterByte hleft hone hmany rfl rfl hmemory hlist, ?_, ?_, ?_, ?_,
    fun i hi => ?_, fun j hj i hi r hr => ?_⟩
  · rw [hone]; exact h.upwardOne
  · rw [hmany]; exact h.upwardMany
  · rw [hone]; exact h.storedOne
  · rw [hmany]; exact h.storedMany
  · rw [hmany, (hlist.words hi).2]
    exact h.storedNext i hi
  · have hnext : (many.ctx u).dataAddr + 1 + BitVec.ofNat 24 j =
        (many.ctx u).dataAddr + BitVec.ofNat 24 (j + 1) := by
      rw [BitVec.add_assoc, Nat.add_comm j 1, BitVec.ofNat_add]
      rfl
    rw [hmany, hnext]
    exact h.apart (j + 1) (Nat.succ_lt_succ hj) i hi r hr

/-- Bytes for an absent address are answered by errors, and no byte of memory changes (R151). -/
theorem writeAnswers_absent (bs : List Byte) (hbusy : (s.ctx u).state = .busy)
    (hleft : (s.ctx u).count ≠ 0) (hskip : (s.ctx u).flags.skip = false)
    (habsent : s.cfg.memSize ≤ (s.ctx u).dataAddr.toNat) :
    writeAnswers u bs s = List.replicate bs.length .error ∧
      ∀ a, (afterWrites u bs s).readByte a = s.readByte a := by
  induction bs generalizing s with
  | nil => exact ⟨rfl, fun _ => rfl⟩
  | cons b bs ih =>
    have hctx : (programCheckData u s).ctx u = stopChaining (mergeStatus stPchk (s.ctx u)) :=
      ctx_setCtx_same s u _
    obtain ⟨hanswers, hmemory⟩ := ih (s := programCheckData u s) (by rw [hctx]; exact hbusy)
      (by rw [hctx]; exact hleft) (by rw [hctx]; exact hskip) (by rw [hctx]; exact habsent)
    rw [writeAnswers, afterWrites, writeNextByte_eq_moveByteIn b hbusy hleft,
      moveByteIn_absent b hskip habsent, hanswers]
    exact ⟨rfl, hmemory⟩

theorem SameStores.writes_eq (bs : List Byte) (h : SameStores u one many ns bs.length)
    (hbs : bs.length ≤ (one.ctx u).count.toNat) :
    writeAnswers u bs one = writeAnswers u bs many ∧
      ∀ a, (afterWrites u bs one).readByte a = (afterWrites u bs many).readByte a := by
  induction bs generalizing one many ns with
  | nil => exact ⟨rfl, h.memory⟩
  | cons b bs ih =>
    obtain ⟨t, ms, hsame, hleft, hwrites⟩ := h.storesAt (Nat.lt_of_lt_of_le (Nat.succ_pos bs.length) hbs)
    have hleftOne := hsame.left_of_left hleft
    have hanswers : writeAnswers u (b :: bs) many = writeAnswers u (b :: bs) t := by
      rw [writeAnswers, writeAnswers, hwrites]
    have hafter : afterWrites u (b :: bs) many = afterWrites u (b :: bs) t := by
      rw [afterWrites, afterWrites, hwrites]
    rw [hanswers, hafter]
    by_cases hpresent : (one.ctx u).dataAddr.toNat < one.cfg.memSize
    · have hpresentT : (t.ctx u).dataAddr.toNat < t.cfg.memSize := by
        rw [← hsame.dataAddr, ← hsame.cfg]; exact hpresent
      have hcount : ((storedByte u b one).ctx u).count.toNat = (one.ctx u).count.toNat - 1 := by
        rw [storedByte, ctx_setCtx_same, toNat_sub_one hleftOne]
      obtain ⟨hrest, hmemory⟩ := ih (hsame.afterByte hleft b)
        (by rw [hcount]; rw [List.length_cons] at hbs; omega)
      simp only [writeAnswers, afterWrites,
        writeNextByte_stores b hsame.busyOne hleftOne hsame.storedOne hsame.upwardOne hpresent,
        writeNextByte_stores b hsame.busyMany hleft hsame.storedMany hsame.upwardMany hpresentT]
      exact ⟨congrArg _ hrest, hmemory⟩
    · have habsent : one.cfg.memSize ≤ (one.ctx u).dataAddr.toNat := Nat.not_lt.1 hpresent
      obtain ⟨hanswersOne, hmemoryOne⟩ :=
        writeAnswers_absent (b :: bs) hsame.busyOne hleftOne hsame.storedOne habsent
      obtain ⟨hanswersT, hmemoryT⟩ :=
        writeAnswers_absent (b :: bs) hsame.busyMany hleft hsame.storedMany
          (by rw [← hsame.dataAddr, ← hsame.cfg]; exact habsent)
      refine ⟨hanswersOne.trans hanswersT.symm, fun a => ?_⟩
      rw [hmemoryOne, hmemoryT, hsame.memory]

/-- Settles O40: the relation holds at the start, and each call of a helper keeps it. -/
theorem chainedTransfersMoveTheSameBytes : Obligations.ChainedTransfersMoveTheSameBytes := by
  intro s1 s2 u n ns hcfg hmemory hbusy1 hbusy2 haddr htransfer hcount1 _ hcount2 hdc hchain
  have hsame : SameTransfer u s1 s2 ns :=
    ⟨hcfg, hmemory, hbusy1, hbusy2, haddr, htransfer, by rw [hcount1, hcount2, totalCount_cons], hdc,
      by rw [hcount2]; exact hchain⟩
  refine ⟨fun k hk => hsame.readAnswers_eq k (by rw [hcount1]; exact hk),
    fun bs hbs hup1 hup2 hskip1 hskip2 hskips hapart => ?_⟩
  have hstores : SameStores u s1 s2 ns bs.length :=
    { hsame with
      upwardOne := hup1, upwardMany := hup2, storedOne := hskip1, storedMany := hskip2,
      storedNext := hskips, apart := hapart }
  exact hstores.writes_eq bs (by rw [hcount1]; exact hbs)

end Sys2Proof.Machine
end

section
/-! PROOFS. The channel end, by what it finds in the unit's context: a wait for device end, the resumption
of a chained list, or the end of the program with one record (spec/41_status_posting.md R170 to R176). -/

namespace Sys2Proof.Machine

variable {s : State} {u : UnitId} {extra : Half} {c : Context}

/-- A channel end of an idle unit is ignored (R170). -/
theorem channelEnd_empty (extra : Half) (h : (s.ctx u).state = .empty) : channelEnd u extra s = .ok s := by
  simp [channelEnd, channelEndCore, h, Except.map, resume]

/-- A channel end of a unit with a program goes on from `endedContext` (R170, R172). -/
theorem channelEnd_eq_resume (extra : Half)
    (h : (s.ctx u).state = .busy ∨ (s.ctx u).state = .channelEndPending) :
    channelEnd u extra s =
      .ok (resume u (channelEndFrom u (endedContext extra (s.ctx u)) s)) := by
  have hcore : channelEndCore u extra s =
      .ok (channelEndFrom u (lengthCheck (mergeStatus (extra ||| stCe) (s.ctx u))) s) := by
    rcases h with h | h <;> simp only [channelEndCore, h]
  rw [channelEnd, hcore, lengthCheck_eq]
  rfl

/-- A channel end adds no bits but those signalled, CE and the incorrect length (R170, R172). -/
theorem endedContext_status_eq_zero {m : Half} (hce : stCe &&& m = 0) (hlength : stLength &&& m = 0)
    (h : (c.status ||| extra) &&& m = 0) : (endedContext extra c).status &&& m = 0 := by
  have hmerged : (c.status ||| extra ||| stCe) &&& m = 0 := (or_and_eq_zero _ _ _).2 ⟨h, hce⟩
  unfold endedContext
  split_ifs
  · exact (or_and_eq_zero _ _ _).2 ⟨hmerged, hlength⟩
  · exact hmerged
  · exact hmerged

/-- Without device end the unit waits for it (R173). -/
theorem channelEnd_waits (h : (s.ctx u).state = .busy ∨ (s.ctx u).state = .channelEndPending)
    (hde : (endedContext extra (s.ctx u)).status &&& stDe = 0) :
    channelEnd u extra s =
      .ok (s.setCtx u { endedContext extra (s.ctx u) with state := .channelEndPending }) := by
  rw [channelEnd_eq_resume extra h, channelEndFrom, (anyBit_eq_false _ _).2 hde]
  rfl

/-- Settles O31: neither CE nor the incorrect length is device end, so the signal alone decides whether the
unit waits. -/
theorem channelEndWithoutDeviceEndWaits : Obligations.ChannelEndWithoutDeviceEndWaits := fun _ _ extra =>
  ⟨channelEnd_empty extra,
    fun hstate hde => channelEnd_waits hstate (endedContext_status_eq_zero (by decide) (by decide) hde)⟩

/-- Settles O32: where chain-command is still set, the length check has left all but the status alone. -/
theorem channelEndResumesTheChain : Obligations.ChannelEndResumesTheChain := by
  intro s u extra hstate hde hcc habort
  rw [channelEnd_chains s hstate hde hcc habort]
  simp only [endedContext_of_cc hcc]

/-- Settles O33: the state in which the program has ended is the one that `finishProgram` leaves. -/
theorem channelEndFinishesTheProgram : Obligations.ChannelEndFinishesTheProgram :=
  fun s u _ hstate hde hstop =>
    ⟨_, channelEnd_finishes s hstate hde hstop, finishProgram_ended s u _, finishProgram_outputs s u _⟩

end Sys2Proof.Machine
end

section
/-! PROOFS. A record put into a Status FIFO, and a record taken from one: the effects of the two pushes,
where a post fails, and the order in which posts use the slots of the status buffer
(spec/41_status_posting.md R178 to R182, spec/43_arbitration.md R231, spec/10_state.md R33). -/

namespace Sys2Proof.Machine

variable {s t : State} {ch : Nat} {mask : Half}

/-! ### Putting a record in -/

/-- A channel changed and its level notified: what both pushes do where there is room (R178, R182, R231). -/
theorem notified_setChan (s : State) (ch : Nat) (c : Channel) {t : State}
    (ht : t = (s.setChan ch c).onChannelLevel ch requestUnlessActive) :
    t.chan ch = c ∧ s.LevelNotified t ch ∧
      s.Frame t nothing nothing nothing (· = ch) (channelOwns s.cfg ch · = true) := by
  subst ht
  have hlevel (l : Nat) : ((s.setChan ch c).onChannelLevel ch requestUnlessActive).lvl l =
      if channelOwns s.cfg ch l = true then requestUnlessActive (s.lvl l) else s.lvl l := by
    rw [lvl_onChannelLevel, setChan_cfg, setChan_lvl]
  refine ⟨by simp, fun l => ?notified, ?frame⟩
  case notified =>
    rw [hlevel]
    cases hactive : (s.lvl l).active <;> simp [requestUnlessActive, hactive]
  case frame =>
    exact
      { config := by simp
        memory := fun a _ => by simp
        contexts := fun u _ => by simp
        queues := fun u _ => by simp
        channels := fun k hk => by rw [onChannelLevel_chan, chan_setChan, if_neg hk]
        levels := fun l hl => by rw [hlevel, if_neg hl] }

/-- Settles O41: both pushes change the channel and notify its level, or drop the record and count it. -/
theorem recordsAreQueuedOrCounted : Obligations.RecordsAreQueuedOrCounted := by
  refine fun s ch r => ⟨fun hroom => ⟨?stored, ?pushed⟩, fun hfull => ?dropped⟩
  case stored => exact ⟨_, if_pos hroom, notified_setChan s ch _ rfl⟩
  case pushed => exact ⟨_, if_pos hroom, notified_setChan s ch _ rfl⟩
  case dropped => exact ⟨if_neg (Nat.not_lt.2 hfull), if_neg (Nat.not_lt.2 hfull)⟩

/-! ### Taking a record out -/

theorem slotUsable_eq_false (cfg : Config) (c : Channel) : slotUsable cfg c = false ↔
    c.inchValid = false ∨ c.inchCur.toNat % 4 ≠ 0 ∨ cfg.memSize < c.inchCur.toNat + 8 := by
  rw [Bool.eq_false_iff, ne_eq, slotUsable_iff, not_and_or, not_and_or, Bool.not_eq_true, Nat.not_le]

/-- Settles O43: a post fails without a record or without a usable slot. -/
theorem postFailsWithoutRecordOrSlot : Obligations.PostFailsWithoutRecordOrSlot := fun s ch _ => by
  rw [postStatus_none, slotUsable_eq_false]

/-- The channel after a successful post: the record is gone and the write pointer has moved on (R180). -/
theorem postStatus_chan (h : postStatus ch mask s = some t) :
    (s.chan ch).inchValid = true ∧
      ∃ q, t.chan ch = { s.chan ch with fifo := q, inchCur := nextSlot (s.chan ch) } := by
  obtain ⟨-, q, -, hslot, -, -, -, -, -, -, -, hchans, -⟩ := postStatus_some h
  obtain ⟨hvalid, -⟩ := (slotUsable_iff _ _).1 hslot
  exact ⟨hvalid, q, (congrArg (tableGet Channel.powerOn ch) hchans).trans (chan_setChan_same s ch _)⟩

/-- In a sound range the write pointer is one of the slots from the base to the high-water mark (R33). -/
theorem exists_slot {n : Nat} {c : Channel} (h : inchRangeOk n c) (hvalid : c.inchValid = true) :
    ∃ k slots : Nat, k < slots ∧ c.inchCur.toNat = c.inchBase.toNat + 8 * k ∧
      c.inchHwm.toNat + 8 = c.inchBase.toNat + 8 * slots ∧ c.inchHwm.toNat + 8 ≤ n := by
  obtain ⟨-, hhwm, ⟨last, hlast⟩, hcur, hle, ⟨k, hk⟩, hend⟩ := h hvalid
  exact ⟨k, last + 1, by omega, by omega, by omega, hend⟩

/-- The slot after slot `k` of `slots` is the next one, and the first after the last (R181). A range that
ends in the address space keeps the pointer from wrapping. -/
theorem nextSlot_toNat {c : Channel} {k slots : Nat} (hk : k < slots)
    (hcur : c.inchCur.toNat = c.inchBase.toNat + 8 * k)
    (hhwm : c.inchHwm.toNat + 8 = c.inchBase.toNat + 8 * slots)
    (hend : c.inchHwm.toNat + 8 ≤ 2 ^ 24) :
    (nextSlot c).toNat = c.inchBase.toNat + 8 * ((k + 1) % slots) := by
  by_cases hlast : k + 1 = slots
  · rw [nextSlot, if_pos (by omega), hlast, Nat.mod_self, Nat.mul_zero, Nat.add_zero]
  · have hsum : (c.inchCur + 8).toNat = c.inchCur.toNat + 8 :=
      BitVec.toNat_add_of_lt (show c.inchCur.toNat + 8 < 2 ^ 24 by omega)
    rw [nextSlot, if_neg (by omega), hsum, Nat.mod_eq_of_lt (by omega)]
    omega

/-- Settles O44: the pointer is at a slot of the range, and a post moves it to the slot after. -/
theorem slotsGoRoundRobin : Obligations.SlotsGoRoundRobin := by
  intro s t ch mask hwf hrange hpost
  obtain ⟨hvalid, q, hchan⟩ := postStatus_chan hpost
  obtain ⟨k, slots, hk, hcur, hhwm, hend⟩ := exists_slot hrange hvalid
  refine ⟨k, slots, hk, hcur, hhwm, ?_⟩
  rw [hchan]
  exact ⟨nextSlot_toNat hk hcur hhwm (hend.trans (memSize_le hwf)), rfl, rfl⟩

end Sys2Proof.Machine
end

section
/-! PROOFS. The Pending-Start Queue: an address goes in at the back while the queue has room, and the address
at the front comes out (spec/42_pending_start.md R210 to R212). -/

namespace Sys2Proof.Machine

variable {s : State} {u : UnitId}

/-- Below its capacity the queue takes the address at the back (R211). -/
theorem enqueue_of_room (a : Addr) (hroom : (s.psq u).length < s.cfg.psqCap) :
    enqueue u a s = some (s.setPsq u (s.psq u ++ [a])) :=
  if_pos hroom

/-- The answer is Full exactly where the queue has no room left, whatever the address (R211). -/
theorem enqueue_eq_none (a : Addr) :
    enqueue u a s = none ↔ s.cfg.psqCap ≤ (s.psq u).length := by
  rw [enqueue, ite_eq_right_iff, ← Nat.not_lt]
  exact forall_congr' fun _ => iff_of_false (Option.some_ne_none _) id

/-- Settles O45: `enqueue` appends or answers Full, by the room left, and `dequeue` takes the head. -/
theorem pendingStartsAreFifo : Obligations.PendingStartsAreFifo := by
  refine fun s u a => ⟨?appended, ?full, ?taken⟩
  case appended => exact enqueue_of_room a
  case full => exact (enqueue_eq_none a).2
  case taken => exact fun q hpsq hqueue => (dequeue_eq_some s u).2 ⟨hpsq, q, hqueue, rfl⟩

end Sys2Proof.Machine
end

section
/-! PROOFS. The arbitration of interrupt levels: what an event of a simple source raises, which level a scan
finds, and what its dispatch changes (spec/43_arbitration.md R230, R235, R240 to R246). -/

namespace Sys2Proof.Machine

variable {s t : State} {cfg : Config} {ch k l : Nat} {mask : Half}

/-! ### Events of simple sources -/

/-- An event counts only at a usable level of a simple source (R230, R235). -/
theorem raiseLevel_ignored (h : levelUsable s.cfg l = true → (levelCfg s.cfg l).owner ≠ .simple) :
    raiseLevel l s = s :=
  if_neg fun hl => by
    rw [Bool.and_eq_true, beq_iff_eq] at hl
    exact h hl.1 hl.2

/-- Settles O58: the check of `raiseLevel` passes for a configured level of a simple source alone. -/
theorem simpleSourcesRaiseTheirLevel : Obligations.SimpleSourcesRaiseTheirLevel := by
  refine fun s l => ⟨fun hrange hconf howner => ?raised, fun ch howner => ?channels, fun hconf => ?unused⟩
  case raised => exact if_pos (by simp [levelUsable, hrange, hconf, howner])
  case channels => exact raiseLevel_ignored fun _ => by simp [howner]
  case unused =>
    exact raiseLevel_ignored fun husable => by simp [levelCfg_configured_of_usable husable] at hconf

/-! ### The level a scan finds -/

/-- The levels that the scan comes to and may dispatch are the eligible ones (R240). -/
theorem eligible_iff : s.Eligible l ↔ l < s.cfg.numLevels ∧ dispatchable s l = true := by
  simp [State.Eligible, dispatchable, and_assoc]

theorem scanFinds_eq_none (h : ∀ l, ¬s.Eligible l) : scanFinds s = none :=
  List.find?_eq_none.2 fun l hl hd => h l (eligible_iff.2 ⟨List.mem_range.1 hl, hd⟩)

/-- The scan looks at the levels in ascending order, so it stops at the lowest that is eligible (R240,
R241). -/
theorem scanFinds_eq_some (hl : s.Eligible l) (hleast : ∀ k, s.Eligible k → l ≤ k) :
    scanFinds s = some l := by
  obtain ⟨hrange, hd⟩ := eligible_iff.1 hl
  refine List.find?_range_eq_some.2 ⟨hd, List.mem_range.2 hrange, fun k hk => ?_⟩
  rw [Bool.not_eq_true', Bool.eq_false_iff]
  exact fun hdk => (hleast k (eligible_iff.2 ⟨hk.trans hrange, hdk⟩)).not_gt hk

/-- Settles O60: a blocked scan does not look, and one that looks finds no level. -/
theorem scanAnswersNone : Obligations.ScanAnswersNone := by
  rintro s blocked (rfl | hnone)
  · rfl
  · cases blocked with
    | true => rfl
    | false => simp only [scanLevels, scanFinds_eq_none hnone]; rfl

theorem scanLevels_of_scanFinds (h : scanFinds s = some l) :
    scanLevels false s = (dispatchLevel l s).emit (.scan (.dispatch l (levelCfg s.cfg l).icb)) := by
  simp [scanLevels, h]

/-! ### The level of a channel -/

/-- In a well-formed configuration the level that a channel owns is the one that names it (R11). -/
theorem eq_of_channelOwns (hwf : cfg.wf = true) (howner : (levelCfg cfg l).owner = .chan ch)
    (howns : channelOwns cfg ch k = true) : k = l := by
  have hch : ch < cfg.numChan := by
    simp only [Config.wf, Config.levelsOk, Bool.and_eq_true, List.all_eq_true] at hwf
    obtain ⟨-, ⟨-, hlisted⟩, -⟩ := hwf
    have hin := (hlisted _ (mem_levels_of_owner howner)).2
    simpa [howner, LevelOwner.inRange] using hin
  obtain ⟨m, hm, -, -, honly⟩ := wf_chanLevel_unique hwf hch
  simp only [channelOwns, Bool.and_eq_true, beq_iff_eq] at howns
  rw [honly l howner]
  exact Option.some.inj (howns.1.symm.trans hm)

/-! ### A post whose result is ignored -/

/-- What a post can change, even where it fails: the slot, its channel, and the request of its channel's
level (R180, R232, R336). -/
theorem getD_postStatus_keeps (s : State) (ch : Nat) (mask : Half)
    (ht : t = (postStatus ch mask s).getD s) :
    s.Frame t (fun a => (s.chan ch).inchCur.toNat ≤ a ∧ a < (s.chan ch).inchCur.toNat + 8)
        nothing nothing (· = ch) (channelOwns s.cfg ch · = true) ∧
      (∀ k, t.lvl k = s.lvl k ∨ t.lvl k = withdrawRequest (s.lvl k)) ∧
      t.stack = s.stack ∧ t.inputs = s.inputs ∧ t.outputs = s.outputs := by
  subst ht
  cases hp : postStatus ch mask s with
  | none => exact ⟨by constructor <;> intros <;> rfl, fun _ => .inl rfl, rfl, rfl, rfl⟩
  | some t =>
    obtain ⟨r, q, hfifo, hslot, -⟩ := postStatus_some hp
    obtain ⟨hvalid, haligned, hpresent⟩ := (slotUsable_iff _ _).1 hslot
    obtain ⟨t', ht', -, -, -, hlevel, hframe, hkept⟩ :=
      postWritesTheSlot s ch mask r q hfifo hvalid haligned hpresent
    obtain rfl : t = t' := Option.some.inj (hp.symm.trans ht')
    exact ⟨hframe, fun k => (ite_eq_or_eq _ _ _).symm.imp (hlevel k).trans (hlevel k).trans, hkept⟩

/-- A post does not look at the levels: after a change of one it does the same to memory and the
channels. -/
theorem getD_postStatus_setLvl (s : State) (l : Nat) (x : Level) (ch : Nat) (mask : Half) :
    ((postStatus ch mask (s.setLvl l x)).getD (s.setLvl l x)).mem = ((postStatus ch mask s).getD s).mem ∧
      ((postStatus ch mask (s.setLvl l x)).getD (s.setLvl l x)).chans =
        ((postStatus ch mask s).getD s).chans := by
  have hfails : postStatus ch mask (s.setLvl l x) = none ↔ postStatus ch mask s = none := by
    rw [postStatus_none, postStatus_none, setLvl_chan, setLvl_cfg]
  cases hp : postStatus ch mask s with
  | none => rw [hfails.2 hp]; exact ⟨rfl, rfl⟩
  | some p =>
    obtain ⟨t, ht⟩ : ∃ t, postStatus ch mask (s.setLvl l x) = some t := by
      rw [← Option.ne_none_iff_exists', ne_eq, hfails, hp]
      exact Option.some_ne_none p
    obtain ⟨r, q, hfifo, -, -, -, -, -, -, -, hmem, hchans, -⟩ := postStatus_some hp
    obtain ⟨r', q', hfifo', -, -, -, -, -, -, -, hmem', hchans', -⟩ := postStatus_some ht
    obtain ⟨rfl, rfl⟩ : r = r' ∧ q = q' := List.cons.inj (hfifo.symm.trans hfifo')
    rw [ht]
    exact ⟨hmem'.trans hmem.symm, hchans'.trans hchans.symm⟩

/-! ### The dispatch of a level -/

/-- The level as its dispatch leaves it (R240). -/
def dispatchedLevel (x : Level) : Level := { x with active := true, requested := false }

/-- A dispatched level has no request that a post could withdraw (R232, R240). -/
theorem withdrawRequest_dispatchedLevel (x : Level) :
    withdrawRequest (dispatchedLevel x) = dispatchedLevel x := rfl

theorem dispatchLevel_simple (h : (levelCfg s.cfg l).owner = .simple) :
    dispatchLevel l s = s.setLvl l (dispatchedLevel (s.lvl l)) := by
  simp only [dispatchLevel, h]; rfl

theorem dispatchLevel_chan (h : (levelCfg s.cfg l).owner = .chan ch) :
    dispatchLevel l s = (postStatus ch 0 (s.setLvl l (dispatchedLevel (s.lvl l)))).getD
      (s.setLvl l (dispatchedLevel (s.lvl l))) := by
  simp only [dispatchLevel, h]; rfl

/-- The dispatch of a channel's level does to memory and the channels what the post alone would do
(R240). -/
theorem dispatchLevel_posts (h : (levelCfg s.cfg l).owner = .chan ch) :
    (∀ k, (dispatchLevel l s).chan k = ((postStatus ch 0 s).getD s).chan k) ∧
      ∀ a, (dispatchLevel l s).readByte a = ((postStatus ch 0 s).getD s).readByte a := by
  obtain ⟨hmem, hchans⟩ := getD_postStatus_setLvl s l (dispatchedLevel (s.lvl l)) ch 0
  rw [dispatchLevel_chan h]
  exact ⟨fun k => congrArg (tableGet Channel.powerOn k) hchans, fun a => congrArg (tableGet 0 a) hmem⟩

/-- What the dispatch of a level can change: the level, and, for the level of a channel, that channel and
the bytes that the post alone would change (R240, R335, R336). -/
theorem dispatchLevel_keeps (hwf : s.cfg.wf = true) (ht : t = dispatchLevel l s) :
    s.Frame t (fun a => ∃ ch, (levelCfg s.cfg l).owner = .chan ch ∧
          ((postStatus ch 0 s).getD s).readByte a ≠ s.readByte a)
        nothing nothing (fun ch => (levelCfg s.cfg l).owner = .chan ch) (· = l) ∧
      t.lvl l = dispatchedLevel (s.lvl l) ∧
      t.stack = s.stack ∧ t.inputs = s.inputs ∧ t.outputs = s.outputs := by
  have hother (k : Nat) (hk : k ≠ l) : (s.setLvl l (dispatchedLevel (s.lvl l))).lvl k = s.lvl k := by
    rw [lvl_setLvl, if_neg hk]
  cases howner : (levelCfg s.cfg l).owner with
  | simple =>
    rw [dispatchLevel_simple howner] at ht
    subst ht
    refine ⟨?frame, lvl_setLvl_same s l _, rfl, rfl, rfl⟩
    case frame => exact
      { config := rfl
        memory := fun _ _ => rfl
        contexts := fun _ _ => rfl
        queues := fun _ _ => rfl
        channels := fun _ _ => rfl
        levels := hother }
  | chan ch =>
    obtain ⟨hframe, hlevel, hstack, hinputs, houtputs⟩ :=
      getD_postStatus_keeps _ ch 0 (ht.trans (dispatchLevel_chan howner))
    obtain ⟨-, hbyte⟩ := ht ▸ dispatchLevel_posts howner
    refine ⟨?frame, ?level, hstack, hinputs, houtputs⟩
    case level => simpa [withdrawRequest_dispatchedLevel] using hlevel l
    case frame => exact
      { config := hframe.config
        memory := fun a ha => (hbyte a).trans (not_not.1 fun hne => ha ⟨ch, rfl, hne⟩)
        contexts := hframe.contexts
        queues := hframe.queues
        channels := fun k hk => hframe.channels k fun h => hk (by rw [h])
        levels := fun k hk => (hframe.levels k fun howns =>
          hk (eq_of_channelOwns hwf howner howns)).trans (hother k hk) }

/-- An output is no part of the stored state. -/
theorem frame_emit {bytes chans lvls : Nat → Prop} {ctxs psqs : UnitId → Prop}
    (h : s.Frame t bytes ctxs psqs chans lvls) (o : Output) :
    s.Frame (t.emit o) bytes ctxs psqs chans lvls :=
  { h with }

/-- Settles O59: the scan stops at the lowest eligible level, and its dispatch posts for the level's channel
and changes nothing else. -/
theorem scanDispatchesTheHighestPriority : Obligations.ScanDispatchesTheHighestPriority := by
  intro s l hwf hl hleast
  obtain ⟨hframe, hlevel, hstack, hinputs, houtputs⟩ := dispatchLevel_keeps hwf rfl
  rw [scanLevels_of_scanFinds (scanFinds_eq_some hl hleast)]
  refine ⟨congrArg _ houtputs, hlevel, frame_emit hframe _, fun ch howner => ?posted, hstack, hinputs⟩
  obtain ⟨hchan, hbyte⟩ := dispatchLevel_posts howner
  exact ⟨hchan ch, hbyte⟩

end Sys2Proof.Machine
end

section
/-! PROOFS. A request that its routing or its level check lets through, and the one post of Test and Grab
(spec/44_xio.md R259, R260, R263, R266, R267). -/

namespace Sys2Proof.Machine

variable {s p : State} {u : UnitId} {ch : Nat} {lchan lev : BitVec 7} {sa : Byte}

theorem onUnit_routed {act : UnitId → Host.Outcome State Fault Refusal}
    (hroute : routedUnit s.cfg lchan sa = some u) : onUnit lchan sa s act = act u := by
  simp only [onUnit, hroute]

theorem onChannel_routed {act : Nat → State} (hroute : routeOf s.cfg lchan = some ch) :
    onChannel lchan s act = .next (act ch) := by
  simp only [onChannel, hroute]

/-! ### The post -/

theorem testChannel_of_posted (h : postStatus ch 0 s = some p) :
    testChannel ch s = p.answer .statusStored := by
  simp only [testChannel, h]

theorem testChannel_of_not_posted (h : postStatus ch 0 s = none) :
    testChannel ch s = s.answer .acceptedNoStatus := by
  simp only [testChannel, h]

theorem postStatus_outputs {mask : Half} (h : postStatus ch mask s = some p) :
    p.outputs = s.outputs := by
  obtain ⟨-, -, -, -, -, -, -, -, -, houtputs, -⟩ := postStatus_some h
  exact houtputs

theorem exec_tio (hroute : routedUnit s.cfg lchan sa = some u) :
    exec (.tio lchan sa) s = .next (testChannel u.ch s) :=
  onUnit_routed hroute

theorem exec_grio_idle (hroute : routedUnit s.cfg lchan sa = some u) (hidle : (s.ctx u).state = .empty) :
    exec (.grio lchan sa) s = .next (testChannel u.ch s) :=
  (onUnit_routed hroute).trans (if_neg (not_not.2 hidle))

theorem exec_grio_inFlight (hroute : routedUnit s.cfg lchan sa = some u)
    (hflight : (s.ctx u).state ≠ .empty) : exec (.grio lchan sa) s = .next (s.answer .busy) :=
  (onUnit_routed hroute).trans (if_pos hflight)

/-- What Test does on the channel, with its answer as it leaves the block. -/
theorem testChannel_effects (s : State) (ch : Nat) :
    (∀ p, postStatus ch 0 s = some p →
      testChannel ch s = { p with outputs := .xio .statusStored 0x4 :: s.outputs }) ∧
    (postStatus ch 0 s = none →
      testChannel ch s = { s with outputs := .xio .acceptedNoStatus 0x0 :: s.outputs }) := by
  refine ⟨fun p hposted => ?_, testChannel_of_not_posted⟩
  rw [testChannel_of_posted hposted, ← postStatus_outputs hposted]
  rfl

/-- Settles O50: both operations come to the same `testChannel`, but for Grab on a unit in flight. -/
theorem testAndGrabPostOneRecord : Obligations.TestAndGrabPostOneRecord := by
  refine fun s lchan sa u hroute => ⟨fun i hi hidle => ?_, exec_grio_inFlight hroute⟩
  have hexec : exec i s = .next (testChannel u.ch s) := by
    rcases List.mem_pair.1 hi with rfl | rfl
    · exact exec_tio hroute
    · exact exec_grio_idle hroute (hidle.resolve_left nofun)
  obtain ⟨hposted, hnot⟩ := testChannel_effects s u.ch
  rw [hexec]
  exact ⟨fun p hp => congrArg _ (hposted p hp), fun hp => congrArg _ (hnot hp)⟩

/-! ### The level check -/

theorem onLevel_usable {act : Nat → State → State} (h : levelUsable s.cfg lev.toNat = true) :
    onLevel lev s act = .next ((act lev.toNat s).answer .acceptedNoStatus) :=
  if_pos h

theorem onLevel_unusable {act : Nat → State → State} (h : levelUsable s.cfg lev.toNat = false) :
    onLevel lev s act = .next (s.answer .unsupported) :=
  if_neg (by rw [h]; exact Bool.false_ne_true)

theorem levelUsable_eq_false {cfg : Config} {l : Nat} : levelUsable cfg l = false ↔
    cfg.numLevels ≤ l ∨ (levelCfg cfg l).configured = false := by
  rw [levelUsable, Bool.and_eq_false_iff, decide_eq_false_iff_not, Nat.not_lt]

/-- Only a channel's level has something waiting: a record in the FIFO (R236). -/
theorem ownerWaiting_iff (s : State) (l : Nat) : ownerWaiting s l = true ↔
    ∃ ch, (levelCfg s.cfg l).owner = .chan ch ∧ (s.chan ch).fifo ≠ [] := by
  unfold ownerWaiting
  cases (levelCfg s.cfg l).owner with
  | chan ch => simp [State.statusQueued]
  | simple => simp

/-- Settles O56: on a usable level each operation is the one of the Interrupt Level Table, answered. -/
theorem levelOperations : Obligations.LevelOperations := by
  rintro s lev x l rfl hrange hconfigured
  have husable : levelUsable s.cfg lev.toNat = true := by simp [levelUsable, hrange, hconfigured]
  exact ⟨onLevel_usable husable, onLevel_usable husable, onLevel_usable husable,
    ownerWaiting s lev.toNat, ownerWaiting_iff s lev.toNat, onLevel_usable husable⟩

/-- Settles O57: the level check fails, or the function code has no operation. -/
theorem unsupportedRequestsChangeNothing : Obligations.UnsupportedRequestsChangeNothing := by
  refine fun s lev lchan x sa => ⟨fun h => ?levels, ?codes⟩
  case levels =>
    have hunusable := levelUsable_eq_false.2 h
    simp only [List.forall_mem_cons]
    exact ⟨onLevel_unusable hunusable, onLevel_unusable hunusable, onLevel_unusable hunusable,
      onLevel_unusable hunusable, nofun⟩
  case codes =>
    simp only [List.forall_mem_cons]
    exact ⟨rfl, rfl, rfl, rfl, rfl, nofun⟩

end Sys2Proof.Machine
end

section
/-! PROOFS. Start, from the device's pre-check to what it decides: the program begins, queued status is
posted instead, the start is queued, or the unit is busy (spec/44_xio.md R261, R262,
spec/45_device_contract.md R302, R311). -/

namespace Sys2Proof.Machine

variable {s p : State} {u : UnitId} {lchan : BitVec 7} {sa : Byte} {a : Addr} {pc : PreCheck}

/-! ### The pre-check -/

/-- The state after the pre-check callback of `u`: a run is taken from the inputs, and the callback has
left the block. -/
def State.preChecked (s : State) (u : UnitId) : State :=
  { s with inputs := (takePreCheck s).2.inputs, outputs := .preCheck u :: s.outputs }

theorem takePreCheck_emit (s : State) (u : UnitId) :
    (takePreCheck s).2.emit (.preCheck u) = s.preChecked u := by
  unfold State.preChecked takePreCheck
  split <;> rfl

theorem exec_sio (hroute : routedUnit s.cfg lchan sa = some u)
    (hpre : (takePreCheck s).1 = { calls := [], answer := pc }) :
    exec (.sio lchan sa a) s = .next (startUnit u a pc (s.preChecked u)) := by
  refine (onUnit_routed hroute).trans ?_
  simp only [withPreCheck, hpre, takePreCheck_emit]

theorem exec_sio_callInside (hroute : routedUnit s.cfg lchan sa = some u)
    (hcalls : (takePreCheck s).1.calls ≠ []) :
    exec (.sio lchan sa a) s = .fault .callInsidePreCheck := by
  refine (onUnit_routed hroute).trans ?_
  obtain ⟨d, ds, hcons⟩ := List.exists_cons_of_ne_nil hcalls
  simp only [withPreCheck, hcons]

/-! ### The device is ready -/

theorem startUnit_ready (hidle : (s.ctx u).state = .empty) (hready : pc = .ready ∨ pc = .awaitingInit) :
    startUnit u a pc s = startProgram u a s := by
  rcases hready with rfl | rfl <;> simp [startUnit, hidle]

theorem startProgram_of_posted (h : postStatus u.ch 0 s = some p) :
    startProgram u a s = p.answer .statusStored := by
  simp only [startProgram, h]

theorem startProgram_of_not_posted (h : postStatus u.ch 0 s = none) :
    startProgram u a s =
      enterEngine u false ((s.setCtx u (freshContext a .busy)).push (.xioReturn .acceptedNoStatus)) := by
  simp only [startProgram, h]

/-- A pre-check does not touch what a post looks at (R180). -/
theorem postStatus_preChecked (ch : Nat) (mask : Half) (s : State) (u : UnitId) :
    postStatus ch mask (s.preChecked u) = (postStatus ch mask s).map fun p =>
      { p with inputs := (takePreCheck s).2.inputs, outputs := .preCheck u :: s.outputs } :=
  postStatus_withIo ch mask s _ _

/-- Settles O48: the post that succeeds before the pre-check succeeds after it, and is answered. -/
theorem startPostsQueuedStatusFirst : Obligations.StartPostsQueuedStatusFirst := by
  intro s p lchan sa a u pc hroute hidle hpre hready hposted
  have hpost := postStatus_preChecked u.ch 0 s u
  rw [hposted] at hpost
  rw [exec_sio hroute hpre, startUnit_ready (s := s.preChecked u) hidle hready,
    startProgram_of_posted hpost]
  rfl

/-- Settles O47: where nothing can be posted, the fresh context is loaded and the engine entered. -/
theorem startBeginsTheProgram : Obligations.StartBeginsTheProgram := by
  intro s lchan sa a u pc hroute hidle hpre hready hnone
  have hpost := postStatus_preChecked u.ch 0 s u
  rw [hnone] at hpost
  rw [exec_sio hroute hpre, startUnit_ready (s := s.preChecked u) hidle hready,
    startProgram_of_not_posted hpost]
  rfl

/-! ### The start is queued, or the unit is busy -/

theorem startUnit_queued (hflight : (s.ctx u).state ≠ .empty) (hpsq : (unitCfg s.cfg u).hasPsq = true)
    (hpc : pc ≠ .busy) (hroom : (s.psq u).length < s.cfg.psqCap) :
    startUnit u a pc s = (s.setPsq u (s.psq u ++ [a])).answer .acceptedQueued := by
  simp [startUnit, startInFlight, hflight, hpsq, hpc, enqueue_of_room a hroom]

theorem startUnit_busy (hflight : (s.ctx u).state ≠ .empty)
    (hbusy : (unitCfg s.cfg u).hasPsq = false ∨ pc = .busy ∨ s.cfg.psqCap ≤ (s.psq u).length) :
    startUnit u a pc s = s.answer .busy := by
  rw [startUnit, if_pos hflight]
  rcases hbusy with hpsq | rfl | hfull
  · simp [startInFlight, hpsq]
  · simp [startInFlight]
  · simp [startInFlight, (enqueue_eq_none a).2 hfull]

theorem startUnit_busySubchannel (hidle : (s.ctx u).state = .empty)
    (hbusy : pc = .busy ∨ pc = .busyQueueable) :
    startUnit u a pc s = s.answer .busySubchannel := by
  rw [startUnit, if_neg (not_not.2 hidle), if_pos hbusy]

/-- Settles O49: each row of the table of R261 is an equation of `startUnit`, and a call inside the
pre-check stops the machine before it. -/
theorem startOnBusyUnit : Obligations.StartOnBusyUnit := by
  refine fun s lchan sa a u hroute => ⟨fun pc hpre => ?_, exec_sio_callInside hroute⟩
  rw [exec_sio hroute hpre]
  exact ⟨fun hflight hpsq hpc hroom => congrArg _ (startUnit_queued hflight hpsq hpc hroom),
    fun hflight hbusy => congrArg _ (startUnit_busy hflight hbusy),
    fun hidle hbusy => congrArg _ (startUnit_busySubchannel hidle hbusy)⟩

end Sys2Proof.Machine
end

section
/-! PROOFS. Stop and Halt: the chain flags cleared, a device's own callback entered, and the program that
Halt ends with one record (spec/44_xio.md R264, R265, spec/45_device_contract.md R306, R307,
spec/42_pending_start.md R217). -/

namespace Sys2Proof.Machine

variable {s m : State} {u : UnitId} {lchan : BitVec 7} {sa : Byte} {c : Context}

/-! ### Stop -/

/-- Which run a stop callback makes is a matter of the inputs alone. -/
theorem takeStop_setCtx (s : State) (u : UnitId) (c : Context) :
    takeStop (s.setCtx u c) =
      ((takeStop s).1, (s.setCtx u c).withInputs (takeStop s).2.inputs) := by
  unfold takeStop
  rw [setCtx_inputs]
  split <;> rfl

theorem exec_stpio_idle (hroute : routedUnit s.cfg lchan sa = some u)
    (hidle : (s.ctx u).state = .empty) :
    exec (.stpio lchan sa) s = .next (s.answer .acceptedNoStatus) :=
  (onUnit_routed hroute).trans (if_pos hidle)

theorem exec_stpio_plain (hroute : routedUnit s.cfg lchan sa = some u)
    (hflight : (s.ctx u).state ≠ .empty) (hno : (unitCfg s.cfg u).hasStop = false) :
    exec (.stpio lchan sa) s =
      .next ((s.setCtx u (stopChaining (s.ctx u))).answer .acceptedNoStatus) := by
  refine (onUnit_routed hroute).trans ?_
  simp only [if_neg hflight, hno, Bool.false_eq_true, if_false]

theorem exec_stpio_callback (hroute : routedUnit s.cfg lchan sa = some u)
    (hflight : (s.ctx u).state ≠ .empty) (hstop : (unitCfg s.cfg u).hasStop = true) :
    exec (.stpio lchan sa) s =
      .next ((((s.setCtx u (stopChaining (s.ctx u))).withInputs (takeStop s).2.inputs).emit
        (.stopCallback u)).push (.callback u (takeStop s).1.calls (takeStop s).1.answer)) := by
  refine (onUnit_routed hroute).trans ?_
  simp only [if_neg hflight, hstop, if_true, takeStop_setCtx]

/-- Settles O51: the idle unit, the unit that only stops chaining, and the unit whose device has a stop of
its own. -/
theorem stopClearsTheChainFlags : Obligations.StopClearsTheChainFlags :=
  fun _ _ _ _ hroute =>
    ⟨exec_stpio_idle hroute, exec_stpio_plain hroute, exec_stpio_callback hroute⟩

/-! ### Halt -/

theorem takeHalt_haltPrepare (s : State) (u : UnitId) :
    takeHalt (haltPrepare u s) =
      ((takeHalt s).1, (haltPrepare u s).withInputs (takeHalt s).2.inputs) := by
  unfold takeHalt
  rw [haltPrepare_inputs]
  split <;> rfl

theorem exec_hio_idle (hroute : routedUnit s.cfg lchan sa = some u) (hidle : (s.ctx u).state = .empty) :
    exec (.hio lchan sa) s = .next (s.answer .acceptedNoStatus) :=
  (onUnit_routed hroute).trans (if_pos hidle)

theorem exec_hio_callback (hroute : routedUnit s.cfg lchan sa = some u)
    (hflight : (s.ctx u).state ≠ .empty) (hhalt : (unitCfg s.cfg u).hasHalt = true) :
    exec (.hio lchan sa) s =
      .next ((((haltPrepare u s).withInputs (takeHalt s).2.inputs).emit (.haltCallback u)).push
        (.callback u (takeHalt s).1.calls (takeHalt s).1.answer)) := by
  refine (onUnit_routed hroute).trans ?_
  simp only [if_neg hflight, hhalt, if_true, takeHalt_haltPrepare]

theorem exec_hio_terminate (hroute : routedUnit s.cfg lchan sa = some u)
    (hflight : (s.ctx u).state ≠ .empty) (hno : (unitCfg s.cfg u).hasHalt = false) :
    exec (.hio lchan sa) s = outcomeOf (haltTerminate u (haltPrepare u s)) := by
  refine (onUnit_routed hroute).trans ?_
  simp only [if_neg hflight, hno, Bool.false_eq_true, if_false]

/-- Settles O53: the idle unit, and the unit whose device has a halt of its own. -/
theorem haltOnIdleOrSelfHaltingUnit : Obligations.HaltOnIdleOrSelfHaltingUnit :=
  fun _ _ _ _ hroute => ⟨exec_hio_idle hroute, exec_hio_callback hroute⟩

/-- The context in which Halt signals the channel end: both ends and the exception flag merged, and no
chaining (R264). -/
def haltedContext (c : Context) : Context :=
  { c with
    status := c.status ||| (stEnds ||| stExpt), flags := { c.flags with cc := false, dc := false } }

theorem ctx_haltPrepare_same (s : State) (u : UnitId) :
    (haltPrepare u s).ctx u = haltedContext (s.ctx u) :=
  ctx_setCtx_same _ _ _

theorem ctx_haltPrepare_other (s : State) {u v : UnitId} (h : v ≠ u) :
    (haltPrepare u s).ctx v = s.ctx v :=
  ctx_setCtx_other _ _ h

/-- The end of a program asks for no engine where nothing is queued (R176). -/
theorem finishProgram_idle (c : Context) (h : (unitCfg s.cfg u).hasPsq = false ∨ s.psq u = []) :
    finishProgram u c s = ((finishProgram u c s).1, none) := by
  obtain ⟨hresume, -⟩ | ⟨a, q, -, hpsq, hqueue, -⟩ := finishProgram_cases s u c
  · exact Prod.ext rfl hresume
  · simp [hpsq, hqueue] at h

/-- The end of a program asks for the engine where a start is queued (R176). -/
theorem finishProgram_queued (c : Context) (hpsq : (unitCfg s.cfg u).hasPsq = true)
    (hqueue : s.psq u ≠ []) :
    finishProgram u c s = ((finishProgram u c s).1, some false) := by
  obtain ⟨-, hno, -⟩ | ⟨a, q, hresume, -⟩ := finishProgram_cases s u c
  · simp [hpsq, hqueue] at hno
  · exact Prod.ext rfl hresume

/-- A halted program is over at its channel end: device end is set and chain-command clear (R264,
R175). -/
theorem channelEndFrom_halted (c : Context) (s : State) (u : UnitId) :
    channelEndFrom u (endedContext 0 (haltedContext c)) s =
      finishProgram u (endedContext 0 (haltedContext c)) s := by
  have hde : (endedContext 0 (haltedContext c)).status &&& stDe ≠ 0 := by
    refine endedContext_status_ne_zero fun h => ?_
    obtain ⟨hstatus, -⟩ := (or_and_eq_zero _ _ _).1 h
    obtain ⟨-, hends⟩ := (or_and_eq_zero _ _ _).1 hstatus
    exact absurd hends (by decide)
  have hcc : (endedContext 0 (haltedContext c)).flags.cc = false := endedContext_cc_eq_false rfl
  rw [channelEndFrom, (anyBit_eq_true _ _).2 hde, hcc]
  rfl

/-- The channel end of Halt finishes the program (R170, R264). -/
theorem channelEndCore_halted (hflight : (s.ctx u).state = .busy ∨ (s.ctx u).state = .channelEndPending) :
    channelEndCore u 0 (haltPrepare u s) =
      .ok (finishProgram u (endedContext 0 (haltedContext (s.ctx u))) (haltPrepare u s)) := by
  have hstate : (haltedContext (s.ctx u)).state = (s.ctx u).state := rfl
  rw [channelEndCore, ctx_haltPrepare_same, hstate, lengthCheck_eq, channelEndFrom_halted]
  rcases hflight with h | h <;> rw [h]

theorem haltTerminate_idle (h : channelEndCore u 0 s = .ok (m, none)) :
    haltTerminate u s = .ok (testChannel u.ch m) := by
  simp only [haltTerminate, h]

theorem haltTerminate_queued (h : channelEndCore u 0 s = .ok (m, some false)) :
    haltTerminate u s = .ok (enterEngine u false (m.push (.haltPost u.ch))) := by
  simp only [haltTerminate, h]

/-- The end of a program does not look at the unit's former context or at the outputs, so Halt's
preparation before it does not show. -/
theorem programEnded_of_haltPrepare (h : (haltPrepare u s).ProgramEnded m u c) :
    s.ProgramEnded m u c where
  stored := h.stored
  dropped := h.dropped
  idle := h.idle
  queued := h.queued
  frame :=
    { config := h.frame.config
      memory := h.frame.memory
      contexts := fun v hv => (h.frame.contexts v hv).trans (ctx_haltPrepare_other s hv)
      queues := h.frame.queues
      channels := h.frame.channels
      levels := h.frame.levels }
  stack := h.stack
  inputs := h.inputs

/-- Settles O52: the channel end that Halt signals finishes the program, and the post follows at once or
waits for the engine. -/
theorem haltEndsTheProgram : Obligations.HaltEndsTheProgram := by
  rintro s lchan sa u c hroute hflight hno rfl
  have hcore := channelEndCore_halted hflight
  have hended := finishProgram_ended (haltPrepare u s) u (endedContext 0 (haltedContext (s.ctx u)))
  have hexec := exec_hio_terminate hroute (by rcases hflight with h | h <;> simp [h]) hno
  refine ⟨_, programEnded_of_haltPrepare hended, finishProgram_outputs _ _ _, fun hidle => ?idle,
    fun hpsq hqueue => ?queued⟩
  case idle =>
    rw [finishProgram_idle (s := haltPrepare u s) _ hidle] at hcore
    rw [hexec, haltTerminate_idle hcore]
    rfl
  case queued =>
    rw [finishProgram_queued (s := haltPrepare u s) _ hpsq hqueue] at hcore
    rw [hexec, haltTerminate_queued hcore]
    rfl

end Sys2Proof.Machine
end

section
/-! PROOFS. The two reset operations: their units cleared, the callbacks made, the records of the units
dropped and the level left requested where a record remains (spec/44_xio.md R268, R269,
spec/70_reset_and_hazards.md R351, R352). -/

namespace Sys2Proof.Machine

variable {cfg : Config} {u : UnitId} {ch k : Nat}

/-! ### The units of a reset -/

/-- No unit is listed twice in a well-formed configuration, so none is reset twice (R9). -/
theorem nodup_unitsOfChannel (ch : Nat) (hwf : cfg.wf = true) : (unitsOfChannel cfg ch).Nodup := by
  simp only [Config.wf, Config.unitsOk, Bool.and_eq_true, decide_eq_true_eq] at hwf
  obtain ⟨⟨-, hkeys, -⟩, -⟩ := hwf
  have hunits : ((cfg.units.map Prod.fst).map UnitId.key).Nodup := by rwa [List.map_map]
  exact hunits.of_map.filter _

theorem nodup_unitsOfController (ch k : Nat) (hwf : cfg.wf = true) :
    (unitsOfController cfg ch k).Nodup :=
  (nodup_unitsOfChannel ch hwf).filter _

theorem mem_unitsOfController : u ∈ unitsOfController cfg ch k ↔
    u.ch = ch ∧ reachable cfg u = true ∧ (unitCfg cfg u).controller = k := by
  rw [unitsOfController, List.mem_filter, mem_unitsOfChannel, beq_iff_eq, and_assoc]

/-! ### What a reset leaves -/

/-- What both resets come to: the units `us` are cleared, those of `called` get the callback `f`, the
channel's FIFO becomes `q` and its level follows (R268, R269). -/
def resetUnits (us called : List UnitId) (f : UnitId → Output) (ch : Nat) (q : List Record) (s : State) :
    State :=
  (((emitFor called f (clearUnits us s)).setChan ch { s.chan ch with fifo := q }).onChannelLevel ch
    (clearLevel !q.isEmpty)).answer .acceptedNoStatus

theorem resetChannel_eq (s : State) (ch : Nat) :
    resetChannel ch s = resetUnits (unitsOfChannel s.cfg ch)
      ((unitsOfChannel s.cfg ch).filter fun u => (unitCfg s.cfg u).hasResetChannel)
      .resetChannelCallback ch [] s := by
  simp [resetChannel, resetUnits]

theorem resetController_eq (s : State) (u : UnitId) {us : List UnitId}
    (hus : us = unitsOfController s.cfg u.ch (unitCfg s.cfg u).controller) :
    resetController u s = resetUnits us (us.filter fun v => (unitCfg s.cfg v).hasResetController)
      .resetControllerCallback u.ch (recordsOfOthers us (s.chan u.ch).fifo) s := by
  subst hus
  simp [resetController, resetUnits]

section

variable {us called : List UnitId} {f : UnitId → Output} {ch : Nat} {q : List Record} {s : State}

theorem resetUnits_ctx (v : UnitId) :
    (resetUnits us called f ch q s).ctx v = if v ∈ us then Context.powerOn else s.ctx v := by
  obtain ⟨-, -, -, -, -, -, hctx, -⟩ := clearUnits_all us s
  simp [resetUnits, hctx]

theorem resetUnits_psq (v : UnitId) :
    (resetUnits us called f ch q s).psq v =
      if v ∈ us ∧ (unitCfg s.cfg v).hasPsq = true then [] else s.psq v := by
  obtain ⟨-, -, -, -, -, -, -, hpsq, -⟩ := clearUnits_all us s
  simp [resetUnits, hpsq]

theorem resetUnits_chan (k : Nat) :
    (resetUnits us called f ch q s).chan k =
      if k = ch then { s.chan ch with fifo := q } else s.chan k := by
  simp [resetUnits, chan_setChan]

/-- The level stays requested exactly where a record remains (R269). -/
theorem resetUnits_lvl (l : Nat) :
    (resetUnits us called f ch q s).lvl l =
      if channelOwns s.cfg ch l then
        { s.lvl l with active := false, extPending := false, requested := decide (q ≠ []) }
      else s.lvl l := by
  have hwaiting : (!q.isEmpty) = decide (q ≠ []) := by cases q <;> simp
  simp only [resetUnits, answer_lvl, lvl_onChannelLevel, hwaiting]
  simp [clearLevel]

theorem resetUnits_stack : (resetUnits us called f ch q s).stack = s.stack := by
  simp [resetUnits]

theorem resetUnits_inputs : (resetUnits us called f ch q s).inputs = s.inputs := by
  simp [resetUnits]

/-- The cancellations leave first, then the callbacks, then the answer (R268, R309). -/
theorem resetUnits_outputs :
    (resetUnits us called f ch q s).outputs = .xio .acceptedNoStatus 0x0 ::
      ((called.map f).reverse ++ ((us.map .cancel).reverse ++ s.outputs)) := by
  obtain ⟨-, -, -, -, -, -, -, -, houtputs⟩ := clearUnits_all us s
  simp [resetUnits, State.answer, emitFor_eq, houtputs, outcomeCode]

theorem resetUnits_frame :
    s.Frame (resetUnits us called f ch q s) nothing (· ∈ us) (· ∈ us) (· = ch)
      (channelOwns s.cfg ch · = true) where
  config := by simp [resetUnits]
  memory a _ := by simp [resetUnits]
  contexts v hv := by rw [resetUnits_ctx, if_neg hv]
  queues v hv := by rw [resetUnits_psq, if_neg fun h => hv h.1]
  channels k hk := by rw [resetUnits_chan, if_neg hk]
  levels l hl := by rw [resetUnits_lvl, if_neg hl]

/-- The context and the queue of a unit that is reset (R268, R269). -/
theorem resetUnits_cleared {v : UnitId} (hv : v ∈ us) :
    (resetUnits us called f ch q s).ctx v = Context.powerOn ∧
      ((unitCfg s.cfg v).hasPsq = true → (resetUnits us called f ch q s).psq v = []) ∧
      ((unitCfg s.cfg v).hasPsq = false → (resetUnits us called f ch q s).psq v = s.psq v) := by
  rw [resetUnits_ctx, resetUnits_psq]
  refine ⟨if_pos hv, fun hpsq => if_pos ⟨hv, hpsq⟩, fun hno => ?_⟩
  simp [hno]

end

/-- Settles O54: the units are those the configuration lists for the channel, and no record remains. -/
theorem resetChannelClearsTheChannel : Obligations.ResetChannelClearsTheChannel := by
  intro s lchan sa ch hroute
  have hexec : exec (.rschnl lchan sa) s = .next (resetChannel ch s) := onChannel_routed hroute
  rw [resetChannel_eq] at hexec
  exact ⟨_, _, hexec, fun u => mem_unitsOfChannel s.cfg u ch, nodup_unitsOfChannel ch,
    fun _ => resetUnits_cleared, (resetUnits_chan ch).trans (if_pos rfl),
    fun l howns => (resetUnits_lvl l).trans (if_pos howns),
    resetUnits_frame, resetUnits_stack, resetUnits_inputs, resetUnits_outputs⟩

/-- The records a controller's reset keeps are those of no unit it resets (R269). -/
theorem keptRecord_iff (us : List UnitId) (r : Record) :
    (!us.any fun u => u.sa == r.w1.extractLsb' 24 8) = true ↔
      ∀ u ∈ us, u.sa ≠ r.w1.extractLsb' 24 8 := by
  simp

/-- Settles O55: the units are those of the channel with the same controller, and the level follows the
records that remain. -/
theorem resetControllerClearsItsUnits : Obligations.ResetControllerClearsItsUnits := by
  intro s lchan sa u0 hroute
  obtain ⟨us, hus⟩ : ∃ us, us = unitsOfController s.cfg u0.ch (unitCfg s.cfg u0).controller := ⟨_, rfl⟩
  have hexec : exec (.rsctl lchan sa) s = .next (resetController u0 s) := onUnit_routed hroute
  rw [resetController_eq s u0 hus] at hexec
  refine ⟨_, us, hexec, fun u => hus ▸ mem_unitsOfController,
    fun hwf => hus ▸ nodup_unitsOfController _ _ hwf, fun _ => resetUnits_cleared,
    ⟨_, keptRecord_iff us, (resetUnits_chan u0.ch).trans (if_pos rfl)⟩, fun l howns => ?level,
    resetUnits_frame, resetUnits_stack, resetUnits_inputs, resetUnits_outputs⟩
  case level => rw [resetUnits_lvl, if_pos howns, resetUnits_chan, if_pos rfl]

end Sys2Proof.Machine
end

section
/-! PROOFS. Procedures that were entered go on: an operation that waited for the engine, a device's
callback, and a completion (spec/10_state.md R43, spec/44_xio.md R262, R264,
spec/45_device_contract.md R306, R307, R310). -/

namespace Sys2Proof.Machine

variable {s : State} {u : UnitId} {rest : List Activation}

theorem step_xioReturn {o : XioOutcome} (hwf : s.cfg.wf = true) (hs : s.stack = .xioReturn o :: rest) :
    step s = .next ((s.withStack rest).answer o) := by
  simp [step, stepWith, hwf, hs]

theorem step_haltPost {ch : Nat} (hwf : s.cfg.wf = true) (hs : s.stack = .haltPost ch :: rest) :
    step s = .next (testChannel ch (s.withStack rest)) := by
  simp [step, stepWith, hwf, hs]

theorem step_callback {calls : List DevCall} {o : XioOutcome} (hwf : s.cfg.wf = true)
    (hs : s.stack = .callback u calls o :: rest) : step s = callbackStep u calls o rest s := by
  simp [step, stepWith, hwf, hs]

theorem step_completion {calls : List (UnitId × DevCall)} (hwf : s.cfg.wf = true)
    (hs : s.stack = .completion calls :: rest) : step s = completionStep calls rest s := by
  simp [step, stepWith, hwf, hs]

/-- Settles O20: the innermost activation decides what the step does, and a completion's call is made for a
reachable unit alone. -/
theorem enteredProceduresGoOn : Obligations.EnteredProceduresGoOn := by
  intro s rest hwf
  refine ⟨fun o => step_xioReturn hwf, fun ch => step_haltPost hwf, fun u o => step_callback hwf,
    fun u d ds o => step_callback hwf, step_completion hwf, fun u d calls hs => ?_⟩
  rw [step_completion hwf hs]
  exact ⟨fun hreach => if_pos hreach, fun hnot => if_neg (by rw [hnot]; exact Bool.false_ne_true)⟩

end Sys2Proof.Machine
end

section
/-! PROOFS. A command completes whatever its device does inside the contract, and a signal inside
`start_command` stops it (spec/45_device_contract.md R303, R304, R311, spec/60_exceptions.md R320). -/

namespace Sys2Proof.Machine

variable {s x : State} {u : UnitId} {ticOk : Bool} {rest : List Activation} {code : Byte} {addr : Addr}
  {w2 : CommandWord} {st : Half} {i : Instr}

/-- Every answer of a Busy unit's device is taken: it forces the end, ends the command inside the dispatch,
or leaves it pending (R133, R134, R136). -/
theorem afterAnswer_completes (st : Half) (hbusy : (x.ctx u).state = .busy) :
    ∃ t, afterAnswer u st x = .ok t := by
  by_cases himm : st &&& immEnd = 0
  · by_cases hends : st &&& stEnds = stEnds
    · rw [afterAnswer_channelEnd himm hends]
      exact ⟨_, channelEnd_eq_resume 0 (.inl (by rw [emit_ctx, ctx_setCtx_same]; exact hbusy))⟩
    · obtain ⟨t, ht, -⟩ := afterAnswer_pends hbusy himm hends
      exact ⟨t, ht⟩
  · obtain ⟨m, hend, -⟩ := afterAnswer_forcesEnd hbusy himm
    exact ⟨_, hend⟩

/-- An accepted command whose device has answered completes. -/
theorem exec_answered_completes (hop : commandOperands i = some (code, addr, w2))
    (ha : s.atDescriptor u ticOk rest) (hok : descriptorBad s.cfg code addr w2 = false)
    (hx : s.CommandAnswered x u rest code addr w2 st) : ∃ t, exec i s = .next t := by
  obtain ⟨t, ht⟩ := afterAnswer_completes st (commandAnswered_keeps ha hx).1
  exact ⟨t, by rw [exec_eq_beginCommand hop, beginCommand_answered ha hok hx, ht]; rfl⟩

/-- The dispatch and the calls are for the device's own unit: the configuration, every other unit's context
and every queue stay as they are (R303 item 1). -/
theorem commandAnswered_leaves_others (hx : s.CommandAnswered x u rest code addr w2 st) :
    (∀ v, v ≠ u → x.ctx v = s.ctx v) ∧ (∀ v, x.psq v = s.psq v) ∧ x.cfg = s.cfg := by
  have hkept := hx.2.kept
  obtain ⟨hframe, -, hpsqs, -⟩ := dispatched_frame s u rest code addr w2
  exact ⟨fun v hv => (hkept.ctx v hv).trans (hframe.contexts v hv),
    fun v => congrArg (tableGet [] v.key) (hkept.psqs.trans hpsqs), hkept.cfg.trans hframe.config⟩

/-- A signal after calls that the contract allows stops the machine (R303 item 1, R311). -/
theorem exec_signalInsideStart {ds ds' : List DevCall} {extra : Half}
    (hop : commandOperands i = some (code, addr, w2)) (ha : s.atDescriptor u ticOk rest)
    (hok : descriptorBad s.cfg code addr w2 = false)
    (hcalls : (takeStart s).1.calls = ds ++ .signal extra :: ds')
    (hallowed : ds.all (callAllowedInStart s.cfg) = true) : exec i s = .fault .signalInsideStart := by
  have hcfg : (s.dispatched u rest code addr w2).cfg = s.cfg :=
    (dispatched_frame s u rest code addr w2).1.config
  obtain ⟨y, hrun⟩ := exists_callsRun (s := s.dispatched u rest code addr w2) u (ds := ds)
    (by rw [hcfg]; exact hallowed)
  rw [exec_eq_beginCommand hop, beginCommand_dispatches ha hok, hcalls, startCalls_signal extra ds' hrun]
  rfl

/-- Settles O29: a rejected descriptor is a program check, and an accepted one is answered after its
device's calls, unless a signal among them stops the machine. -/
theorem everyCommandCompletes : Obligations.EveryCommandCompletes := by
  intro i s u ticOk rest code addr w2 hop ha
  refine ⟨fun hallowed => ?completes, fun _ hallowed => ?answered, fun hok _ _ _ hcalls hbefore =>
    exec_signalInsideStart hop ha hok hcalls hbefore⟩
  case completes =>
    cases hbad : descriptorBad s.cfg code addr w2 with
    | true =>
      obtain ⟨m, -, hend, -⟩ := rejectedDescriptorEndsTheProgram i s u ticOk rest code addr w2 hop ha hbad
      exact ⟨_, hend⟩
    | false =>
      obtain ⟨x, hx⟩ := exists_commandAnswered u rest code addr w2 hallowed rfl
      exact exec_answered_completes hop ha hbad hx
  case answered =>
    obtain ⟨x, hx⟩ := exists_commandAnswered u rest code addr w2 hallowed rfl
    obtain ⟨hbusy, hstack, hinputs⟩ := commandAnswered_keeps ha hx
    obtain ⟨hctx, hpsq, hcfg⟩ := commandAnswered_leaves_others hx
    exact ⟨x, hx, hbusy, hctx, hpsq, hcfg, hstack, hinputs⟩

end Sys2Proof.Machine
end

section
/-! PROOFS. A request whose routing fails: the logical channel has no route, or the unit it names is not
reachable (spec/10_state.md R43, spec/44_xio.md R260, spec/60_exceptions.md R327). -/

namespace Sys2Proof.Machine

variable {s : State} {lchan : BitVec 7} {sa : Byte}

theorem routedUnit_eq_none_iff {cfg : Config} : routedUnit cfg lchan sa = none ↔
    ∀ ch, routeOf cfg lchan = some ch → reachable cfg ⟨ch, sa⟩ = false := by
  unfold routedUnit
  cases routeOf cfg lchan with
  | none => simp
  | some ch => simp

theorem onUnit_absent {act : UnitId → Host.Outcome State Fault Refusal}
    (habsent : routedUnit s.cfg lchan sa = none) :
    onUnit lchan sa s act = .next (s.answer .deviceAbsent) := by
  simp only [onUnit, habsent]

theorem onChannel_absent {act : Nat → State} (hnoRoute : routeOf s.cfg lchan = none) :
    onChannel lchan s act = .next (s.answer .deviceAbsent) := by
  simp only [onChannel, hnoRoute]

/-- Settles O46: RSCHNL stops at its route, and each of the other six at its routed unit, before the
operation itself is looked at. -/
theorem absentUnitsAnswerDeviceAbsent : Obligations.AbsentUnitsAnswerDeviceAbsent := by
  refine fun s lchan sa a => ⟨onChannel_absent, fun hunreachable => ?units⟩
  case units =>
    have habsent : routedUnit s.cfg lchan sa = none := routedUnit_eq_none_iff.2 hunreachable
    simp only [List.forall_mem_cons]
    exact ⟨onUnit_absent habsent, onUnit_absent habsent, onUnit_absent habsent, onUnit_absent habsent,
      onUnit_absent habsent, onUnit_absent habsent, nofun⟩

end Sys2Proof.Machine
end

section
/-! PROOFS. The state at power-on: what each part of it reads as, and the two invariants, which every run
from it therefore starts with (spec/70_reset_and_hazards.md R350). -/

namespace Sys2Proof.Machine

/-- The machine at power-on with the configuration `cfg` (R350). -/
abbrev State.poweredOn (cfg : Config) : State := { State.reset with cfg := cfg }

/-! ### Every accessor reads its power-on value -/

variable (cfg : Config)

@[simp] theorem poweredOn_readByte (a : Nat) : (State.poweredOn cfg).readByte a = 0 := rfl
@[simp] theorem poweredOn_ctx (u : UnitId) : (State.poweredOn cfg).ctx u = Context.powerOn := rfl
@[simp] theorem poweredOn_psq (u : UnitId) : (State.poweredOn cfg).psq u = [] := rfl
@[simp] theorem poweredOn_chan (ch : Nat) : (State.poweredOn cfg).chan ch = Channel.powerOn := rfl
@[simp] theorem poweredOn_lvl (l : Nat) : (State.poweredOn cfg).lvl l = Level.powerOn := rfl
@[simp] theorem poweredOn_stack : (State.poweredOn cfg).stack = [] := rfl

/-- All levels start disabled, so none is eligible until the CPU enables one (R350). -/
theorem poweredOn_not_eligible (l : Nat) : ¬(State.poweredOn cfg).Eligible l := by
  rintro ⟨-, -, -, henabled, -⟩
  rw [poweredOn_lvl] at henabled
  exact Bool.false_ne_true henabled

/-- Settles O8: every accessor reads its power-on value, and a scan comes to no enabled level. -/
theorem powerOnState : Obligations.PowerOnState := fun cfg =>
  ⟨poweredOn_ctx cfg, poweredOn_psq cfg, poweredOn_chan cfg, poweredOn_lvl cfg,
    scanFinds_eq_none (poweredOn_not_eligible cfg), poweredOn_stack cfg⟩

/-! ### The invariants -/

variable {cfg}

/-- No status buffer is loaded at power-on, so there is no range to be sound (R33, R350). -/
theorem inchRangeOk_powerOn (memSize : Nat) : inchRangeOk memSize Channel.powerOn :=
  fun hvalid => absurd hvalid Bool.false_ne_true

theorem inv_poweredOn (hwf : cfg.wf = true) : (State.poweredOn cfg).Inv where
  cfgWf := hwf
  memWf := reset_mem_wf
  memBound a _ := poweredOn_readByte cfg a
  ctxsOk := rfl
  psqsOk := rfl
  chansOk := rfl
  levelsOk := rfl
  fifoBound ch := by rw [poweredOn_chan]; exact Nat.zero_le _
  psqBound u := by rw [poweredOn_psq]; exact Nat.zero_le _
  psqOwned u _ := poweredOn_psq cfg u
  inchOk ch := by rw [poweredOn_chan]; exact inchRangeOk_powerOn _
  activeXorRequested l _ := by rw [poweredOn_lvl]; rfl
  pendingOnlyActive l hpending := by
    rw [poweredOn_lvl] at hpending
    exact absurd hpending Bool.false_ne_true
  unusedLevels l _ := poweredOn_lvl cfg l

/-- Nothing runs at power-on, every context is Empty and no start is queued. -/
theorem quiet_poweredOn (hgeneric : ∀ u, (unitCfg cfg u).hasOverride = false) :
    (State.poweredOn cfg).Quiet where
  noOverride := hgeneric
  idle a ha := by rw [poweredOn_stack] at ha; cases ha
  visible u _ := by rw [poweredOn_ctx]; trivial
  psqOwned u _ := poweredOn_psq cfg u
  queuedInFlight u _ hqueued := absurd (poweredOn_psq cfg u) hqueued

/-- Settles O11: the stored state is sound, and the state is quiet where every unit uses the generic engine
loop. -/
theorem powerOnMeetsBothInvariants : Obligations.PowerOnMeetsBothInvariants := fun _ hwf =>
  ⟨inv_poweredOn hwf, fun hgeneric => orderly_of_quiet (quiet_poweredOn hgeneric)⟩

end Sys2Proof.Machine
end
